-- ==== Sys2Proof/Word.lean ====
section
/-! DEFINITION. The word types of the E2E CORE block (spec/10_state.md, spec/30_encoding.md). -/

namespace Sys2Proof

/-- One cell of the buffer memory: 8 bits (R30). -/
abbrev Byte := BitVec 8

/-- A command word, a length, an offset or a staging register: 32 bits (R26, R28, R90). -/
abbrev Word32 := BitVec 32

/-- An argument or result register: 64 bits (R21, R22). -/
abbrev Word64 := BitVec 64

end Sys2Proof
end

