-- ==== Sys2Proof/Syntax.lean ====
section
/-! DEFINITION. The 46 commands of the block, one constructor per row of spec/opcode_table.json (R93). -/

namespace Sys2Proof

/-- A command of the block. Format N commands carry nothing (their operands are registers, R92). Format S commands
carry the instance slot index of the SLOT field (R90). -/
inductive Instr where
  /-- `CRC8J.CALC`, R135. -/
  | crc8jCalc
  /-- `CRC8H2F.CALC`, R136. -/
  | crc8h2fCalc
  /-- `CRC16.CALC`, R137. -/
  | crc16Calc
  /-- `CRC32P4.CALC`, R138. -/
  | crc32p4Calc
  /-- `CRC64.CALC`, R139. -/
  | crc64Calc
  /-- `RD8`, R166. -/
  | rd8
  /-- `RD16`, R167. -/
  | rd16
  /-- `RD32`, R168. -/
  | rd32
  /-- `RD64`, R169. -/
  | rd64
  /-- `RDNIB`, R170. -/
  | rdnib
  /-- `WR8`, R171. -/
  | wr8
  /-- `WR16`, R172. -/
  | wr16
  /-- `WR32`, R173. -/
  | wr32
  /-- `WR64`, R174. -/
  | wr64
  /-- `WRNIB`, R175. -/
  | wrnib
  /-- `CVAL4`, R196. -/
  | cval4
  /-- `CVAL8`, R197. -/
  | cval8
  /-- `CVAL16`, R198. -/
  | cval16
  /-- `CVAL32`, R199. -/
  | cval32
  /-- `CONSTRUCT.P4 slot`, R252. -/
  | constructP4 (slot : Nat)
  /-- `CONSTRUCT.P4M slot`, R262. -/
  | constructP4M (slot : Nat)
  /-- `CONSTRUCT.P5 slot`, R282. -/
  | constructP5 (slot : Nat)
  /-- `CONSTRUCT.P6 slot`, R292. -/
  | constructP6 (slot : Nat)
  /-- `CONSTRUCT.P7 slot`, R312. -/
  | constructP7 (slot : Nat)
  /-- `CONSTRUCT.P7M slot`, R322. -/
  | constructP7M (slot : Nat)
  /-- `CONSTRUCT.P8 slot`, R332. -/
  | constructP8 (slot : Nat)
  /-- `CONSTRUCT.P11 slot`, R352. -/
  | constructP11 (slot : Nat)
  /-- `CONSTRUCT.P22 slot`, R372. -/
  | constructP22 (slot : Nat)
  /-- `PROTECT.P4 slot`, R254. -/
  | protectP4 (slot : Nat)
  /-- `PROTECT.P4M slot`, R264. -/
  | protectP4M (slot : Nat)
  /-- `PROTECT.P5 slot`, R284. -/
  | protectP5 (slot : Nat)
  /-- `PROTECT.P6 slot`, R294. -/
  | protectP6 (slot : Nat)
  /-- `PROTECT.P7 slot`, R314. -/
  | protectP7 (slot : Nat)
  /-- `PROTECT.P7M slot`, R324. -/
  | protectP7M (slot : Nat)
  /-- `PROTECT.P8 slot`, R334. -/
  | protectP8 (slot : Nat)
  /-- `PROTECT.P11 slot`, R354. -/
  | protectP11 (slot : Nat)
  /-- `PROTECT.P22 slot`, R374. -/
  | protectP22 (slot : Nat)
  /-- `CHECK.P4 slot`, R255. -/
  | checkP4 (slot : Nat)
  /-- `CHECK.P4M slot`, R265. -/
  | checkP4M (slot : Nat)
  /-- `CHECK.P5 slot`, R285. -/
  | checkP5 (slot : Nat)
  /-- `CHECK.P6 slot`, R295. -/
  | checkP6 (slot : Nat)
  /-- `CHECK.P7 slot`, R315. -/
  | checkP7 (slot : Nat)
  /-- `CHECK.P7M slot`, R325. -/
  | checkP7M (slot : Nat)
  /-- `CHECK.P8 slot`, R335. -/
  | checkP8 (slot : Nat)
  /-- `CHECK.P11 slot`, R355. -/
  | checkP11 (slot : Nat)
  /-- `CHECK.P22 slot`, R375. -/
  | checkP22 (slot : Nat)
  deriving DecidableEq, Repr

/-- The slot index of a format S command (R90); `none` for format N. -/
def Instr.slot? : Instr → Option Nat
  | .crc8jCalc => none
  | .crc8h2fCalc => none
  | .crc16Calc => none
  | .crc32p4Calc => none
  | .crc64Calc => none
  | .rd8 => none
  | .rd16 => none
  | .rd32 => none
  | .rd64 => none
  | .rdnib => none
  | .wr8 => none
  | .wr16 => none
  | .wr32 => none
  | .wr64 => none
  | .wrnib => none
  | .cval4 => none
  | .cval8 => none
  | .cval16 => none
  | .cval32 => none
  | .constructP4 i => some i
  | .constructP4M i => some i
  | .constructP5 i => some i
  | .constructP6 i => some i
  | .constructP7 i => some i
  | .constructP7M i => some i
  | .constructP8 i => some i
  | .constructP11 i => some i
  | .constructP22 i => some i
  | .protectP4 i => some i
  | .protectP4M i => some i
  | .protectP5 i => some i
  | .protectP6 i => some i
  | .protectP7 i => some i
  | .protectP7M i => some i
  | .protectP8 i => some i
  | .protectP11 i => some i
  | .protectP22 i => some i
  | .checkP4 i => some i
  | .checkP4M i => some i
  | .checkP5 i => some i
  | .checkP6 i => some i
  | .checkP7 i => some i
  | .checkP7M i => some i
  | .checkP8 i => some i
  | .checkP11 i => some i
  | .checkP22 i => some i

end Sys2Proof
end

