-- ==== Sys2Proof/WellFormed.lean ====
section
/-! DEFINITION. When a command can be encoded (R90). -/

namespace Sys2Proof

/-- The slot index of a format S command fits the 8-bit SLOT field (R90). Whether it is below the machine's own
N_INST depends on the machine and is tested when the command is performed (R95, log 9). -/
def wellFormed (i : Instr) : Bool :=
  match i.slot? with
  | none => true
  | some k => decide (k < 256)

/-- The proposition form of `wellFormed`. -/
abbrev WellFormed (i : Instr) : Prop := wellFormed i = true

end Sys2Proof
end

