-- ==== Sys2Proof/Decode.lean ====
section
/-! DEFINITION. From command words to commands and back (spec/30_encoding.md R90 to R96). -/

namespace Sys2Proof

/-- Why a word is no command (R95). The third cause of R95, a SLOT field at or above N_INST, is tested where the
slot file is at hand: `Machine.withSlot` (log 9). -/
inductive DecodeError where
  /-- The OPC field is not in the table of R93. -/
  | unknownOpcode
  /-- The ZERO field is not 0. -/
  | zeroFieldNotZero
  /-- A format N command with a SLOT field that is not 0. -/
  | slotFieldNotZero
  deriving DecidableEq, Repr

/-- The `OPC` field, bits 31..24 (R90). -/
def opcField (w : Word32) : Nat := (w.extractLsb' 24 8).toNat

/-- The `SLOT` field, bits 23..16 (R90). -/
def slotField (w : Word32) : Nat := (w.extractLsb' 16 8).toNat

/-- The `ZERO` field, bits 15..0 (R90). -/
def zeroField (w : Word32) : Nat := (w.extractLsb' 0 16).toNat

/-- The format N rows of the opcode map: CRC generators and field codec (R93). -/
def rowsCrcCodec : List (Nat × Instr) :=
  [(0x10, .crc8jCalc),
   (0x11, .crc8h2fCalc),
   (0x12, .crc16Calc),
   (0x13, .crc32p4Calc),
   (0x14, .crc64Calc),
   (0x20, .rd8),
   (0x21, .rd16),
   (0x22, .rd32),
   (0x23, .rd64),
   (0x24, .rdnib),
   (0x28, .wr8),
   (0x29, .wr16),
   (0x2A, .wr32),
   (0x2B, .wr64),
   (0x2C, .wrnib)]

/-- The format N rows of the opcode map: counter validator (R93). -/
def rowsValidator : List (Nat × Instr) :=
  [(0x30, .cval4), (0x31, .cval8), (0x32, .cval16), (0x33, .cval32)]

/-- The format S rows of the opcode map: `CONSTRUCT.<p>`, for the slot index `i` (R93). -/
def rowsConstruct (i : Nat) : List (Nat × Instr) :=
  [(0x40, .constructP4 i), (0x41, .constructP4M i), (0x42, .constructP5 i),
   (0x43, .constructP6 i), (0x44, .constructP7 i), (0x45, .constructP7M i),
   (0x46, .constructP8 i), (0x47, .constructP11 i), (0x48, .constructP22 i)]

/-- The format S rows of the opcode map: `PROTECT.<p>`, for the slot index `i` (R93). -/
def rowsProtect (i : Nat) : List (Nat × Instr) :=
  [(0x50, .protectP4 i), (0x51, .protectP4M i), (0x52, .protectP5 i),
   (0x53, .protectP6 i), (0x54, .protectP7 i), (0x55, .protectP7M i),
   (0x56, .protectP8 i), (0x57, .protectP11 i), (0x58, .protectP22 i)]

/-- The format S rows of the opcode map: `CHECK.<p>`, for the slot index `i` (R93). -/
def rowsCheck (i : Nat) : List (Nat × Instr) :=
  [(0x60, .checkP4 i), (0x61, .checkP4M i), (0x62, .checkP5 i),
   (0x63, .checkP6 i), (0x64, .checkP7 i), (0x65, .checkP7M i),
   (0x66, .checkP8 i), (0x67, .checkP11 i), (0x68, .checkP22 i)]

/-- The command of an OPC in a list of rows. -/
def lookupOpc (opc : Nat) : List (Nat × Instr) → Option Instr
  | [] => none
  | (k, i) :: rest => if opc = k then some i else lookupOpc opc rest

/-- The format N command of an OPC (R93). -/
def decodeN (opc : Nat) : Option Instr := lookupOpc opc (rowsCrcCodec ++ rowsValidator)

/-- The format S command of an OPC and a slot index (R93). -/
def decodeS (opc i : Nat) : Option Instr := lookupOpc opc (rowsConstruct i ++ rowsProtect i ++ rowsCheck i)

/-- The command a word encodes, or why it encodes none (R90, R93, R95). -/
def decode (w : Word32) : Except DecodeError Instr :=
  if zeroField w ≠ 0 then .error .zeroFieldNotZero
  else match decodeN (opcField w) with
    | some i => if slotField w = 0 then .ok i else .error .slotFieldNotZero
    | none => match decodeS (opcField w) (slotField w) with
      | some i => .ok i
      | none => .error .unknownOpcode

/-- The OPC of a command (R93). -/
def opcOf : Instr → Nat
  | .crc8jCalc => 0x10
  | .crc8h2fCalc => 0x11
  | .crc16Calc => 0x12
  | .crc32p4Calc => 0x13
  | .crc64Calc => 0x14
  | .rd8 => 0x20
  | .rd16 => 0x21
  | .rd32 => 0x22
  | .rd64 => 0x23
  | .rdnib => 0x24
  | .wr8 => 0x28
  | .wr16 => 0x29
  | .wr32 => 0x2A
  | .wr64 => 0x2B
  | .wrnib => 0x2C
  | .cval4 => 0x30
  | .cval8 => 0x31
  | .cval16 => 0x32
  | .cval32 => 0x33
  | .constructP4 _ => 0x40
  | .constructP4M _ => 0x41
  | .constructP5 _ => 0x42
  | .constructP6 _ => 0x43
  | .constructP7 _ => 0x44
  | .constructP7M _ => 0x45
  | .constructP8 _ => 0x46
  | .constructP11 _ => 0x47
  | .constructP22 _ => 0x48
  | .protectP4 _ => 0x50
  | .protectP4M _ => 0x51
  | .protectP5 _ => 0x52
  | .protectP6 _ => 0x53
  | .protectP7 _ => 0x54
  | .protectP7M _ => 0x55
  | .protectP8 _ => 0x56
  | .protectP11 _ => 0x57
  | .protectP22 _ => 0x58
  | .checkP4 _ => 0x60
  | .checkP4M _ => 0x61
  | .checkP5 _ => 0x62
  | .checkP6 _ => 0x63
  | .checkP7 _ => 0x64
  | .checkP7M _ => 0x65
  | .checkP8 _ => 0x66
  | .checkP11 _ => 0x67
  | .checkP22 _ => 0x68

/-- The command word with an OPC, a SLOT and a zero ZERO field (R90, R91). -/
def commandWord (opc slot : Nat) : Word32 := BitVec.ofNat 8 opc ++ BitVec.ofNat 8 slot ++ (0 : BitVec 16)

/-- The word of a command (R90, R91, R93). -/
def encode (i : Instr) : Word32 := commandWord (opcOf i) (i.slot?.getD 0)

/-- The word that the table's numbering gives: `nbits` bits of `w`, every bit above them 0. A command is one 32-bit
word with one value, so there is no byte order to choose. -/
def tableWord (nbits w : Nat) : Word32 := BitVec.ofNat 32 (w % 2 ^ nbits)

/-- The command the decoder reads from a word numbered as spec/opcode_table.json numbers it. -/
def decodeTableWord (nbits w : Nat) : Option Instr :=
  match decode (tableWord nbits w) with
  | .ok i => some i
  | .error _ => none

theorem decode_word_crc8jCalc : decode 0x10000000#32 = .ok .crc8jCalc := by decide
theorem decode_word_crc8h2fCalc : decode 0x11000000#32 = .ok .crc8h2fCalc := by decide
theorem decode_word_crc16Calc : decode 0x12000000#32 = .ok .crc16Calc := by decide
theorem decode_word_crc32p4Calc : decode 0x13000000#32 = .ok .crc32p4Calc := by decide
theorem decode_word_crc64Calc : decode 0x14000000#32 = .ok .crc64Calc := by decide
theorem decode_word_rd8 : decode 0x20000000#32 = .ok .rd8 := by decide
theorem decode_word_rd16 : decode 0x21000000#32 = .ok .rd16 := by decide
theorem decode_word_rd32 : decode 0x22000000#32 = .ok .rd32 := by decide
theorem decode_word_rd64 : decode 0x23000000#32 = .ok .rd64 := by decide
theorem decode_word_rdnib : decode 0x24000000#32 = .ok .rdnib := by decide
theorem decode_word_wr8 : decode 0x28000000#32 = .ok .wr8 := by decide
theorem decode_word_wr16 : decode 0x29000000#32 = .ok .wr16 := by decide
theorem decode_word_wr32 : decode 0x2A000000#32 = .ok .wr32 := by decide
theorem decode_word_wr64 : decode 0x2B000000#32 = .ok .wr64 := by decide
theorem decode_word_wrnib : decode 0x2C000000#32 = .ok .wrnib := by decide
theorem decode_word_cval4 : decode 0x30000000#32 = .ok .cval4 := by decide
theorem decode_word_cval8 : decode 0x31000000#32 = .ok .cval8 := by decide
theorem decode_word_cval16 : decode 0x32000000#32 = .ok .cval16 := by decide
theorem decode_word_cval32 : decode 0x33000000#32 = .ok .cval32 := by decide
theorem decode_word_constructP4 : decode 0x40050000#32 = .ok (.constructP4 5) := by decide
theorem decode_word_constructP4M : decode 0x412A0000#32 = .ok (.constructP4M 42) := by decide
theorem decode_word_constructP5 : decode 0x424F0000#32 = .ok (.constructP5 79) := by decide
theorem decode_word_constructP6 : decode 0x43740000#32 = .ok (.constructP6 116) := by decide
theorem decode_word_constructP7 : decode 0x44990000#32 = .ok (.constructP7 153) := by decide
theorem decode_word_constructP7M : decode 0x45BE0000#32 = .ok (.constructP7M 190) := by decide
theorem decode_word_constructP8 : decode 0x46E30000#32 = .ok (.constructP8 227) := by decide
theorem decode_word_constructP11 : decode 0x47080000#32 = .ok (.constructP11 8) := by decide
theorem decode_word_constructP22 : decode 0x482D0000#32 = .ok (.constructP22 45) := by decide
theorem decode_word_protectP4 : decode 0x50520000#32 = .ok (.protectP4 82) := by decide
theorem decode_word_protectP4M : decode 0x51770000#32 = .ok (.protectP4M 119) := by decide
theorem decode_word_protectP5 : decode 0x529C0000#32 = .ok (.protectP5 156) := by decide
theorem decode_word_protectP6 : decode 0x53C10000#32 = .ok (.protectP6 193) := by decide
theorem decode_word_protectP7 : decode 0x54E60000#32 = .ok (.protectP7 230) := by decide
theorem decode_word_protectP7M : decode 0x550B0000#32 = .ok (.protectP7M 11) := by decide
theorem decode_word_protectP8 : decode 0x56300000#32 = .ok (.protectP8 48) := by decide
theorem decode_word_protectP11 : decode 0x57550000#32 = .ok (.protectP11 85) := by decide
theorem decode_word_protectP22 : decode 0x587A0000#32 = .ok (.protectP22 122) := by decide
theorem decode_word_checkP4 : decode 0x609F0000#32 = .ok (.checkP4 159) := by decide
theorem decode_word_checkP4M : decode 0x61C40000#32 = .ok (.checkP4M 196) := by decide
theorem decode_word_checkP5 : decode 0x62E90000#32 = .ok (.checkP5 233) := by decide
theorem decode_word_checkP6 : decode 0x630E0000#32 = .ok (.checkP6 14) := by decide
theorem decode_word_checkP7 : decode 0x64330000#32 = .ok (.checkP7 51) := by decide
theorem decode_word_checkP7M : decode 0x65580000#32 = .ok (.checkP7M 88) := by decide
theorem decode_word_checkP8 : decode 0x667D0000#32 = .ok (.checkP8 125) := by decide
theorem decode_word_checkP11 : decode 0x67A20000#32 = .ok (.checkP11 162) := by decide
theorem decode_word_checkP22 : decode 0x68C70000#32 = .ok (.checkP22 199) := by decide

/-- The words of R95 and of spec/95_test_vectors.md program 4, lines 1 to 3, are no commands. -/
theorem decode_rejects :
    decode 0x00000000#32 = .error .unknownOpcode ∧ decode 0x15000000#32 = .error .unknownOpcode ∧
    decode 0x27000000#32 = .error .unknownOpcode ∧ decode 0x49000000#32 = .error .unknownOpcode ∧
    decode 0x69000000#32 = .error .unknownOpcode ∧ decode 0xFF000000#32 = .error .unknownOpcode ∧
    decode 0x11000001#32 = .error .zeroFieldNotZero ∧ decode 0x11010000#32 = .error .slotFieldNotZero := by decide

end Sys2Proof
end

