-- ==== Sys2Proof/Config.lean ====
section
/-! DEFINITION. What the implementation of the block fixes: the two OPEN parameters of R8, as constants without a
body, and the names of the settings of the readings listed in spec/93_implementation_defined.md (their values, which
the spec fixes, are in Machine/Params.lean). -/

namespace Sys2Proof.Config

/-- The free choice behind `nInst`; nothing is known of it but its range (log 6). -/
opaque nInstChoice : Fin 256

/-- `N_INST`, the number of instance slots, 1 <= N_INST <= 256 (R8, R32). Only `State.reset` reads it: a running
machine carries its own slot file, whose length is the parameter (log 6). -/
def nInst : Nat := nInstChoice.val + 1

/-- The free choice behind `bufBytes`; nothing is known of it but its range (log 6). -/
opaque bufBytesChoice : Fin 536870911

/-- `BUF_BYTES`, the capacity of the buffer memory in bytes, 1 <= BUF_BYTES <= 2^29 - 1 (R8, R30). Only
`State.reset` reads it (log 6). -/
def bufBytes : Nat := bufBytesChoice.val + 1

/-- The settings of `P5_ID_ORDER`: position and byte order of the Data ID in the CRC input of profiles 5 and 6
(spec/93_implementation_defined.md U3). -/
inductive IdOrder where
  | appendedHighFirst
  | appendedLowFirst
  | prefixedHighFirst
  | prefixedLowFirst
  deriving DecidableEq, Repr

/-- The settings of `P11_NIBBLE_SRC`: which four bits of `data_id` are the data-ID nibble of profile 11
(spec/93_implementation_defined.md U4). -/
inductive NibbleSrc where
  | bits11to8
  | bits7to4
  deriving DecidableEq, Repr

/-- The settings of `COVER_ORDER`: the order in which the bytes outside the CRC field enter the CRC of profiles 4,
4M, 7, 7M and 8 (spec/93_implementation_defined.md U9). -/
inductive CoverOrder where
  | ascending
  | headerFirst
  deriving DecidableEq, Repr

end Sys2Proof.Config
end

