-- ==== Sys2Proof/Machine/State.lean ====
section
/-! DEFINITION. The architectural state of the block (spec/10_state.md), its reset, and the reasons a step can stop. -/

namespace Sys2Proof.Machine

/-- The nine profiles, in the order of the profile index `px` (R93, R211). -/
inductive Profile where
  | p4 | p4m | p5 | p6 | p7 | p7m | p8 | p11 | p22
  deriving DecidableEq, Repr

/-- The seven statuses of a check or of the validator (R120). -/
inductive Status where
  | ok | okSomeLost | repeated | wrongSequence | crcError | dataIdError | dataLengthError
  deriving DecidableEq, Repr

/-- The error kinds of R121, `NoError` apart. -/
inductive ErrKind where
  | invalidRange | misalignedOffset | fieldOverlap | outOfRangeMaxDelta | dataLengthError | illegalCommand
  | notConstructed
  deriving DecidableEq, Repr

/-- The configuration staging registers `CFG_*` (R28). -/
structure Staging where
  /-- `CFG_OFFSET` -/
  offset : Word32
  /-- `CFG_DATA_ID` -/
  dataId : Word32
  /-- `CFG_META` -/
  metaWord : Word32
  /-- `CFG_DATA_LEN` -/
  dataLen : Word32
  /-- `CFG_MIN_LEN` -/
  minLen : Word32
  /-- `CFG_MAX_LEN` -/
  maxLen : Word32
  /-- `CFG_MAX_DELTA` -/
  maxDelta : Word32
  /-- `CFG_MODE`: 0 = Both, 1 = Nibble -/
  mode : BitVec 1
  /-- `CFG_CRC_OFFSET` -/
  crcOffset : Word32
  /-- `CFG_COUNTER_OFFSET` -/
  counterOffset : Word32
  /-- `CFG_NIBBLE_OFFSET` -/
  nibbleOffset : Word32
  /-- `CFG_ID_LIST[0..15]` -/
  idList : Vector Byte 16
  deriving DecidableEq, Repr

/-- The configuration record of a variable-length profile with a `d`-bit Data ID: P4, P7, P8 (32) and P6 (16) (R34). -/
structure VarCfg (d : Nat) where
  offset : Word32
  dataId : BitVec d
  minLen : Word32
  maxLen : Word32
  delta : Word32
  deriving DecidableEq, Repr

/-- The configuration record of P4M and P7M: that of P4 and P7 with `meta` (R34). -/
structure MetaCfg extends VarCfg 32 where
  metaWord : Word32
  deriving DecidableEq, Repr

/-- The configuration record of P5 (R34). -/
structure FixCfg where
  offset : Word32
  dataId : BitVec 16
  dataLen : Word32
  delta : Word32
  deriving DecidableEq, Repr

/-- The mode of profile 11. `nibble_offset` exists in Nibble mode only (R34, R350, log 12). -/
inductive P11Mode where
  | both
  | nibble (nibbleOffset : Word32)
  deriving DecidableEq, Repr

/-- The configuration record of P11 (R34). -/
structure P11Cfg where
  mode : P11Mode
  crcOffset : Word32
  counterOffset : Word32
  dataId : BitVec 16
  dataLen : Word32
  delta : Word32
  deriving DecidableEq, Repr

/-- The configuration record of P22 (R34). -/
structure P22Cfg where
  offset : Word32
  idList : Vector Byte 16
  dataLen : Word32
  delta : Word32
  deriving DecidableEq, Repr

/-- One constructed profile instance: its configuration and its runtime state, with `w`-bit counters (R33). -/
structure Inst (C : Type) (w : Nat) where
  /-- `cfg` (R34) -/
  cfg : C
  /-- `tx_counter` (R35) -/
  tx : BitVec w
  /-- `rx_counter`: a value, or no value until the first parse-valid check (R33, R36) -/
  rx : Option (BitVec w)
  deriving DecidableEq, Repr

/-- `rx_initialized`: "whether `rx_counter` holds a value" (R33, R37, log 12). -/
def Inst.rxInitialized {C : Type} {w : Nat} (x : Inst C w) : Bool := x.rx.isSome

/-- One instance slot: nothing, or one instance of one profile (R32, R33). -/
inductive Slot where
  | none
  | p4 (x : Inst (VarCfg 32) 16)
  | p4m (x : Inst MetaCfg 16)
  | p5 (x : Inst FixCfg 8)
  | p6 (x : Inst (VarCfg 16) 8)
  | p7 (x : Inst (VarCfg 32) 32)
  | p7m (x : Inst MetaCfg 32)
  | p8 (x : Inst (VarCfg 32) 32)
  | p11 (x : Inst P11Cfg 4)
  | p22 (x : Inst P22Cfg 4)
  deriving DecidableEq, Repr

/-- `slot[i].kind`; `none` is the spec's `None` (R33). -/
def Slot.kind : Slot → Option Profile
  | .none => Option.none
  | .p4 _ => some .p4
  | .p4m _ => some .p4m
  | .p5 _ => some .p5
  | .p6 _ => some .p6
  | .p7 _ => some .p7
  | .p7m _ => some .p7m
  | .p8 _ => some .p8
  | .p11 _ => some .p11
  | .p22 _ => some .p22

/-- The 32-bit staging registers, by name (R28). -/
inductive CfgReg where
  | offset | dataId | metaWord | dataLen | minLen | maxLen | maxDelta | crcOffset | counterOffset | nibbleOffset
  deriving DecidableEq, Repr

/-- The registers the host may read and not write (R22, R23, R24, spec/93_implementation_defined.md U6). -/
inductive OutReg where
  | res0 | res1 | status | err
  deriving DecidableEq, Repr

/-- What the host, or the platform, can do to the block between commands (R21, R22, R26 to R28, R30, R97, R440). The
model keeps the actions to come as a list in the state (log 7). -/
inductive HostAction where
  /-- `set ARG<k>, v` (R21) -/
  | setArg (k : Fin 4) (v : Word64)
  /-- `set LEN, n` (R26) -/
  | setLen (n : Word32)
  /-- `set CFG_<r>, v` (R28) -/
  | setCfg (r : CfgReg) (v : Word32)
  /-- `set CFG_MODE, v` (R28) -/
  | setCfgMode (v : BitVec 1)
  /-- `set CFG_ID_LIST[k], v` (R28) -/
  | setIdList (k : Fin 16) (v : Byte)
  /-- `poke a, b`: the host writes `BUF[a] <- b` (R30, R97) -/
  | poke (a : Nat) (b : Byte)
  /-- `buf [b0, ...]`: the host writes `BUF[0..k)` with the `k` bytes and `LEN` with `k` (R97) -/
  | buf (bytes : List Byte)
  /-- the host writes the command word to `CMD` (R27) -/
  | writeCmd (w : Word32)
  /-- the host tries to write a register it may only read (U6) -/
  | writeOut (r : OutReg)
  /-- the host reads a register other than `CMD` (R21, R22) -/
  | readReg
  /-- the host reads `BUF[a]` (R30) -/
  | readBuf (a : Nat)
  /-- the host tries to read `CMD` (R27, U6) -/
  | readCmd
  /-- the platform asserts block reset (R440) -/
  | blockReset
  deriving DecidableEq, Repr

/-- The buffer memory: the bytes that hold a value, by address, addresses strictly rising. An address that is not
listed holds no value (R42, R43, log 5). -/
abbrev Memory := List Host.Cell

/-- The whole state of the block (R20), the OPEN parameter BUF_BYTES, and the host's pending actions. N_INST is the
length of `slots` (R32, log 6). -/
structure State where
  /-- `ARG0` (R21) -/
  arg0 : Word64
  /-- `ARG1` (R21) -/
  arg1 : Word64
  /-- `ARG2` (R21) -/
  arg2 : Word64
  /-- `ARG3` (R21) -/
  arg3 : Word64
  /-- `RES0` (R22) -/
  res0 : Word64
  /-- `RES1` (R22) -/
  res1 : Word64
  /-- `STATUS` (R23) -/
  status : BitVec 3
  /-- `ERR` (R24) -/
  err : BitVec 8
  /-- `LEN` (R26) -/
  len : Word32
  /-- `CFG_*` (R28) -/
  staging : Staging
  /-- `BUF_BYTES` (R8, R30) -/
  bufBytes : Nat
  /-- `BUF` (R30) -/
  buf : Memory
  /-- `slot[0] .. slot[N_INST-1]` (R32) -/
  slots : List Slot
  /-- the host's pending actions, first first: the model's own field (log 7) -/
  host : List HostAction
  deriving DecidableEq, Repr

/-- The faults that stop a step. -/
inductive Fault where
  /-- An access to a buffer address at or above BUF_BYTES, which does not exist (R30). Raised by `readByte` and
  `writeByte`, so by a host access to such an address, and by a command only where LEN > BUF_BYTES, which R26 rules
  out. Safe: the model stops where the spec gives the access no effect (log 11). -/
  | noSuchAddress (a : Nat)
  deriving DecidableEq, Repr

/-- The refusals that stop a step. -/
inductive Refusal where
  /-- An instruction without a meaning in `exec`. No arm answers so: every command is modelled. Safe. -/
  | notModelled (mnemonic : String)
  /-- A command's rule, or a host read, reads a buffer byte that holds no value (R43, R445, U5). Raised by `readByte`.
  Safe: the spec asks for this refusal (log 5). -/
  | byteWithoutValue (a : Nat)
  /-- A host write of LEN above BUF_BYTES (R26, U6). Raised by `hostAct`. Safe: the spec asks for it (log 10). -/
  | lenBeyondBuffer
  /-- A host write to RES0, RES1, STATUS or ERR, which is not provided (R22, U6). Raised by `hostAct`. Safe (log 10). -/
  | writeNotProvided (r : OutReg)
  /-- A host read of CMD, which is not provided (R27, U6). Raised by `hostAct`. Safe (log 10). -/
  | readNotProvided
  deriving DecidableEq, Repr

/-- The staging registers after block reset: the spec gives no values, the model takes 0 (R42, log 4). -/
def Staging.reset : Staging :=
  { offset := 0, dataId := 0, metaWord := 0, dataLen := 0, minLen := 0, maxLen := 0, maxDelta := 0, mode := 0,
    crcOffset := 0, counterOffset := 0, nibbleOffset := 0, idList := Vector.replicate 16 0 }

/-- The state after block reset of a machine with `bufBytes` buffer bytes and `nInst` slots (R42, R440): every slot
`None`, ERR = 0, LEN = 0 and no buffer byte with a value, as the spec says; ARG*, RES*, STATUS and CFG_* hold 0, the
model's choice where the spec gives no value (log 1 to 4). -/
def State.afterReset (bufBytes nInst : Nat) (host : List HostAction) : State :=
  { arg0 := 0, arg1 := 0, arg2 := 0, arg3 := 0, res0 := 0, res1 := 0, status := 0, err := 0, len := 0,
    staging := Staging.reset, bufBytes := bufBytes, buf := [], slots := List.replicate nInst .none, host := host }

/-- The machine right after reset, for the free parameters of `Config` and with no host action pending (R42, R440). -/
def State.reset : State := State.afterReset Config.bufBytes Config.nInst []

end Sys2Proof.Machine
end

