-- ==== Sys2Proof/Machine/Flags.lean ====
section
/-! DEFINITION. The two registers a command writes as a side effect: the codes of STATUS and ERR (R23, R24, R25,
R120, R121). The block has no other flags. -/

namespace Sys2Proof.Machine

/-- The code `STATUS` holds for a status (R120). -/
def Status.code : Status → BitVec 3
  | .ok => 0
  | .okSomeLost => 1
  | .repeated => 2
  | .wrongSequence => 3
  | .crcError => 4
  | .dataIdError => 5
  | .dataLengthError => 6

/-- `NoError`, the code `ERR` holds after a command that completed (R121). -/
def noError : BitVec 8 := 0

/-- The code `ERR` holds for an error kind (R121). -/
def ErrKind.code : ErrKind → BitVec 8
  | .invalidRange => 1
  | .misalignedOffset => 2
  | .fieldOverlap => 3
  | .outOfRangeMaxDelta => 4
  | .dataLengthError => 5
  | .illegalCommand => 6
  | .notConstructed => 7

end Sys2Proof.Machine
end

