-- ==== Sys2Proof/Machine/Ops.lean ====
section
/-! DEFINITION. The named operations over the state: field updates, the end of a command (with an error, R404, or
completed), the buffer accessors of R13, and the slot file. -/

namespace Sys2Proof.Machine

/-! ### Field updates -/

def State.setErr (s : State) (v : BitVec 8) : State := { s with err := v }
def State.setStatus (s : State) (v : BitVec 3) : State := { s with status := v }
def State.setRes0 (s : State) (v : Word64) : State := { s with res0 := v }
def State.setRes1 (s : State) (v : Word64) : State := { s with res1 := v }
def State.setLen (s : State) (v : Word32) : State := { s with len := v }
def State.setStaging (s : State) (v : Staging) : State := { s with staging := v }
def State.setBuf (s : State) (m : Memory) : State := { s with buf := m }
def State.setHost (s : State) (h : List HostAction) : State := { s with host := h }
/-- Slot `i` replaced; every other slot as it was (R32). -/
def State.setSlot (s : State) (i : Nat) (x : Slot) : State := { s with slots := s.slots.set i x }

/-! ### How a command ends -/

/-- What a step answers. -/
abbrev Result := Host.Outcome State Fault Refusal

/-- `raise E(kind)`: the command ends at once with `ERR <- kind` and no other state changes (R13, R404). This is the
block's whole exception entry; there is no handler and no return (R405). -/
def raise (s : State) (k : ErrKind) : Result := .next (s.setErr k.code)

/-- The command completed: `ERR <- NoError` beside what it wrote (R24). -/
def complete (s : State) : Result := .next (s.setErr noError)

/-- Why an access to the buffer stops the step. -/
inductive Stop where
  | fault (f : Fault)
  | refused (r : Refusal)
  deriving DecidableEq, Repr

/-- The answer of an operation that reads or writes the buffer. -/
abbrev Access (α : Type) := Except Stop α

/-- A step that computes its next state through buffer accesses. -/
def run (a : Access State) : Result :=
  match a with
  | .ok t => .next t
  | .error (.fault f) => .fault f
  | .error (.refused r) => .refused r

/-! ### The buffer memory -/

/-- The byte an address holds, if it holds a value (R30, R43). -/
def Memory.get? : Memory → Nat → Option Byte
  | [], _ => none
  | (k, b) :: rest, a => if a = k then some b else Memory.get? rest a

/-- `BUF[a] <- b`, keeping the addresses strictly rising. -/
def Memory.set : Memory → Nat → Byte → Memory
  | [], a, b => [(a, b)]
  | (k, v) :: rest, a, b =>
    if a < k then (a, b) :: (k, v) :: rest
    else if a = k then (a, b) :: rest
    else (k, v) :: Memory.set rest a b

/-- The canonical form: addresses strictly rising from `lo` on. Every listed entry holds a value and no unlisted
address does, so no entry equals what an unlisted address reads as. -/
def Memory.wfFrom : Nat → Memory → Bool
  | _, [] => true
  | lo, (k, _) :: rest => decide (lo ≤ k) && Memory.wfFrom (k + 1) rest

/-- The canonical form of a buffer memory: addresses strictly rising. -/
def Memory.wf (m : Memory) : Bool := Memory.wfFrom 0 m

/-- One byte of the buffer. Reading has no side effect (R68). An address at or above BUF_BYTES does not exist (R30); a
byte without a value is not read (R43). The spec defines an access to the buffer inside the message only (R13); that
an existing address at or above LEN is read like any other is the model's choice (DESIGN CHOICE, log 24). -/
def readByte (s : State) (a : Nat) : Access Byte :=
  if a < s.bufBytes then
    match s.buf.get? a with
    | some b => .ok b
    | none => .error (.refused (.byteWithoutValue a))
  else .error (.fault (.noSuchAddress a))

/-- `BUF[a] <- b` (R13, R30). An existing address at or above LEN is written like any other: the model's choice (DESIGN
CHOICE, log 24). -/
def writeByte (s : State) (a : Nat) (b : Byte) : Access State :=
  if a < s.bufBytes then .ok (s.setBuf (s.buf.set a b)) else .error (.fault (.noSuchAddress a))

/-- `BUF[a .. a+n)` in ascending address order (R12, R66). -/
def readBytes (s : State) (a : Nat) : Nat → Access (List Byte)
  | 0 => .ok []
  | n + 1 => do
    let b ← readByte s a
    let rest ← readBytes s (a + 1) n
    .ok (b :: rest)

/-- The bytes of a list to ascending addresses from `a` on. -/
def writeBytes (s : State) (a : Nat) : List Byte → Access State
  | [] => .ok s
  | b :: rest => do
    let s' ← writeByte s a b
    writeBytes s' (a + 1) rest

/-- A byte sequence as one big-endian number, the first byte the most significant (R60, R61). -/
def beValue (bs : List Byte) : Nat := bs.foldl (fun acc b => acc * 256 + b.toNat) 0

/-- The `n` bytes of a number below `2^(8n)`, big-endian (R13, R60, R161). -/
def beBytes (n v : Nat) : List Byte := (List.range n).map fun k => BitVec.ofNat 8 (v / 256 ^ (n - 1 - k))

/-- `MemRead(a, n)` (R13). -/
def memRead (s : State) (a n : Nat) : Access Nat := do
  let bs ← readBytes s a n
  .ok (beValue bs)

/-- `MemWrite(a, n, v)` (R13). -/
def memWrite (s : State) (a n v : Nat) : Access State := writeBytes s a (beBytes n v)

/-- The nibble of a byte that bit offset `o` names: bits 3..0 when `o mod 8 = 0`, bits 7..4 when `o mod 8 = 4`
(R11, R62, R162). -/
def nibbleOf (o : Nat) (b : Byte) : Nat := if o % 8 = 0 then b.toNat % 16 else b.toNat / 16

/-- The byte with that nibble replaced by `v` and the other four bits kept (R66, R162). -/
def withNibble (o : Nat) (b : Byte) (v : Nat) : Byte :=
  BitVec.ofNat 8 (if o % 8 = 0 then b.toNat / 16 * 16 + v else v * 16 + b.toNat % 16)

/-- `NibRead(o)` (R13). -/
def nibRead (s : State) (o : Nat) : Access Nat := do
  let b ← readByte s (o / 8)
  .ok (nibbleOf o b)

/-- `NibWrite(o, v)` (R13): a read-modify-write of one byte (R66). -/
def nibWrite (s : State) (o v : Nat) : Access State := do
  let b ← readByte s (o / 8)
  writeByte s (o / 8) (withNibble o b v)

/-- `cover(BUF, LEN, c0, cn)`: every byte of the message outside the `cn` bytes at `c0`, once, in ascending address
order (R224). -/
def coverBytes (s : State) (c0 cn : Nat) : Access (List Byte) := do
  let before ← readBytes s 0 c0
  let after ← readBytes s (c0 + cn) (s.len.toNat - (c0 + cn))
  .ok (before ++ after)

/-! ### The slot file -/

/-- The slot of a format S command. A SLOT at or above N_INST makes the command illegal (R95), which is tested before
anything else (R407). -/
def withSlot (s : State) (i : Nat) (f : Slot → Result) : Result :=
  match s.slots[i]? with
  | some x => f x
  | none => raise s .illegalCommand

end Sys2Proof.Machine
end

