-- ==== Sys2Proof/Machine/Operands.lean ====
section
/-! DEFINITION. The operands of the commands without a slot: `ARG0..ARG3`, each with a stated width (R92, R94). -/

namespace Sys2Proof.Machine

/-- The operand has a bit set above its stated width of `w` bits (R94). -/
def tooWide (v : Word64) (w : Nat) : Bool := decide (2 ^ w ≤ v.toNat)

/-- A bit offset of a whole-byte access that is no multiple of 8 (R163). -/
def byteMisaligned (o : Nat) : Bool := decide (o % 8 ≠ 0)

/-- A bit offset of a nibble access that is no multiple of 4 (R163). -/
def nibbleMisaligned (o : Nat) : Bool := decide (o % 4 ≠ 0)

/-- The `n` bytes at byte address `a` are not all inside the message `BUF[0..LEN)` (R67, R164). -/
def outsideMessage (s : State) (a n : Nat) : Bool := decide (s.len.toNat < a + n)

end Sys2Proof.Machine
end

