-- ==== Sys2Proof/Machine/Codec.lean ====
section
/-! DEFINITION. The field codec and its ten commands (spec/41_codec.md). -/

namespace Sys2Proof.Machine

/-- The template of `RD8 .. RD64` for a field of `n` bytes: `RES0 <- MemRead(ARG0/8, n)` (R165, R166 to R169). -/
def readField (n : Nat) (s : State) : Result :=
  if tooWide s.arg0 32 then raise s .invalidRange
  else if byteMisaligned s.arg0.toNat then raise s .misalignedOffset
  else if outsideMessage s (s.arg0.toNat / 8) n then raise s .dataLengthError
  else run do
    let v ← memRead s (s.arg0.toNat / 8) n
    .ok ((s.setRes0 (BitVec.ofNat 64 v)).setErr noError)

/-- The template of `WR8 .. WR64` for a field of `n` bytes: `MemWrite(ARG0/8, n, ARG1)` (R165, R171 to R174). -/
def writeField (n : Nat) (s : State) : Result :=
  if tooWide s.arg0 32 || tooWide s.arg1 (8 * n) then raise s .invalidRange
  else if byteMisaligned s.arg0.toNat then raise s .misalignedOffset
  else if outsideMessage s (s.arg0.toNat / 8) n then raise s .dataLengthError
  else run do
    let s' ← memWrite s (s.arg0.toNat / 8) n s.arg1.toNat
    .ok (s'.setErr noError)

/-- `RD8` (R166). -/
def execRd8 (s : State) : Result := readField 1 s

/-- `RD16` (R167). -/
def execRd16 (s : State) : Result := readField 2 s

/-- `RD32` (R168). -/
def execRd32 (s : State) : Result := readField 4 s

/-- `RD64` (R169). -/
def execRd64 (s : State) : Result := readField 8 s

/-- `RDNIB` (R170). -/
def execRdnib (s : State) : Result :=
  if tooWide s.arg0 32 then raise s .invalidRange
  else if nibbleMisaligned s.arg0.toNat then raise s .misalignedOffset
  else if outsideMessage s (s.arg0.toNat / 8) 1 then raise s .dataLengthError
  else run do
    let v ← nibRead s s.arg0.toNat
    .ok ((s.setRes0 (BitVec.ofNat 64 v)).setErr noError)

/-- `WR8` (R171). -/
def execWr8 (s : State) : Result := writeField 1 s

/-- `WR16` (R172). -/
def execWr16 (s : State) : Result := writeField 2 s

/-- `WR32` (R173). -/
def execWr32 (s : State) : Result := writeField 4 s

/-- `WR64` (R174). -/
def execWr64 (s : State) : Result := writeField 8 s

/-- `WRNIB` (R175). -/
def execWrnib (s : State) : Result :=
  if tooWide s.arg0 32 || tooWide s.arg1 4 then raise s .invalidRange
  else if nibbleMisaligned s.arg0.toNat then raise s .misalignedOffset
  else if outsideMessage s (s.arg0.toNat / 8) 1 then raise s .dataLengthError
  else run do
    let s' ← nibWrite s s.arg0.toNat s.arg1.toNat
    .ok (s'.setErr noError)

end Sys2Proof.Machine
end

