-- ==== Sys2Proof/Machine/Crc.lean ====
section
/-! DEFINITION. The CRC generators and their five commands (spec/40_crc.md). -/

namespace Sys2Proof.Machine

/-- The parameters of a CRC engine of width `w` (R130). -/
structure Engine (w : Nat) where
  poly : BitVec w
  init : BitVec w
  refIn : Bool
  refOut : Bool
  xorOut : BitVec w
  deriving DecidableEq, Repr

/-- CRC-8/SAE-J1850 (R130). -/
def crc8j : Engine 8 := { poly := 0x1D, init := 0xFF, refIn := false, refOut := false, xorOut := 0xFF }

/-- CRC-8/8H2F (R130). -/
def crc8h2f : Engine 8 := { poly := 0x2F, init := 0xFF, refIn := false, refOut := false, xorOut := 0xFF }

/-- CRC-16/CCITT-FALSE (R130). -/
def crc16 : Engine 16 := { poly := 0x1021, init := 0xFFFF, refIn := false, refOut := false, xorOut := 0x0000 }

/-- CRC-32/P4 (R130). -/
def crc32p4 : Engine 32 :=
  { poly := 0xF4ACFB13, init := 0xFFFFFFFF, refIn := true, refOut := true, xorOut := 0xFFFFFFFF }

/-- CRC-64/ECMA (R130). -/
def crc64 : Engine 64 :=
  { poly := 0x42F0E1EBA9EA3693, init := 0xFFFFFFFFFFFFFFFF, refIn := true, refOut := true,
    xorOut := 0xFFFFFFFFFFFFFFFF }

/-- `reflect_N(v)`: bit `i` of the result is bit `N-1-i` of `v` (R13). -/
def reflect {n : Nat} (v : BitVec n) : BitVec n := v.reverse

/-- One shift of the working register: the top bit leaves and decides whether Poly is added (R131). -/
def crcShift {w : Nat} (e : Engine w) (r : BitVec w) : BitVec w :=
  if r.msb then (r <<< 1) ^^^ e.poly else r <<< 1

/-- A function applied `n` times. -/
def repeatTimes {α : Type} (f : α → α) : Nat → α → α
  | 0, x => x
  | n + 1, x => repeatTimes f n (f x)

/-- One byte into the register: reflected if RefIn, added to the top 8 bits, then eight shifts (R131). -/
def crcByte {w : Nat} (e : Engine w) (r : BitVec w) (b : Byte) : BitVec w :=
  let b' := if e.refIn then reflect b else b
  repeatTimes (crcShift e) 8 (r ^^^ (b'.setWidth w <<< (w - 8)))

/-- The bytes of a sequence fed one after the other (R131, R133). -/
def crcFeed {w : Nat} (e : Engine w) (r : BitVec w) (bs : List Byte) : BitVec w := bs.foldl (crcByte e) r

/-- The result of a register: reflected if RefOut, then XorOut added (R131). -/
def crcFinish {w : Nat} (e : Engine w) (r : BitVec w) : BitVec w :=
  (if e.refOut then reflect r else r) ^^^ e.xorOut

/-- `crc_E(s, init)` (R131). -/
def crcFrom {w : Nat} (e : Engine w) (bs : List Byte) (init : BitVec w) : BitVec w :=
  crcFinish e (crcFeed e init bs)

/-- `crc_E(s)`: started from the engine's own Init (R131). -/
def crcOf {w : Nat} (e : Engine w) (bs : List Byte) : BitVec w := crcFrom e bs e.init

/-- The template of the CRC commands: `RES0 <- crc_E(BUF[ARG0 .. ARG0+ARG1), ARG2)` (R134). -/
def crcCommand {w : Nat} (e : Engine w) (s : State) : Result :=
  if tooWide s.arg0 32 || tooWide s.arg1 32 || tooWide s.arg2 w then raise s .invalidRange
  else if outsideMessage s s.arg0.toNat s.arg1.toNat then raise s .dataLengthError
  else run do
    let bs ← readBytes s s.arg0.toNat s.arg1.toNat
    .ok ((s.setRes0 ((crcFrom e bs (s.arg2.setWidth w)).setWidth 64)).setErr noError)

/-- `CRC8J.CALC` (R135). -/
def execCrc8jCalc (s : State) : Result := crcCommand crc8j s

/-- `CRC8H2F.CALC` (R136). -/
def execCrc8h2fCalc (s : State) : Result := crcCommand crc8h2f s

/-- `CRC16.CALC` (R137). -/
def execCrc16Calc (s : State) : Result := crcCommand crc16 s

/-- `CRC32P4.CALC` (R138). -/
def execCrc32p4Calc (s : State) : Result := crcCommand crc32p4 s

/-- `CRC64.CALC` (R139). -/
def execCrc64Calc (s : State) : Result := crcCommand crc64 s

end Sys2Proof.Machine
end

