-- ==== Sys2Proof/Machine/Params.lean ====
section
/-! DEFINITION. The constants of the profile framer: the profile table (R211, R216) and the named parameters of R8,
each at the value the spec fixes (spec/93_implementation_defined.md U1 to U4, U9). -/

namespace Sys2Proof.Machine

/-- The header size in bytes; profile 11 has three separate fields and no header (R211, R110 to R118). -/
def headerBytes : Profile → Nat
  | .p4 => 12
  | .p4m => 16
  | .p5 => 3
  | .p6 => 5
  | .p7 => 20
  | .p7m => 24
  | .p8 => 16
  | .p11 => 0
  | .p22 => 2

/-- `DELTA_MIN[p]` (R216). -/
def deltaMin : Profile → Nat := fun _ => 1

/-- `DELTA_MAX[p]` (R216; for P4 and P4M see log 17). -/
def deltaMax : Profile → Nat
  | .p4 | .p4m => 0xFFFFE
  | .p5 | .p6 => 0xFE
  | .p7 | .p7m | .p8 => 0xFFFFFFFE
  | .p11 => 14
  | .p22 => 15

/-- The largest `max_len` of a profile with a 16-bit Length field, `8 * 0xFFFF` bits (R214 (d)). -/
def maxLen16 : Nat := 0x7FFF8

/-- The largest `data_len` of profile 11, in bits (R214 (b)). -/
def maxDataLenP11 : Nat := 240

/-- `CRC8_ENGINE[P11]` (R8, conflict C1, log 13). -/
def crc8EngineP11 : Engine 8 := crc8h2f

/-- `CRC8_ENGINE[P22]` (R8, conflict C1, log 13). -/
def crc8EngineP22 : Engine 8 := crc8j

/-- `P5_ID_ORDER` (R8, conflicts C7 and C8, log 14). -/
def p5IdOrder : Config.IdOrder := .appendedHighFirst

/-- `P11_NIBBLE_SRC` (R8, conflict C6, log 15). -/
def p11NibbleSrc : Config.NibbleSrc := .bits11to8

/-- `COVER_ORDER` (R225, U9, log 16). -/
def coverOrder : Config.CoverOrder := .ascending

end Sys2Proof.Machine
end

