-- ==== Sys2Proof/Machine/Validator.lean ====
section
/-! DEFINITION. The counter-delta validator and its four commands (spec/42_counter.md). -/

namespace Sys2Proof.Machine

/-- `d = (R - P + M) mod M` for `M = 2^w` (R191, R200). -/
def counterDelta (w p r : Nat) : Nat := (r + 2 ^ w - p) % 2 ^ w

/-- `cval(P, R, w, D, ini)`: the status and the new P. `prev` is P where `ini` is true and nothing where it is false
(P is not read then); the new `ini` is always true (R191, R192, R193). -/
def cval (w : Nat) (delta : Nat) (prev : Option Nat) (r : Nat) : Status × Nat :=
  match prev with
  | none => (.ok, r)
  | some p =>
    let d := counterDelta w p r
    if d = 0 then (.repeated, p)
    else if d = 1 then (.ok, r)
    else if d ≤ delta then (.okSomeLost, r)
    else (.wrongSequence, p)

/-- The template of `CVAL<w>`: P, R, D, ini in ARG0..ARG3; STATUS, RES0 = new P, RES1 = 1 (R195). -/
def cvalCommand (w : Nat) (s : State) : Result :=
  if tooWide s.arg1 w || tooWide s.arg2 32 || tooWide s.arg3 1 then raise s .invalidRange
  else if s.arg3 = 1 && tooWide s.arg0 w then raise s .invalidRange
  else
    let prev := if s.arg3 = 1 then some s.arg0.toNat else none
    let v := cval w s.arg2.toNat prev s.arg1.toNat
    complete (((s.setStatus v.1.code).setRes0 (BitVec.ofNat 64 v.2)).setRes1 1)

/-- `CVAL4` (R196). -/
def execCval4 (s : State) : Result := cvalCommand 4 s

/-- `CVAL8` (R197). -/
def execCval8 (s : State) : Result := cvalCommand 8 s

/-- `CVAL16` (R198). -/
def execCval16 (s : State) : Result := cvalCommand 16 s

/-- `CVAL32` (R199). -/
def execCval32 (s : State) : Result := cvalCommand 32 s

end Sys2Proof.Machine
end

