-- ==== Sys2Proof/Machine/Framer.lean ====
section
/-! DEFINITION. The profile framer: what the 27 framer commands share (spec/43_framer_common.md). -/

namespace Sys2Proof.Machine

/-! ### Construct -/

/-- The kind of the first violated invariant of a list, in the order the tests are made (R212). -/
def firstViolated : List (Bool × ErrKind) → Option ErrKind
  | [] => none
  | (bad, k) :: rest => if bad then some k else firstViolated rest

/-- Group 1 for a header: `offset` is no multiple of 8 (R213). -/
def offsetMisaligned (o : Nat) : Bool := decide (o % 8 ≠ 0)

/-- Group 1 for a nibble field of profile 11 (R213). -/
def nibbleOffsetMisaligned (o : Nat) : Bool := decide (o % 4 ≠ 0)

/-- Group 2 (a): a 16-bit Data ID given as a wider value (R214). -/
def dataIdTooWide (id : Word32) : Bool := decide (2 ^ 16 ≤ id.toNat)

/-- Group 2 (c): `min_len`, `max_len` no multiples of 8, or out of order (R214). -/
def lengthsBad (mn mx : Nat) : Bool := decide (mn % 8 ≠ 0 ∨ mx % 8 ≠ 0 ∨ mx < mn)

/-- Group 2 (d): `max_len` above what a 16-bit Length field can hold (R214). -/
def maxLenTooLarge (mx : Nat) : Bool := decide (maxLen16 < mx)

/-- Group 2 (b): `data_len` is no multiple of 8 (R214). -/
def dataLenBad (dl : Nat) : Bool := decide (dl % 8 ≠ 0)

/-- Group 2 (e): a field of `bits` bits at `o` is not inside the first `dl` bits, over the naturals (R214). -/
def fieldOutside (o bits dl : Nat) : Bool := decide (dl < o + bits)

/-- Group 4: the tolerance is outside the profile's range (R216). -/
def deltaBad (p : Profile) (d : Nat) : Bool := decide (d < deltaMin p ∨ deltaMax p < d)

/-- A fresh instance: the validated configuration, `tx_counter` 0, `rx_counter` without a value (R217, R441). -/
def freshInst {C : Type} {w : Nat} (cfg : C) : Inst C w := { cfg := cfg, tx := 0, rx := none }

/-- The effect of a construct: the first violated test decides the error and the slot keeps what it had, or the slot
becomes the fresh instance (R212, R217, R406). -/
def construct (s : State) (i : Nat) (tests : List (Bool × ErrKind)) (fresh : Slot) : Result :=
  match firstViolated tests with
  | some k => raise s k
  | none => complete (s.setSlot i fresh)

/-! ### The length test -/

/-- `len_ok` of a fixed-length profile (R218). -/
def lenOkFixed (dataLen : Word32) (len : Nat) : Bool := decide (8 * len = dataLen.toNat)

/-- `len_ok` of a variable-length profile (R218). -/
def lenOkRange (minLen maxLen : Word32) (len : Nat) : Bool :=
  decide (minLen.toNat ≤ 8 * len ∧ 8 * len ≤ maxLen.toNat)

/-! ### The CRC input -/

/-- The bytes outside the CRC field in the order of `COVER_ORDER`, for a header of `h` bytes at `ob` with the CRC
field the `cn` bytes at `c0` (R224, R225, U9). -/
def headerCover (order : Config.CoverOrder) (s : State) (ob h c0 cn : Nat) : Access (List Byte) :=
  match order with
  | .ascending => coverBytes s c0 cn
  | .headerFirst => do
    let front ← readBytes s ob (c0 - ob)
    let back ← readBytes s (c0 + cn) (ob + h - (c0 + cn))
    let before ← readBytes s 0 ob
    let after ← readBytes s (ob + h) (s.len.toNat - (ob + h))
    .ok (front ++ back ++ before ++ after)

/-- The two Data ID bytes of profiles 5 and 6 put to the covered bytes, as `P5_ID_ORDER` says (R283, R293, U3). -/
def withDataId (order : Config.IdOrder) (id : BitVec 16) (cover : List Byte) : List Byte :=
  let hi := id.extractLsb' 8 8
  let lo := id.extractLsb' 0 8
  match order with
  | .appendedHighFirst => cover ++ [hi, lo]
  | .appendedLowFirst => cover ++ [lo, hi]
  | .prefixedHighFirst => [hi, lo] ++ cover
  | .prefixedLowFirst => [lo, hi] ++ cover

/-! ### Protect and check -/

/-- What a profile's rules say of one instance: its length test, the fields it stamps and reads, its CRC and the
place of the CRC field. -/
structure Frame (w : Nat) where
  /-- `len_ok(cfg, LEN)` (R218) -/
  lenOk : Nat → Bool
  /-- the fields protect writes before the CRC, for a `tx_counter` (R221) -/
  stamp : BitVec w → State → Access State
  /-- byte address of the CRC field -/
  crcAt : Nat
  /-- size of the CRC field in bytes -/
  crcBytes : Nat
  /-- `crc_E( vseq_<p>(cfg, BUF, LEN) )` (R224) -/
  crc : State → Access Nat
  /-- whether the Length field, where the profile has one, equals LEN (R230) -/
  lengthAgrees : State → Access Bool
  /-- whether the stored Data ID signature, where the profile has one, equals the configured one (R230) -/
  idAgrees : State → Access Bool
  /-- the Counter field -/
  counter : State → Access Nat
  /-- the tolerance of the counter stage -/
  delta : Nat

/-- A field test of a profile that has no such field (R230). -/
def noField (_ : State) : Access Bool := .ok true

/-- Whether the `n`-byte field at `a` holds `v` (R230). -/
def fieldIs (a n v : Nat) (s : State) : Access Bool := do
  let x ← memRead s a n
  .ok (decide (x = v))

/-- Whether the `n`-byte Length field at `a` holds LEN (R230). -/
def lengthFieldIs (a n : Nat) (s : State) : Access Bool := fieldIs a n s.len.toNat s

/-- The protect skeleton: the length test, then the fields, then the CRC over the stamped buffer, then the CRC field
and the counter (R221, R222, R223). `put` puts the instance back into its slot form. -/
def protect {C : Type} {w : Nat} (fr : Frame w) (put : Inst C w → Slot) (x : Inst C w) (i : Nat) (s : State) : Result :=
  if fr.lenOk s.len.toNat then run do
    let s1 ← fr.stamp x.tx s
    let v ← fr.crc s1
    let s2 ← memWrite s1 fr.crcAt fr.crcBytes v
    .ok ((s2.setSlot i (put { x with tx := x.tx + 1 })).setErr noError)
  else raise s .dataLengthError

/-- A check that ends with a finding before the counter stage: STATUS and ERR and nothing else (R230, R232). -/
def finding (s : State) (st : Status) : State := (s.setStatus st.code).setErr noError

/-- The counter stage: the validator on the received counter, STATUS, and the receiver's state (R230, R232). -/
def counterStage {C : Type} {w : Nat} (delta : Nat) (put : Inst C w → Slot) (x : Inst C w) (i r : Nat) (s : State) :
    State :=
  let v := cval w delta (x.rx.map BitVec.toNat) r
  (((s.setStatus v.1.code).setSlot i (put { x with rx := some (BitVec.ofNat w v.2) }))).setErr noError

/-- The check skeleton: length bounds and Length field, CRC, Data ID signature, counter, in this order of precedence
(R230, R231). -/
def check {C : Type} {w : Nat} (fr : Frame w) (put : Inst C w → Slot) (x : Inst C w) (i : Nat) (s : State) : Result :=
  if fr.lenOk s.len.toNat then run do
    let lengthOk ← fr.lengthAgrees s
    if lengthOk then do
      let stored ← memRead s fr.crcAt fr.crcBytes
      let computed ← fr.crc s
      if stored = computed then do
        let idOk ← fr.idAgrees s
        if idOk then do
          let r ← fr.counter s
          .ok (counterStage fr.delta put x i r s)
        else .ok (finding s .dataIdError)
      else .ok (finding s .crcError)
    else .ok (finding s .dataLengthError)
  else .next (finding s .dataLengthError)

end Sys2Proof.Machine
end

