-- ==== Sys2Proof/Machine/ProfileP11.lean ====
section
/-! DEFINITION. The framer commands of profiles 11 and 22 (spec/47_framer_p11_p22.md). -/

namespace Sys2Proof.Machine

/-! ### Profile 11 -/

/-- The byte address of the CRC byte of profile 11, `cb` (R351). -/
def P11Cfg.cb (c : P11Cfg) : Nat := c.crcOffset.toNat / 8

/-- The data-ID nibble of profile 11 under `P11_NIBBLE_SRC` (R351, U4). -/
def nibbleFrom (src : Config.NibbleSrc) (id : BitVec 16) : BitVec 4 :=
  match src with
  | .bits11to8 => id.extractLsb' 8 4
  | .bits7to4 => id.extractLsb' 4 4

/-- `idn(c)` (R351). -/
def P11Cfg.idn (c : P11Cfg) : BitVec 4 := nibbleFrom p11NibbleSrc c.dataId

/-- The two Data ID bytes of the CRC input of profile 11 (R353). -/
def P11Cfg.idBytes (c : P11Cfg) : List Byte :=
  match c.mode with
  | .both => [c.dataId.extractLsb' 0 8, 0]
  | .nibble _ => [c.dataId.extractLsb' 0 8, c.idn.setWidth 8]

/-- `vseq_P11` (R353). -/
def vseqP11 (c : P11Cfg) (s : State) : Access (List Byte) := do
  let bs ← coverBytes s c.cb 1
  .ok (c.idBytes ++ bs)

/-- The field layout of profile 11: the CRC byte, the counter nibble and, in Nibble mode, the data-ID nibble
(R117, R351, R353). -/
def frameP11 (c : P11Cfg) : Frame 4 where
  lenOk := lenOkFixed c.dataLen
  stamp tx s := do
    let s1 ← nibWrite s c.counterOffset.toNat tx.toNat
    match c.mode with
    | .both => .ok s1
    | .nibble o => nibWrite s1 o.toNat c.idn.toNat
  crcAt := c.cb
  crcBytes := 1
  crc s := do
    let bs ← vseqP11 c s
    .ok (crcOf crc8EngineP11 bs).toNat
  lengthAgrees := noField
  idAgrees s :=
    match c.mode with
    | .both => .ok true
    | .nibble o => do
      let v ← nibRead s o.toNat
      .ok (decide (v = c.idn.toNat))
  counter s := nibRead s c.counterOffset.toNat
  delta := c.delta.toNat

/-- The mode a construct copies: `nibble_offset` in Nibble mode only (R28, R352). -/
def p11ModeOf (g : Staging) : P11Mode := if g.mode = 1 then .nibble g.nibbleOffset else .both

/-- The tests of `CONSTRUCT.P11`, in order; `CFG_NIBBLE_OFFSET` is not read in Both mode (R352). -/
def testsP11 (g : Staging) : List (Bool × ErrKind) :=
  let nib := decide (g.mode = 1)
  let co := g.crcOffset.toNat
  let cn := g.counterOffset.toNat
  let nn := g.nibbleOffset.toNat
  let dl := g.dataLen.toNat
  [(offsetMisaligned co || nibbleOffsetMisaligned cn, .misalignedOffset),
   (nib && nibbleOffsetMisaligned nn, .misalignedOffset),
   (dataIdTooWide g.dataId, .invalidRange),
   (dataLenBad dl || decide (maxDataLenP11 < dl), .invalidRange),
   (fieldOutside co 8 dl || fieldOutside cn 4 dl, .invalidRange),
   (nib && fieldOutside nn 4 dl, .invalidRange),
   (decide (cn / 8 = co / 8), .fieldOverlap),
   (nib && decide (nn / 8 = co / 8), .fieldOverlap),
   (nib && decide (nn = cn), .fieldOverlap),
   (deltaBad .p11 g.maxDelta.toNat, .outOfRangeMaxDelta)]

/-- The configuration record `CONSTRUCT.P11` copies (R34). -/
def p11CfgOf (g : Staging) : P11Cfg :=
  { mode := p11ModeOf g, crcOffset := g.crcOffset, counterOffset := g.counterOffset,
    dataId := g.dataId.setWidth 16, dataLen := g.dataLen, delta := g.maxDelta }

/-- `CONSTRUCT.P11 i` (R352). -/
def execConstructP11 (i : Nat) (s : State) : Result :=
  withSlot s i fun _ => construct s i (testsP11 s.staging) (.p11 (freshInst (p11CfgOf s.staging)))

/-- `PROTECT.P11 i` (R354). -/
def execProtectP11 (i : Nat) (s : State) : Result :=
  withSlot s i fun
    | .p11 x => protect (frameP11 x.cfg) .p11 x i s
    | _ => raise s .notConstructed

/-- `CHECK.P11 i` (R355). -/
def execCheckP11 (i : Nat) (s : State) : Result :=
  withSlot s i fun
    | .p11 x => check (frameP11 x.cfg) .p11 x i s
    | _ => raise s .notConstructed

/-! ### Profile 22 -/

/-- The byte address of the header of profile 22 (R69). -/
def P22Cfg.ob (c : P22Cfg) : Nat := c.offset.toNat / 8

/-- `id_list[k]` for a 4-bit counter value `k` (R373). -/
def P22Cfg.idAt (c : P22Cfg) (k : Nat) : Byte := c.idList.toList.getD k 0

/-- `vseq_P22`: the list entry of the counter in the buffer, then the bytes outside the CRC byte (R373). -/
def vseqP22 (c : P22Cfg) (s : State) : Access (List Byte) := do
  let k ← nibRead s (c.offset.toNat + 8)
  let bs ← coverBytes s c.ob 1
  .ok (c.idAt k :: bs)

/-- The field layout of profile 22: CRC +0, Counter in the low nibble of +1 (R118, R371, R373). -/
def frameP22 (c : P22Cfg) : Frame 4 where
  lenOk := lenOkFixed c.dataLen
  stamp tx s := nibWrite s (c.offset.toNat + 8) tx.toNat
  crcAt := c.ob
  crcBytes := 1
  crc s := do
    let bs ← vseqP22 c s
    .ok (crcOf crc8EngineP22 bs).toNat
  lengthAgrees := noField
  idAgrees := noField
  counter s := nibRead s (c.offset.toNat + 8)
  delta := c.delta.toNat

/-- The tests of `CONSTRUCT.P22`, in order (R372). -/
def testsP22 (g : Staging) : List (Bool × ErrKind) :=
  [(offsetMisaligned g.offset.toNat, .misalignedOffset),
   (dataLenBad g.dataLen.toNat, .invalidRange),
   (fieldOutside g.offset.toNat (8 * headerBytes .p22) g.dataLen.toNat, .invalidRange),
   (deltaBad .p22 g.maxDelta.toNat, .outOfRangeMaxDelta)]

/-- The configuration record `CONSTRUCT.P22` copies (R34). -/
def p22CfgOf (g : Staging) : P22Cfg :=
  { offset := g.offset, idList := g.idList, dataLen := g.dataLen, delta := g.maxDelta }

/-- `CONSTRUCT.P22 i` (R372). -/
def execConstructP22 (i : Nat) (s : State) : Result :=
  withSlot s i fun _ => construct s i (testsP22 s.staging) (.p22 (freshInst (p22CfgOf s.staging)))

/-- `PROTECT.P22 i` (R374). -/
def execProtectP22 (i : Nat) (s : State) : Result :=
  withSlot s i fun
    | .p22 x => protect (frameP22 x.cfg) .p22 x i s
    | _ => raise s .notConstructed

/-- `CHECK.P22 i` (R375). -/
def execCheckP22 (i : Nat) (s : State) : Result :=
  withSlot s i fun
    | .p22 x => check (frameP22 x.cfg) .p22 x i s
    | _ => raise s .notConstructed

end Sys2Proof.Machine
end

