-- ==== Sys2Proof/Machine/ProfileP4.lean ====
section
/-! DEFINITION. The framer commands of profiles 4 and 4M (spec/44_framer_p4_p4m.md). -/

namespace Sys2Proof.Machine

/-! ### Profile 4 -/

/-- The byte address of the header of a variable-length profile, `ob = offset div 8` (R69). -/
def VarCfg.ob {d : Nat} (c : VarCfg d) : Nat := c.offset.toNat / 8

/-- `vseq_P4` (R253). -/
def vseqP4 (c : VarCfg 32) (s : State) : Access (List Byte) :=
  headerCover coverOrder s c.ob (headerBytes .p4) (c.ob + 8) 4

/-- The field layout of profile 4: Length +0, Counter +2, DataID +4, CRC +8 (R110, R251, R253). -/
def frameP4 (c : VarCfg 32) : Frame 16 where
  lenOk := lenOkRange c.minLen c.maxLen
  stamp tx s := do
    let s1 ← memWrite s (c.ob + 0) 2 s.len.toNat
    let s2 ← memWrite s1 (c.ob + 2) 2 tx.toNat
    memWrite s2 (c.ob + 4) 4 c.dataId.toNat
  crcAt := c.ob + 8
  crcBytes := 4
  crc s := do
    let bs ← vseqP4 c s
    .ok (crcOf crc32p4 bs).toNat
  lengthAgrees := lengthFieldIs (c.ob + 0) 2
  idAgrees := fieldIs (c.ob + 4) 4 c.dataId.toNat
  counter s := memRead s (c.ob + 2) 2
  delta := c.delta.toNat

/-- The tests of `CONSTRUCT.P4`, in order (R252). -/
def testsP4 (g : Staging) : List (Bool × ErrKind) :=
  [(offsetMisaligned g.offset.toNat, .misalignedOffset),
   (lengthsBad g.minLen.toNat g.maxLen.toNat, .invalidRange),
   (maxLenTooLarge g.maxLen.toNat, .invalidRange),
   (fieldOutside g.offset.toNat (8 * headerBytes .p4) g.minLen.toNat, .invalidRange),
   (deltaBad .p4 g.maxDelta.toNat, .outOfRangeMaxDelta)]

/-- The configuration record `CONSTRUCT.P4`, `.P7` and `.P8` copy (R34). -/
def varCfgOf (g : Staging) : VarCfg 32 :=
  { offset := g.offset, dataId := g.dataId, minLen := g.minLen, maxLen := g.maxLen, delta := g.maxDelta }

/-- `CONSTRUCT.P4 i` (R252). -/
def execConstructP4 (i : Nat) (s : State) : Result :=
  withSlot s i fun _ => construct s i (testsP4 s.staging) (.p4 (freshInst (varCfgOf s.staging)))

/-- `PROTECT.P4 i` (R254). -/
def execProtectP4 (i : Nat) (s : State) : Result :=
  withSlot s i fun
    | .p4 x => protect (frameP4 x.cfg) .p4 x i s
    | _ => raise s .notConstructed

/-- `CHECK.P4 i` (R255). -/
def execCheckP4 (i : Nat) (s : State) : Result :=
  withSlot s i fun
    | .p4 x => check (frameP4 x.cfg) .p4 x i s
    | _ => raise s .notConstructed

/-! ### Profile 4M -/

/-- `vseq_P4M` (R263). -/
def vseqP4M (c : MetaCfg) (s : State) : Access (List Byte) :=
  headerCover coverOrder s c.ob (headerBytes .p4m) (c.ob + 12) 4

/-- The field layout of profile 4M: Length +0, Counter +2, DataID +4, Meta +8, CRC +12 (R111, R261, R263). -/
def frameP4M (c : MetaCfg) : Frame 16 where
  lenOk := lenOkRange c.minLen c.maxLen
  stamp tx s := do
    let s1 ← memWrite s (c.ob + 0) 2 s.len.toNat
    let s2 ← memWrite s1 (c.ob + 2) 2 tx.toNat
    let s3 ← memWrite s2 (c.ob + 4) 4 c.dataId.toNat
    memWrite s3 (c.ob + 8) 4 c.metaWord.toNat
  crcAt := c.ob + 12
  crcBytes := 4
  crc s := do
    let bs ← vseqP4M c s
    .ok (crcOf crc32p4 bs).toNat
  lengthAgrees := lengthFieldIs (c.ob + 0) 2
  idAgrees s := do
    let idOk ← fieldIs (c.ob + 4) 4 c.dataId.toNat s
    let metaOk ← fieldIs (c.ob + 8) 4 c.metaWord.toNat s
    .ok (idOk && metaOk)
  counter s := memRead s (c.ob + 2) 2
  delta := c.delta.toNat

/-- The tests of `CONSTRUCT.P4M`, in order (R262). -/
def testsP4M (g : Staging) : List (Bool × ErrKind) :=
  [(offsetMisaligned g.offset.toNat, .misalignedOffset),
   (lengthsBad g.minLen.toNat g.maxLen.toNat, .invalidRange),
   (maxLenTooLarge g.maxLen.toNat, .invalidRange),
   (fieldOutside g.offset.toNat (8 * headerBytes .p4m) g.minLen.toNat, .invalidRange),
   (deltaBad .p4m g.maxDelta.toNat, .outOfRangeMaxDelta)]

/-- The configuration record `CONSTRUCT.P4M` and `.P7M` copy (R34). -/
def metaCfgOf (g : Staging) : MetaCfg := { varCfgOf g with metaWord := g.metaWord }

/-- `CONSTRUCT.P4M i` (R262). -/
def execConstructP4M (i : Nat) (s : State) : Result :=
  withSlot s i fun _ => construct s i (testsP4M s.staging) (.p4m (freshInst (metaCfgOf s.staging)))

/-- `PROTECT.P4M i` (R264). -/
def execProtectP4M (i : Nat) (s : State) : Result :=
  withSlot s i fun
    | .p4m x => protect (frameP4M x.cfg) .p4m x i s
    | _ => raise s .notConstructed

/-- `CHECK.P4M i` (R265). -/
def execCheckP4M (i : Nat) (s : State) : Result :=
  withSlot s i fun
    | .p4m x => check (frameP4M x.cfg) .p4m x i s
    | _ => raise s .notConstructed

end Sys2Proof.Machine
end

