-- ==== Sys2Proof/Machine/ProfileP5.lean ====
section
/-! DEFINITION. The framer commands of profiles 5 and 6 (spec/45_framer_p5_p6.md). -/

namespace Sys2Proof.Machine

/-! ### Profile 5 -/

/-- The byte address of the header of profile 5 (R69). -/
def FixCfg.ob (c : FixCfg) : Nat := c.offset.toNat / 8

/-- `vseq_P5` (R283). -/
def vseqP5 (c : FixCfg) (s : State) : Access (List Byte) := do
  let bs ← coverBytes s c.ob 2
  .ok (withDataId p5IdOrder c.dataId bs)

/-- The field layout of profile 5: CRC +0, Counter +2 (R112, R281, R283). -/
def frameP5 (c : FixCfg) : Frame 8 where
  lenOk := lenOkFixed c.dataLen
  stamp tx s := memWrite s (c.ob + 2) 1 tx.toNat
  crcAt := c.ob + 0
  crcBytes := 2
  crc s := do
    let bs ← vseqP5 c s
    .ok (crcOf crc16 bs).toNat
  lengthAgrees := noField
  idAgrees := noField
  counter s := memRead s (c.ob + 2) 1
  delta := c.delta.toNat

/-- The tests of `CONSTRUCT.P5`, in order (R282). -/
def testsP5 (g : Staging) : List (Bool × ErrKind) :=
  [(offsetMisaligned g.offset.toNat, .misalignedOffset),
   (dataIdTooWide g.dataId, .invalidRange),
   (dataLenBad g.dataLen.toNat, .invalidRange),
   (fieldOutside g.offset.toNat (8 * headerBytes .p5) g.dataLen.toNat, .invalidRange),
   (deltaBad .p5 g.maxDelta.toNat, .outOfRangeMaxDelta)]

/-- The configuration record `CONSTRUCT.P5` copies (R34). -/
def fixCfgOf (g : Staging) : FixCfg :=
  { offset := g.offset, dataId := g.dataId.setWidth 16, dataLen := g.dataLen, delta := g.maxDelta }

/-- `CONSTRUCT.P5 i` (R282). -/
def execConstructP5 (i : Nat) (s : State) : Result :=
  withSlot s i fun _ => construct s i (testsP5 s.staging) (.p5 (freshInst (fixCfgOf s.staging)))

/-- `PROTECT.P5 i` (R284). -/
def execProtectP5 (i : Nat) (s : State) : Result :=
  withSlot s i fun
    | .p5 x => protect (frameP5 x.cfg) .p5 x i s
    | _ => raise s .notConstructed

/-- `CHECK.P5 i` (R285). -/
def execCheckP5 (i : Nat) (s : State) : Result :=
  withSlot s i fun
    | .p5 x => check (frameP5 x.cfg) .p5 x i s
    | _ => raise s .notConstructed

/-! ### Profile 6 -/

/-- `vseq_P6` (R293). -/
def vseqP6 (c : VarCfg 16) (s : State) : Access (List Byte) := do
  let bs ← coverBytes s c.ob 2
  .ok (withDataId p5IdOrder c.dataId bs)

/-- The field layout of profile 6: CRC +0, Length +2, Counter +4 (R113, R291, R293). -/
def frameP6 (c : VarCfg 16) : Frame 8 where
  lenOk := lenOkRange c.minLen c.maxLen
  stamp tx s := do
    let s1 ← memWrite s (c.ob + 2) 2 s.len.toNat
    memWrite s1 (c.ob + 4) 1 tx.toNat
  crcAt := c.ob + 0
  crcBytes := 2
  crc s := do
    let bs ← vseqP6 c s
    .ok (crcOf crc16 bs).toNat
  lengthAgrees := lengthFieldIs (c.ob + 2) 2
  idAgrees := noField
  counter s := memRead s (c.ob + 4) 1
  delta := c.delta.toNat

/-- The tests of `CONSTRUCT.P6`, in order (R292). -/
def testsP6 (g : Staging) : List (Bool × ErrKind) :=
  [(offsetMisaligned g.offset.toNat, .misalignedOffset),
   (dataIdTooWide g.dataId, .invalidRange),
   (lengthsBad g.minLen.toNat g.maxLen.toNat, .invalidRange),
   (maxLenTooLarge g.maxLen.toNat, .invalidRange),
   (fieldOutside g.offset.toNat (8 * headerBytes .p6) g.minLen.toNat, .invalidRange),
   (deltaBad .p6 g.maxDelta.toNat, .outOfRangeMaxDelta)]

/-- The configuration record `CONSTRUCT.P6` copies (R34). -/
def varCfg16Of (g : Staging) : VarCfg 16 :=
  { offset := g.offset, dataId := g.dataId.setWidth 16, minLen := g.minLen, maxLen := g.maxLen, delta := g.maxDelta }

/-- `CONSTRUCT.P6 i` (R292). -/
def execConstructP6 (i : Nat) (s : State) : Result :=
  withSlot s i fun _ => construct s i (testsP6 s.staging) (.p6 (freshInst (varCfg16Of s.staging)))

/-- `PROTECT.P6 i` (R294). -/
def execProtectP6 (i : Nat) (s : State) : Result :=
  withSlot s i fun
    | .p6 x => protect (frameP6 x.cfg) .p6 x i s
    | _ => raise s .notConstructed

/-- `CHECK.P6 i` (R295). -/
def execCheckP6 (i : Nat) (s : State) : Result :=
  withSlot s i fun
    | .p6 x => check (frameP6 x.cfg) .p6 x i s
    | _ => raise s .notConstructed

end Sys2Proof.Machine
end

