-- ==== Sys2Proof/Machine/ProfileP7.lean ====
section
/-! DEFINITION. The framer commands of profiles 7, 7M and 8 (spec/46_framer_p7_p7m_p8.md). -/

namespace Sys2Proof.Machine

/-! ### Profile 7 -/

/-- `vseq_P7` (R313). -/
def vseqP7 (c : VarCfg 32) (s : State) : Access (List Byte) :=
  headerCover coverOrder s c.ob (headerBytes .p7) (c.ob + 0) 8

/-- The field layout of profile 7: CRC +0, Length +8, Counter +12, DataID +16 (R114, R311, R313). -/
def frameP7 (c : VarCfg 32) : Frame 32 where
  lenOk := lenOkRange c.minLen c.maxLen
  stamp tx s := do
    let s1 ← memWrite s (c.ob + 8) 4 s.len.toNat
    let s2 ← memWrite s1 (c.ob + 12) 4 tx.toNat
    memWrite s2 (c.ob + 16) 4 c.dataId.toNat
  crcAt := c.ob + 0
  crcBytes := 8
  crc s := do
    let bs ← vseqP7 c s
    .ok (crcOf crc64 bs).toNat
  lengthAgrees := lengthFieldIs (c.ob + 8) 4
  idAgrees := fieldIs (c.ob + 16) 4 c.dataId.toNat
  counter s := memRead s (c.ob + 12) 4
  delta := c.delta.toNat

/-- The tests of `CONSTRUCT.P7`, in order (R312). -/
def testsP7 (g : Staging) : List (Bool × ErrKind) :=
  [(offsetMisaligned g.offset.toNat, .misalignedOffset),
   (lengthsBad g.minLen.toNat g.maxLen.toNat, .invalidRange),
   (fieldOutside g.offset.toNat (8 * headerBytes .p7) g.minLen.toNat, .invalidRange),
   (deltaBad .p7 g.maxDelta.toNat, .outOfRangeMaxDelta)]

/-- `CONSTRUCT.P7 i` (R312). -/
def execConstructP7 (i : Nat) (s : State) : Result :=
  withSlot s i fun _ => construct s i (testsP7 s.staging) (.p7 (freshInst (varCfgOf s.staging)))

/-- `PROTECT.P7 i` (R314). -/
def execProtectP7 (i : Nat) (s : State) : Result :=
  withSlot s i fun
    | .p7 x => protect (frameP7 x.cfg) .p7 x i s
    | _ => raise s .notConstructed

/-- `CHECK.P7 i` (R315). -/
def execCheckP7 (i : Nat) (s : State) : Result :=
  withSlot s i fun
    | .p7 x => check (frameP7 x.cfg) .p7 x i s
    | _ => raise s .notConstructed

/-! ### Profile 7M -/

/-- `vseq_P7M` (R323). -/
def vseqP7M (c : MetaCfg) (s : State) : Access (List Byte) :=
  headerCover coverOrder s c.ob (headerBytes .p7m) (c.ob + 0) 8

/-- The field layout of profile 7M: CRC +0, Length +8, Counter +12, DataID +16, Meta +20 (R115, R321, R323). -/
def frameP7M (c : MetaCfg) : Frame 32 where
  lenOk := lenOkRange c.minLen c.maxLen
  stamp tx s := do
    let s1 ← memWrite s (c.ob + 8) 4 s.len.toNat
    let s2 ← memWrite s1 (c.ob + 12) 4 tx.toNat
    let s3 ← memWrite s2 (c.ob + 16) 4 c.dataId.toNat
    memWrite s3 (c.ob + 20) 4 c.metaWord.toNat
  crcAt := c.ob + 0
  crcBytes := 8
  crc s := do
    let bs ← vseqP7M c s
    .ok (crcOf crc64 bs).toNat
  lengthAgrees := lengthFieldIs (c.ob + 8) 4
  idAgrees s := do
    let idOk ← fieldIs (c.ob + 16) 4 c.dataId.toNat s
    let metaOk ← fieldIs (c.ob + 20) 4 c.metaWord.toNat s
    .ok (idOk && metaOk)
  counter s := memRead s (c.ob + 12) 4
  delta := c.delta.toNat

/-- The tests of `CONSTRUCT.P7M`, in order (R322). -/
def testsP7M (g : Staging) : List (Bool × ErrKind) :=
  [(offsetMisaligned g.offset.toNat, .misalignedOffset),
   (lengthsBad g.minLen.toNat g.maxLen.toNat, .invalidRange),
   (fieldOutside g.offset.toNat (8 * headerBytes .p7m) g.minLen.toNat, .invalidRange),
   (deltaBad .p7m g.maxDelta.toNat, .outOfRangeMaxDelta)]

/-- `CONSTRUCT.P7M i` (R322). -/
def execConstructP7M (i : Nat) (s : State) : Result :=
  withSlot s i fun _ => construct s i (testsP7M s.staging) (.p7m (freshInst (metaCfgOf s.staging)))

/-- `PROTECT.P7M i` (R324). -/
def execProtectP7M (i : Nat) (s : State) : Result :=
  withSlot s i fun
    | .p7m x => protect (frameP7M x.cfg) .p7m x i s
    | _ => raise s .notConstructed

/-- `CHECK.P7M i` (R325). -/
def execCheckP7M (i : Nat) (s : State) : Result :=
  withSlot s i fun
    | .p7m x => check (frameP7M x.cfg) .p7m x i s
    | _ => raise s .notConstructed

/-! ### Profile 8 -/

/-- `vseq_P8` (R333). -/
def vseqP8 (c : VarCfg 32) (s : State) : Access (List Byte) :=
  headerCover coverOrder s c.ob (headerBytes .p8) (c.ob + 0) 4

/-- The field layout of profile 8: CRC +0, Length +4, Counter +8, DataID +12 (R116, R331, R333). -/
def frameP8 (c : VarCfg 32) : Frame 32 where
  lenOk := lenOkRange c.minLen c.maxLen
  stamp tx s := do
    let s1 ← memWrite s (c.ob + 4) 4 s.len.toNat
    let s2 ← memWrite s1 (c.ob + 8) 4 tx.toNat
    memWrite s2 (c.ob + 12) 4 c.dataId.toNat
  crcAt := c.ob + 0
  crcBytes := 4
  crc s := do
    let bs ← vseqP8 c s
    .ok (crcOf crc32p4 bs).toNat
  lengthAgrees := lengthFieldIs (c.ob + 4) 4
  idAgrees := fieldIs (c.ob + 12) 4 c.dataId.toNat
  counter s := memRead s (c.ob + 8) 4
  delta := c.delta.toNat

/-- The tests of `CONSTRUCT.P8`, in order (R332). -/
def testsP8 (g : Staging) : List (Bool × ErrKind) :=
  [(offsetMisaligned g.offset.toNat, .misalignedOffset),
   (lengthsBad g.minLen.toNat g.maxLen.toNat, .invalidRange),
   (fieldOutside g.offset.toNat (8 * headerBytes .p8) g.minLen.toNat, .invalidRange),
   (deltaBad .p8 g.maxDelta.toNat, .outOfRangeMaxDelta)]

/-- `CONSTRUCT.P8 i` (R332). -/
def execConstructP8 (i : Nat) (s : State) : Result :=
  withSlot s i fun _ => construct s i (testsP8 s.staging) (.p8 (freshInst (varCfgOf s.staging)))

/-- `PROTECT.P8 i` (R334). -/
def execProtectP8 (i : Nat) (s : State) : Result :=
  withSlot s i fun
    | .p8 x => protect (frameP8 x.cfg) .p8 x i s
    | _ => raise s .notConstructed

/-- `CHECK.P8 i` (R335). -/
def execCheckP8 (i : Nat) (s : State) : Result :=
  withSlot s i fun
    | .p8 x => check (frameP8 x.cfg) .p8 x i s
    | _ => raise s .notConstructed

end Sys2Proof.Machine
end

