-- ==== Sys2Proof/Machine/Dispatch.lean ====
section
/-! DEFINITION. The meaning of every command, one arm each (R93). -/

namespace Sys2Proof.Machine

def exec (i : Instr) (s : State) : Host.Outcome State Fault Refusal :=
  match i with
  | .crc8jCalc => Sys2Proof.Machine.execCrc8jCalc s
  | .crc8h2fCalc => Sys2Proof.Machine.execCrc8h2fCalc s
  | .crc16Calc => Sys2Proof.Machine.execCrc16Calc s
  | .crc32p4Calc => Sys2Proof.Machine.execCrc32p4Calc s
  | .crc64Calc => Sys2Proof.Machine.execCrc64Calc s
  | .rd8 => Sys2Proof.Machine.execRd8 s
  | .rd16 => Sys2Proof.Machine.execRd16 s
  | .rd32 => Sys2Proof.Machine.execRd32 s
  | .rd64 => Sys2Proof.Machine.execRd64 s
  | .rdnib => Sys2Proof.Machine.execRdnib s
  | .wr8 => Sys2Proof.Machine.execWr8 s
  | .wr16 => Sys2Proof.Machine.execWr16 s
  | .wr32 => Sys2Proof.Machine.execWr32 s
  | .wr64 => Sys2Proof.Machine.execWr64 s
  | .wrnib => Sys2Proof.Machine.execWrnib s
  | .cval4 => Sys2Proof.Machine.execCval4 s
  | .cval8 => Sys2Proof.Machine.execCval8 s
  | .cval16 => Sys2Proof.Machine.execCval16 s
  | .cval32 => Sys2Proof.Machine.execCval32 s
  | .constructP4 slot => Sys2Proof.Machine.execConstructP4 slot s
  | .constructP4M slot => Sys2Proof.Machine.execConstructP4M slot s
  | .constructP5 slot => Sys2Proof.Machine.execConstructP5 slot s
  | .constructP6 slot => Sys2Proof.Machine.execConstructP6 slot s
  | .constructP7 slot => Sys2Proof.Machine.execConstructP7 slot s
  | .constructP7M slot => Sys2Proof.Machine.execConstructP7M slot s
  | .constructP8 slot => Sys2Proof.Machine.execConstructP8 slot s
  | .constructP11 slot => Sys2Proof.Machine.execConstructP11 slot s
  | .constructP22 slot => Sys2Proof.Machine.execConstructP22 slot s
  | .protectP4 slot => Sys2Proof.Machine.execProtectP4 slot s
  | .protectP4M slot => Sys2Proof.Machine.execProtectP4M slot s
  | .protectP5 slot => Sys2Proof.Machine.execProtectP5 slot s
  | .protectP6 slot => Sys2Proof.Machine.execProtectP6 slot s
  | .protectP7 slot => Sys2Proof.Machine.execProtectP7 slot s
  | .protectP7M slot => Sys2Proof.Machine.execProtectP7M slot s
  | .protectP8 slot => Sys2Proof.Machine.execProtectP8 slot s
  | .protectP11 slot => Sys2Proof.Machine.execProtectP11 slot s
  | .protectP22 slot => Sys2Proof.Machine.execProtectP22 slot s
  | .checkP4 slot => Sys2Proof.Machine.execCheckP4 slot s
  | .checkP4M slot => Sys2Proof.Machine.execCheckP4M slot s
  | .checkP5 slot => Sys2Proof.Machine.execCheckP5 slot s
  | .checkP6 slot => Sys2Proof.Machine.execCheckP6 slot s
  | .checkP7 slot => Sys2Proof.Machine.execCheckP7 slot s
  | .checkP7M slot => Sys2Proof.Machine.execCheckP7M slot s
  | .checkP8 slot => Sys2Proof.Machine.execCheckP8 slot s
  | .checkP11 slot => Sys2Proof.Machine.execCheckP11 slot s
  | .checkP22 slot => Sys2Proof.Machine.execCheckP22 slot s

end Sys2Proof.Machine
end

