-- ==== Sys2Proof/Machine/HostPort.lean ====
section
/-! DEFINITION. What the host does between commands: register and buffer accesses (R21, R22, R26 to R28, R30, R97),
and the platform's block reset (R440). -/

namespace Sys2Proof.Machine

/-- `set ARG<k>, v` (R21). -/
def State.setArg (s : State) (k : Fin 4) (v : Word64) : State :=
  match k with
  | 0 => { s with arg0 := v }
  | 1 => { s with arg1 := v }
  | 2 => { s with arg2 := v }
  | 3 => { s with arg3 := v }

/-- A 32-bit staging register replaced (R28). -/
def Staging.set (g : Staging) (r : CfgReg) (v : Word32) : Staging :=
  match r with
  | .offset => { g with offset := v }
  | .dataId => { g with dataId := v }
  | .metaWord => { g with metaWord := v }
  | .dataLen => { g with dataLen := v }
  | .minLen => { g with minLen := v }
  | .maxLen => { g with maxLen := v }
  | .maxDelta => { g with maxDelta := v }
  | .crcOffset => { g with crcOffset := v }
  | .counterOffset => { g with counterOffset := v }
  | .nibbleOffset => { g with nibbleOffset := v }

/-- Block reset: the reset values, with the machine's own parameters and with the actions the host has still to do
(R42, R440, log 8). -/
def State.blockReset (s : State) : State := State.afterReset s.bufBytes s.slots.length s.host

/-- The effect of a host action other than a write of CMD (R21, R22, R26 to R28, R30, R97, R440, U6). -/
def hostAct (a : HostAction) (s : State) : Result :=
  match a with
  | .setArg k v => .next (s.setArg k v)
  | .setLen n => if n.toNat ≤ s.bufBytes then .next (s.setLen n) else .refused .lenBeyondBuffer
  | .setCfg r v => .next (s.setStaging (s.staging.set r v))
  | .setCfgMode v => .next (s.setStaging { s.staging with mode := v })
  | .setIdList k v => .next (s.setStaging { s.staging with idList := s.staging.idList.set k v })
  | .poke k b => run (writeByte s k b)
  | .buf bytes =>
    if bytes.length ≤ s.bufBytes then run do
      let s' ← writeBytes s 0 bytes
      .ok (s'.setLen (BitVec.ofNat 32 bytes.length))
    else .refused .lenBeyondBuffer
  | .writeCmd _ => .next s
  | .writeOut r => .refused (.writeNotProvided r)
  | .readReg => .next s
  | .readBuf k => run do
    let _ ← readByte s k
    .ok s
  | .readCmd => .refused .readNotProvided
  | .blockReset => .next s.blockReset

/-- The host's next action and the state without it; nothing where the host does nothing (log 7). -/
def nextAction (s : State) : Option (HostAction × State) :=
  match s.host with
  | [] => none
  | a :: rest => some (a, s.setHost rest)

end Sys2Proof.Machine
end

