-- ==== Sys2Proof/Machine/Command.lean ====
section
/-! DEFINITION. The command register CMD: a write of a word performs the command it encodes (R27, R90, R95). -/

namespace Sys2Proof.Machine

/-- The command of a word, performed; an illegal word ends with `ERR = IllegalCommand` and changes nothing else
(R27, R95). -/
def command (w : Word32) (s : State) : Result :=
  match decode w with
  | .ok i => exec i s
  | .error _ => raise s .illegalCommand

/-- One action of the host, performed (log 7). -/
def performAction (a : HostAction) (s : State) : Result :=
  match a with
  | .writeCmd w => command w s
  | a => hostAct a s

/-- The state whose host will write one more command word, before everything else it had to do. -/
def pushCommand (w : Word32) (s : State) : State := s.setHost (.writeCmd w :: s.host)

end Sys2Proof.Machine
end

