-- ==== Sys2Proof/Machine/Step.lean ====
section
/-! DEFINITION. One step of the machine: the host's next action, a whole command where it is a write of CMD (R14,
R71). -/

namespace Sys2Proof.Machine

/-- One step: the first pending host action is taken and performed. With none pending nothing happens: "a block that
is given no command does nothing and keeps its state" (R425). -/
def step (s : State) : Host.Outcome State Fault Refusal :=
  match nextAction s with
  | none => .next s
  | some (a, s') => performAction a s'

/-- The state in which the very next step performs the command of the word `w`, numbered as spec/opcode_table.json
numbers it: the host is about to write it to CMD (R27, log 7). -/
def State.withFetchWord (s : State) (nbits w : Nat) : State := pushCommand (tableWord nbits w) s

end Sys2Proof.Machine
end

