-- ==== Sys2Proof/Safety.lean ====
section
/-! DEFINITION. What claims about the block speak of: the message in the buffer, a validated configuration, and the
invariant of every state a run from reset reaches. -/

namespace Sys2Proof.Machine

/-- `bs` is the message now in the buffer: the bytes `BUF[0..LEN)`, each with a value, all below BUF_BYTES (R26,
R30). -/
structure Message (s : State) (bs : List Byte) : Prop where
  length_eq : bs.length = s.len.toNat
  fits : s.len.toNat ≤ s.bufBytes
  byte_eq : ∀ a, a < s.len.toNat → s.buf.get? a = bs[a]?

/-- `bs` is the message now in the buffer, where a byte at an address in `blank` need hold no value yet: `bs` may have
any byte there (R43, R445). -/
structure MessageBut (blank : Nat → Prop) (s : State) (bs : List Byte) : Prop where
  length_eq : bs.length = s.len.toNat
  fits : s.len.toNat ≤ s.bufBytes
  byte_eq : ∀ a, a < s.len.toNat → ¬blank a → s.buf.get? a = bs[a]?

/-- The buffer holds the bytes `bs` from address `a` on, all at addresses that exist. -/
def Holds (s : State) (a : Nat) (bs : List Byte) : Prop :=
  a + bs.length ≤ s.bufBytes ∧ ∀ k, k < bs.length → s.buf.get? (a + k) = bs[k]?

/-- `BUF[a .. a+n)` of a message (R12). -/
def slice (bs : List Byte) (a n : Nat) : List Byte := (bs.drop a).take n

/-- The big-endian field of `n` bytes at byte `a` of a message (R13, R60). -/
def field (bs : List Byte) (a n : Nat) : Nat := beValue (slice bs a n)

/-- The byte at `a` of a message; 0 past its end. -/
def byteOf (bs : List Byte) (a : Nat) : Byte := bs.getD a 0

/-- The message with the bytes from `a` on replaced by `new`. -/
def patch (bs : List Byte) (a : Nat) (new : List Byte) : List Byte := bs.take a ++ new ++ bs.drop (a + new.length)

/-- Every byte of a message outside the `cn` bytes at `c0`, in ascending order: `cover` of R224 on a message. -/
def coverOf (bs : List Byte) (c0 cn : Nat) : List Byte := bs.take c0 ++ bs.drop (c0 + cn)

/-- The profiles with a 16-bit Length field (R211). -/
def shortLength : Profile → Bool
  | .p4 | .p4m | .p6 => true
  | _ => false

/-- The configuration of a variable-length instance of profile `p` as its construct validated it (R213, R214, R216). -/
structure VarCfg.Ok {d : Nat} (c : VarCfg d) (p : Profile) : Prop where
  aligned : c.offset.toNat % 8 = 0
  min8 : c.minLen.toNat % 8 = 0
  max8 : c.maxLen.toNat % 8 = 0
  ordered : c.minLen.toNat ≤ c.maxLen.toNat
  short : shortLength p = true → c.maxLen.toNat ≤ maxLen16
  inside : c.offset.toNat + 8 * headerBytes p ≤ c.minLen.toNat
  delta : deltaMin p ≤ c.delta.toNat ∧ c.delta.toNat ≤ deltaMax p

/-- The configuration of a profile 5 instance as its construct validated it (R282). -/
structure FixCfg.Ok (c : FixCfg) : Prop where
  aligned : c.offset.toNat % 8 = 0
  len8 : c.dataLen.toNat % 8 = 0
  inside : c.offset.toNat + 8 * headerBytes .p5 ≤ c.dataLen.toNat
  delta : deltaMin .p5 ≤ c.delta.toNat ∧ c.delta.toNat ≤ deltaMax .p5

/-- The configuration of a profile 11 instance as its construct validated it (R352). -/
structure P11Cfg.Ok (c : P11Cfg) : Prop where
  crcAligned : c.crcOffset.toNat % 8 = 0
  counterAligned : c.counterOffset.toNat % 4 = 0
  len8 : c.dataLen.toNat % 8 = 0
  lenMax : c.dataLen.toNat ≤ maxDataLenP11
  crcInside : c.crcOffset.toNat + 8 ≤ c.dataLen.toNat
  counterInside : c.counterOffset.toNat + 4 ≤ c.dataLen.toNat
  apart : c.counterOffset.toNat / 8 ≠ c.crcOffset.toNat / 8
  nibbleOk : ∀ o, c.mode = .nibble o →
    o.toNat % 4 = 0 ∧ o.toNat + 4 ≤ c.dataLen.toNat ∧ o.toNat / 8 ≠ c.crcOffset.toNat / 8 ∧ o ≠ c.counterOffset
  delta : deltaMin .p11 ≤ c.delta.toNat ∧ c.delta.toNat ≤ deltaMax .p11

/-- The configuration of a profile 22 instance as its construct validated it (R372). -/
structure P22Cfg.Ok (c : P22Cfg) : Prop where
  aligned : c.offset.toNat % 8 = 0
  len8 : c.dataLen.toNat % 8 = 0
  inside : c.offset.toNat + 8 * headerBytes .p22 ≤ c.dataLen.toNat
  delta : deltaMin .p22 ≤ c.delta.toNat ∧ c.delta.toNat ≤ deltaMax .p22

/-- What a slot holds was validated by a construct (R33: "validated at construction"). -/
def Slot.Ok : Slot → Prop
  | .none => True
  | .p4 x => x.cfg.Ok .p4
  | .p4m x => x.cfg.toVarCfg.Ok .p4m
  | .p5 x => x.cfg.Ok
  | .p6 x => x.cfg.Ok .p6
  | .p7 x => x.cfg.Ok .p7
  | .p7m x => x.cfg.toVarCfg.Ok .p7m
  | .p8 x => x.cfg.Ok .p8
  | .p11 x => x.cfg.Ok
  | .p22 x => x.cfg.Ok

/-! ### The framer commands by profile -/

/-- `CONSTRUCT.<p> i` (R93). -/
def constructOf : Profile → Nat → Instr
  | .p4 => .constructP4 | .p4m => .constructP4M | .p5 => .constructP5 | .p6 => .constructP6 | .p7 => .constructP7
  | .p7m => .constructP7M | .p8 => .constructP8 | .p11 => .constructP11 | .p22 => .constructP22

/-- `PROTECT.<p> i` (R93). -/
def protectOf : Profile → Nat → Instr
  | .p4 => .protectP4 | .p4m => .protectP4M | .p5 => .protectP5 | .p6 => .protectP6 | .p7 => .protectP7
  | .p7m => .protectP7M | .p8 => .protectP8 | .p11 => .protectP11 | .p22 => .protectP22

/-- `CHECK.<p> i` (R93). -/
def checkOf : Profile → Nat → Instr
  | .p4 => .checkP4 | .p4m => .checkP4M | .p5 => .checkP5 | .p6 => .checkP6 | .p7 => .checkP7
  | .p7m => .checkP7M | .p8 => .checkP8 | .p11 => .checkP11 | .p22 => .checkP22

/-- The counter width of a profile (R211). -/
def counterWidth : Profile → Nat
  | .p4 => 16 | .p4m => 16 | .p5 => 8 | .p6 => 8 | .p7 => 32 | .p7m => 32 | .p8 => 32 | .p11 => 4 | .p22 => 4

/-! ### Slots -/

/-- `tx_counter` of a slot, as a number (R35). -/
def txOf : Slot → Option Nat
  | .none => none
  | .p4 x => some x.tx.toNat | .p4m x => some x.tx.toNat | .p5 x => some x.tx.toNat | .p6 x => some x.tx.toNat
  | .p7 x => some x.tx.toNat | .p7m x => some x.tx.toNat | .p8 x => some x.tx.toNat | .p11 x => some x.tx.toNat
  | .p22 x => some x.tx.toNat

/-- `rx_counter` of a slot, as a number; `none` while it holds no value, that is, while `rx_initialized` is false
(R36, R37). -/
def rxOf : Slot → Option Nat
  | .none => none
  | .p4 x => x.rx.map BitVec.toNat | .p4m x => x.rx.map BitVec.toNat | .p5 x => x.rx.map BitVec.toNat
  | .p6 x => x.rx.map BitVec.toNat | .p7 x => x.rx.map BitVec.toNat | .p7m x => x.rx.map BitVec.toNat
  | .p8 x => x.rx.map BitVec.toNat | .p11 x => x.rx.map BitVec.toNat | .p22 x => x.rx.map BitVec.toNat

/-- `len_ok(cfg, LEN)` of the instance in a slot (R218). -/
def LenOk (x : Slot) (len : Nat) : Prop :=
  match x with
  | .none => False
  | .p4 x | .p7 x | .p8 x => x.cfg.minLen.toNat ≤ 8 * len ∧ 8 * len ≤ x.cfg.maxLen.toNat
  | .p4m x | .p7m x => x.cfg.minLen.toNat ≤ 8 * len ∧ 8 * len ≤ x.cfg.maxLen.toNat
  | .p5 x => 8 * len = x.cfg.dataLen.toNat
  | .p6 x => x.cfg.minLen.toNat ≤ 8 * len ∧ 8 * len ≤ x.cfg.maxLen.toNat
  | .p11 x => 8 * len = x.cfg.dataLen.toNat
  | .p22 x => 8 * len = x.cfg.dataLen.toNat

/-- The byte range of a slot's header, or the bytes of the three fields of profile 11 (R69): the addresses a field of
the profile has a bit in. -/
def InFields (x : Slot) (a : Nat) : Prop :=
  match x with
  | .none => False
  | .p4 x => x.cfg.offset.toNat / 8 ≤ a ∧ a < x.cfg.offset.toNat / 8 + 12
  | .p4m x => x.cfg.offset.toNat / 8 ≤ a ∧ a < x.cfg.offset.toNat / 8 + 16
  | .p5 x => x.cfg.offset.toNat / 8 ≤ a ∧ a < x.cfg.offset.toNat / 8 + 3
  | .p6 x => x.cfg.offset.toNat / 8 ≤ a ∧ a < x.cfg.offset.toNat / 8 + 5
  | .p7 x => x.cfg.offset.toNat / 8 ≤ a ∧ a < x.cfg.offset.toNat / 8 + 20
  | .p7m x => x.cfg.offset.toNat / 8 ≤ a ∧ a < x.cfg.offset.toNat / 8 + 24
  | .p8 x => x.cfg.offset.toNat / 8 ≤ a ∧ a < x.cfg.offset.toNat / 8 + 16
  | .p11 x => a = x.cfg.crcOffset.toNat / 8 ∨ a = x.cfg.counterOffset.toNat / 8 ∨
      ∃ o, x.cfg.mode = .nibble o ∧ a = o.toNat / 8
  | .p22 x => x.cfg.offset.toNat / 8 ≤ a ∧ a < x.cfg.offset.toNat / 8 + 2

/-- The invariant of the block: the buffer memory is in its canonical form and holds existing addresses only, LEN is
legal (R26), the parameters are in their ranges (R8), STATUS and ERR hold codes of R120 and R121, and every slot
holds a validated configuration or nothing. -/
structure State.Inv (s : State) : Prop where
  bufWf : s.buf.wf = true
  bufBound : ∀ c ∈ s.buf, c.1 < s.bufBytes
  capacity : 1 ≤ s.bufBytes ∧ s.bufBytes ≤ 2 ^ 29 - 1
  lenLegal : s.len.toNat ≤ s.bufBytes
  slotCount : 1 ≤ s.slots.length ∧ s.slots.length ≤ 256
  statusLegal : s.status ≠ 7
  errLegal : s.err.toNat ≤ 7
  slotsOk : ∀ x ∈ s.slots, x.Ok

end Sys2Proof.Machine
end

