-- ==== Sys2Proof/Certificates/Slice0/Obligations.lean ====
section
/-! DEFINITION. The statements about the block, each formalising rules of spec/, and the few notions they speak of. -/

namespace Sys2Proof.Claims

open Sys2Proof.Machine

/-! ### The opcode map and the profile table, as the rules print them -/

/-- The OPC of a format N command (R93). -/
def IsOpcN (c : Nat) : Prop :=
  (0x10 ≤ c ∧ c ≤ 0x14) ∨ (0x20 ≤ c ∧ c ≤ 0x24) ∨ (0x28 ≤ c ∧ c ≤ 0x2C) ∨ (0x30 ≤ c ∧ c ≤ 0x33)

/-- The OPC of a format S command: 0x40, 0x50 or 0x60 plus a profile index 0..8 (R93). -/
def IsOpcS (c : Nat) : Prop := (0x40 ≤ c ∧ c ≤ 0x48) ∨ (0x50 ≤ c ∧ c ≤ 0x58) ∨ (0x60 ≤ c ∧ c ≤ 0x68)

/-- An illegal command word of a block with `n` slots (R95), on the number the word is. -/
def IsIllegal (n : Nat) (w : Word32) : Prop :=
  let opc := w.toNat / 2 ^ 24
  let slot := w.toNat / 2 ^ 16 % 2 ^ 8
  (¬IsOpcN opc ∧ ¬IsOpcS opc) ∨ w.toNat % 2 ^ 16 ≠ 0 ∨ (IsOpcN opc ∧ slot ≠ 0) ∨ (IsOpcS opc ∧ n ≤ slot)

/-- The word of the format N command `c` (R90, R93). -/
def HasWord (c : Instr) (opc : Nat) : Prop := (encode c).toNat = opc * 2 ^ 24

/-- The word of the format S command `c` on slot `i` (R90, R93). -/
def HasSlotWord (c : Nat → Instr) (opc : Nat) : Prop :=
  ∀ i, i < 256 → (encode (c i)).toNat = opc * 2 ^ 24 + i * 2 ^ 16

/-- Header size in bits, as each construct rule adds it to the offset (R252, R262, R282, R292, R312, R322, R332,
R372); profile 11 has no header. -/
def headerBits : Profile → Nat
  | .p4 => 96 | .p4m => 128 | .p5 => 24 | .p6 => 40 | .p7 => 160 | .p7m => 192 | .p8 => 128 | .p11 => 0 | .p22 => 16

/-- The profiles of fixed length (R211). -/
def FixedLength (p : Profile) : Prop := p = .p5 ∨ p = .p11 ∨ p = .p22

/-- The largest tolerance a construct accepts (R216). -/
def largestDelta : Profile → Nat
  | .p4 => 1048574 | .p4m => 1048574 | .p5 => 254 | .p6 => 254 | .p7 => 4294967294 | .p7m => 4294967294
  | .p8 => 4294967294 | .p11 => 14 | .p22 => 15

/-! ### The four groups of construct checks (R212): when a group is violated -/

/-- Group 1, alignment (R213). -/
def BadAlignment (p : Profile) (g : Staging) : Prop :=
  if p = .p11 then
    g.crcOffset.toNat % 8 ≠ 0 ∨ g.counterOffset.toNat % 4 ≠ 0 ∨ (g.mode = 1 ∧ g.nibbleOffset.toNat % 4 ≠ 0)
  else g.offset.toNat % 8 ≠ 0

/-- The data length every field has to fit in: `DL` of R214 (e). -/
def dataBits (p : Profile) (g : Staging) : Nat :=
  match p with
  | .p5 | .p11 | .p22 => g.dataLen.toNat
  | _ => g.minLen.toNat

/-- Group 2, ranges (R214 (a) to (e)). -/
def BadRange (p : Profile) (g : Staging) : Prop :=
  ((p = .p5 ∨ p = .p6 ∨ p = .p11) ∧ 65536 ≤ g.dataId.toNat) ∨
  (FixedLength p ∧ g.dataLen.toNat % 8 ≠ 0) ∨
  (p = .p11 ∧ 240 < g.dataLen.toNat) ∨
  (¬FixedLength p ∧ (g.minLen.toNat % 8 ≠ 0 ∨ g.maxLen.toNat % 8 ≠ 0 ∨ g.maxLen.toNat < g.minLen.toNat)) ∨
  ((p = .p4 ∨ p = .p4m ∨ p = .p6) ∧ 8 * 0xFFFF < g.maxLen.toNat) ∨
  (if p = .p11 then
    dataBits p g < g.crcOffset.toNat + 8 ∨ dataBits p g < g.counterOffset.toNat + 4 ∨
      (g.mode = 1 ∧ dataBits p g < g.nibbleOffset.toNat + 4)
  else dataBits p g < g.offset.toNat + headerBits p)

/-- Two bit intervals share a bit (R215). -/
def Overlap (a n b m : Nat) : Prop := ∃ x, a ≤ x ∧ x < a + n ∧ b ≤ x ∧ x < b + m

/-- Group 3, overlap; profile 11 only (R215). -/
def BadOverlap (p : Profile) (g : Staging) : Prop :=
  p = .p11 ∧ (Overlap g.crcOffset.toNat 8 g.counterOffset.toNat 4 ∨
    (g.mode = 1 ∧ (Overlap g.crcOffset.toNat 8 g.nibbleOffset.toNat 4 ∨
      Overlap g.counterOffset.toNat 4 g.nibbleOffset.toNat 4)))

/-- Group 4, the tolerance (R216). -/
def BadDelta (p : Profile) (g : Staging) : Prop := g.maxDelta.toNat < 1 ∨ largestDelta p < g.maxDelta.toNat

/-- The fresh instance a construct makes: the staging registers of R34's table, `tx_counter` 0, `rx_counter` without
a value (R34, R217). -/
def freshSlot (p : Profile) (g : Staging) : Slot :=
  let v32 : VarCfg 32 := ⟨g.offset, g.dataId, g.minLen, g.maxLen, g.maxDelta⟩
  let v16 : VarCfg 16 := ⟨g.offset, g.dataId.setWidth 16, g.minLen, g.maxLen, g.maxDelta⟩
  match p with
  | .p4 => .p4 ⟨v32, 0, none⟩
  | .p4m => .p4m ⟨⟨v32, g.metaWord⟩, 0, none⟩
  | .p5 => .p5 ⟨⟨g.offset, g.dataId.setWidth 16, g.dataLen, g.maxDelta⟩, 0, none⟩
  | .p6 => .p6 ⟨v16, 0, none⟩
  | .p7 => .p7 ⟨v32, 0, none⟩
  | .p7m => .p7m ⟨⟨v32, g.metaWord⟩, 0, none⟩
  | .p8 => .p8 ⟨v32, 0, none⟩
  | .p11 =>
    .p11 ⟨⟨if g.mode = 1 then .nibble g.nibbleOffset else .both, g.crcOffset, g.counterOffset, g.dataId.setWidth 16,
      g.dataLen, g.maxDelta⟩, 0, none⟩
  | .p22 => .p22 ⟨⟨g.offset, g.idList, g.dataLen, g.maxDelta⟩, 0, none⟩

/-! ### Nibbles of a message -/

/-- A message with the nibble at bit offset `o` replaced by `v` (R162). -/
def putNibble (bs : List Byte) (o v : Nat) : List Byte :=
  let b := (byteOf bs (o / 8)).toNat
  bs.set (o / 8) (BitVec.ofNat 8 (if o % 8 = 0 then b / 16 * 16 + v else v * 16 + b % 16))

/-- The nibble at bit offset `o` of a message (R162). -/
def getNibble (bs : List Byte) (o : Nat) : Nat :=
  if o % 8 = 0 then (byteOf bs (o / 8)).toNat % 16 else (byteOf bs (o / 8)).toNat / 16

/-! ### Slots -/

/-- Two slots hold instances of one profile with the same configuration. -/
def SameCfg (x y : Slot) : Prop :=
  match x, y with
  | .p4 x, .p4 y => x.cfg = y.cfg
  | .p4m x, .p4m y => x.cfg = y.cfg
  | .p5 x, .p5 y => x.cfg = y.cfg
  | .p6 x, .p6 y => x.cfg = y.cfg
  | .p7 x, .p7 y => x.cfg = y.cfg
  | .p7m x, .p7m y => x.cfg = y.cfg
  | .p8 x, .p8 y => x.cfg = y.cfg
  | .p11 x, .p11 y => x.cfg = y.cfg
  | .p22 x, .p22 y => x.cfg = y.cfg
  | _, _ => False

/-- The slot of a profile that stores a 32-bit Data ID, with another Data ID (R211, R233). -/
def withOtherId : Slot → Word32 → Slot
  | .p4 x, d => .p4 { x with cfg := { x.cfg with dataId := d } }
  | .p4m x, d => .p4m { x with cfg := { x.cfg with dataId := d } }
  | .p7 x, d => .p7 { x with cfg := { x.cfg with dataId := d } }
  | .p7m x, d => .p7m { x with cfg := { x.cfg with dataId := d } }
  | .p8 x, d => .p8 { x with cfg := { x.cfg with dataId := d } }
  | x, _ => x

/-- The Counter field of a message, where an instance has it (R251, R261, R281, R291, R311, R321, R331, R351, R371). -/
def counterField : Slot → List Byte → Nat
  | .none, _ => 0
  | .p4 x, bs => field bs (x.cfg.offset.toNat / 8 + 2) 2
  | .p4m x, bs => field bs (x.cfg.offset.toNat / 8 + 2) 2
  | .p5 x, bs => field bs (x.cfg.offset.toNat / 8 + 2) 1
  | .p6 x, bs => field bs (x.cfg.offset.toNat / 8 + 4) 1
  | .p7 x, bs => field bs (x.cfg.offset.toNat / 8 + 12) 4
  | .p7m x, bs => field bs (x.cfg.offset.toNat / 8 + 12) 4
  | .p8 x, bs => field bs (x.cfg.offset.toNat / 8 + 8) 4
  | .p11 x, bs => getNibble bs x.cfg.counterOffset.toNat
  | .p22 x, bs => getNibble bs (x.cfg.offset.toNat + 8)

/-- The byte address and the size of the Length field of an instance, for the profiles that have one (R110, R111, R113
to R116, R211). -/
def lengthField : Slot → Option (Nat × Nat)
  | .p4 x => some (x.cfg.offset.toNat / 8, 2)
  | .p4m x => some (x.cfg.offset.toNat / 8, 2)
  | .p6 x => some (x.cfg.offset.toNat / 8 + 2, 2)
  | .p7 x => some (x.cfg.offset.toNat / 8 + 8, 4)
  | .p7m x => some (x.cfg.offset.toNat / 8 + 8, 4)
  | .p8 x => some (x.cfg.offset.toNat / 8 + 4, 4)
  | .none | .p5 _ | .p11 _ | .p22 _ => none

/-- The first byte of the CRC field of an instance and the address after its last (R69). -/
def crcRange : Slot → Nat × Nat
  | .none => (0, 0)
  | .p4 x => (x.cfg.offset.toNat / 8 + 8, x.cfg.offset.toNat / 8 + 12)
  | .p4m x => (x.cfg.offset.toNat / 8 + 12, x.cfg.offset.toNat / 8 + 16)
  | .p5 x => (x.cfg.offset.toNat / 8, x.cfg.offset.toNat / 8 + 2)
  | .p6 x => (x.cfg.offset.toNat / 8, x.cfg.offset.toNat / 8 + 2)
  | .p7 x => (x.cfg.offset.toNat / 8, x.cfg.offset.toNat / 8 + 8)
  | .p7m x => (x.cfg.offset.toNat / 8, x.cfg.offset.toNat / 8 + 8)
  | .p8 x => (x.cfg.offset.toNat / 8, x.cfg.offset.toNat / 8 + 4)
  | .p11 x => (x.cfg.crcOffset.toNat / 8, x.cfg.crcOffset.toNat / 8 + 1)
  | .p22 x => (x.cfg.offset.toNat / 8, x.cfg.offset.toNat / 8 + 1)

/-! ### Commands by what they may write -/

/-- The commands that write buffer bytes: `WR*` and `PROTECT.*` (R30). -/
def WritesBuffer (i : Instr) : Prop :=
  i = .wr8 ∨ i = .wr16 ∨ i = .wr32 ∨ i = .wr64 ∨ i = .wrnib ∨ ∃ p k, i = protectOf p k

/-- The commands that write STATUS: `CHECK.*` and `CVAL*` (R23). -/
def WritesStatus (i : Instr) : Prop :=
  i = .cval4 ∨ i = .cval8 ∨ i = .cval16 ∨ i = .cval32 ∨ ∃ p k, i = checkOf p k

/-- The commands that write RES1: `CVAL*` (R92). -/
def WritesRes1 (i : Instr) : Prop := i = .cval4 ∨ i = .cval8 ∨ i = .cval16 ∨ i = .cval32

/-- The commands that write RES0: `CRC*.CALC`, `RD*`, `CVAL*` (R92). -/
def WritesRes0 (i : Instr) : Prop :=
  i = .crc8jCalc ∨ i = .crc8h2fCalc ∨ i = .crc16Calc ∨ i = .crc32p4Calc ∨ i = .crc64Calc ∨
  i = .rd8 ∨ i = .rd16 ∨ i = .rd32 ∨ i = .rd64 ∨ i = .rdnib ∨ WritesRes1 i

/-! ### Messages -/

/-- Command `c` on slot `i` turns the message of `s` into `bs'` and the slot into `x'`; it stores to the addresses
`stored` only, sets ERR to NoError and changes nothing else. -/
def StampsTo (c : Instr) (i : Nat) (s : State) (x' : Slot) (bs' : List Byte) (stored : Nat → Prop) : Prop :=
  ∃ m, exec c s = .next (((s.setBuf m).setSlot i x').setErr 0) ∧ Message (s.setBuf m) bs' ∧
    ∀ a, ¬stored a → m.get? a = s.buf.get? a

/-- A check that ends with a finding: STATUS holds its code, ERR is NoError, and nothing else has changed (R120,
R232). -/
def concluded (s : State) (code : BitVec 3) : State := (s.setStatus code).setErr 0

/-- A check whose counter stage receives `r`, on the instance `x` in slot `i` (R36, R120, R191 to R193, R232). The
first reception, a distance of 1 and a distance up to `delta` are accepted with Ok, Ok and OkSomeLost, and
`rx_counter` becomes `r`; a distance of 0 is Repeated, a longer one WrongSequence, and both leave the slot as it is.
-/
def counted {C : Type} {w : Nat} (delta : Nat) (put : Inst C w → Slot) (x : Inst C w) (i r : Nat) (s : State) : State :=
  let accepted := s.setSlot i (put { x with rx := some (BitVec.ofNat w r) })
  match x.rx with
  | none => concluded accepted 0
  | some p =>
    let d := (r + 2 ^ w - p.toNat) % 2 ^ w
    if d = 0 then concluded s 2
    else if d = 1 then concluded accepted 0
    else if d ≤ delta then concluded accepted 1
    else concluded s 3

/-- One step of the reflected form of R132: the bit that leaves at the low end decides whether RPoly is added. -/
def reflectedShift {w : Nat} (rpoly : BitVec w) (r : BitVec w) : BitVec w :=
  if r.getLsbD 0 then (r >>> 1) ^^^ rpoly else r >>> 1

/-- The loop of R132. -/
def reflectedFeed {w : Nat} (rpoly : BitVec w) (r : BitVec w) (bs : List Byte) : BitVec w :=
  bs.foldl (fun r b => repeatTimes (reflectedShift rpoly) 8 (r ^^^ b.setWidth w)) r

/-- Two byte sequences of one length, added byte by byte. -/
def xorBytes (s t : List Byte) : List Byte := List.zipWith (· ^^^ ·) s t

/-- A message with one bit flipped: bit `k` of byte `a`. -/
def flipBit (bs : List Byte) (a k : Nat) : List Byte := bs.set a (byteOf bs a ^^^ (1#8 <<< k))

/-- The CRC command `c` of engine `e` completes with the CRC of its range (R134). -/
def CrcCompletes {w : Nat} (c : Instr) (e : Engine w) : Prop :=
  ∀ s bs, s.arg0.toNat < 2 ^ 32 → s.arg1.toNat < 2 ^ 32 → s.arg2.toNat < 2 ^ w →
    s.arg0.toNat + s.arg1.toNat ≤ s.len.toNat → bs.length = s.arg1.toNat → Holds s s.arg0.toNat bs →
    exec c s = .next ((s.setRes0 (BitVec.ofNat 64 (crcFrom e bs (BitVec.ofNat w s.arg2.toNat)).toNat)).setErr 0)

/-- The five parameters of an engine (R130). -/
def HasParameters {w : Nat} (e : Engine w) (poly init : BitVec w) (reflected : Bool) (xorOut : BitVec w) : Prop :=
  e.poly = poly ∧ e.init = init ∧ e.refIn = reflected ∧ e.refOut = reflected ∧ e.xorOut = xorOut

/-- The CRC command `c` of width `w` ends with the errors of R134, in their order, and nothing but ERR changes. -/
def CrcErrors (c : Instr) (w : Nat) : Prop :=
  ∀ s, (2 ^ 32 ≤ s.arg0.toNat ∨ 2 ^ 32 ≤ s.arg1.toNat ∨ 2 ^ w ≤ s.arg2.toNat → exec c s = .next (s.setErr 1)) ∧
    (s.arg0.toNat < 2 ^ 32 → s.arg1.toNat < 2 ^ 32 → s.arg2.toNat < 2 ^ w →
      s.len.toNat < s.arg0.toNat + s.arg1.toNat → exec c s = .next (s.setErr 5))

/-- The read command `c` of an `n`-byte field completes with the field, the byte at the lowest address the most
significant (R60, R166 to R169). -/
def ReadCompletes (c : Instr) (n : Nat) : Prop :=
  ∀ s bs, s.arg0.toNat < 2 ^ 32 → s.arg0.toNat % 8 = 0 → s.arg0.toNat / 8 + n ≤ s.len.toNat → bs.length = n →
    Holds s (s.arg0.toNat / 8) bs → exec c s = .next ((s.setRes0 (BitVec.ofNat 64 (beValue bs))).setErr 0)

/-- The write command `c` of an `n`-byte field stores ARG1, most significant byte first, and changes no other byte and
nothing else but ERR (R161, R171 to R174). -/
def WriteCompletes (c : Instr) (n : Nat) : Prop :=
  ∀ s, s.len.toNat ≤ s.bufBytes → s.arg0.toNat < 2 ^ 32 → s.arg1.toNat < 2 ^ (8 * n) → s.arg0.toNat % 8 = 0 →
    s.arg0.toNat / 8 + n ≤ s.len.toNat →
    ∃ m, exec c s = .next ((s.setBuf m).setErr 0) ∧
      (∀ k, k < n → m.get? (s.arg0.toNat / 8 + k) = some (BitVec.ofNat 8 (s.arg1.toNat / 256 ^ (n - 1 - k) % 256))) ∧
      ∀ a, a < s.arg0.toNat / 8 ∨ s.arg0.toNat / 8 + n ≤ a → m.get? a = s.buf.get? a

/-- The codec command `c` with a field of `bits` bits, offsets multiples of `align`, and a value operand of `width`
bits (0: none) ends with the errors of R165, in their order, and nothing but ERR changes. -/
def CodecErrors (c : Instr) (bits align width : Nat) : Prop :=
  ∀ s, (2 ^ 32 ≤ s.arg0.toNat ∨ (width ≠ 0 ∧ 2 ^ width ≤ s.arg1.toNat) → exec c s = .next (s.setErr 1)) ∧
    (s.arg0.toNat < 2 ^ 32 → (width = 0 ∨ s.arg1.toNat < 2 ^ width) → s.arg0.toNat % align ≠ 0 →
      exec c s = .next (s.setErr 2)) ∧
    (s.arg0.toNat < 2 ^ 32 → (width = 0 ∨ s.arg1.toNat < 2 ^ width) → s.arg0.toNat % align = 0 →
      8 * s.len.toNat < s.arg0.toNat + bits → exec c s = .next (s.setErr 5))

/-- The write command `c` and the read command `d` of one width: a read after a completed write at the same offset
gives the written value (R176 (a)). -/
def ReadsBack (c d : Instr) : Prop :=
  ∀ s t, exec c s = .next t → t.err = 0 → ∃ u, exec d t = .next u ∧ u.res0 = s.arg1 ∧ u.err = 0

/-- The read command `c` is two of the read command `d`, whose result has `bits` bits: the more significant at `hi`
bits above the offset, the other at `lo` bits above it. Where `c` completes both complete, and the result is theirs
(R176 (c), (d)), in a state that meets the invariant, whose offsets all fit 32 bits (R8). -/
def IsTwoReads (c d : Instr) (bits hi lo : Nat) : Prop :=
  ∀ s t, s.Inv → exec c s = .next t → t.err = 0 →
    ∃ u v, exec d { s with arg0 := s.arg0 + BitVec.ofNat 64 hi } = .next u ∧ u.err = 0 ∧
      exec d { s with arg0 := s.arg0 + BitVec.ofNat 64 lo } = .next v ∧ v.err = 0 ∧
      t.res0.toNat = 2 ^ bits * u.res0.toNat + v.res0.toNat

/-- The message the protect `c` makes is found to be CrcError by the check `d` that follows. -/
def ReportsCrcError (c d : Instr) (s : State) : Prop :=
  ∃ t u, exec c s = .next t ∧ t.err = 0 ∧ exec d t = .next u ∧ u.err = 0 ∧ u.status = 4

/-- The validator command `c` of width `w` completes with the classification of its operands (R195). -/
def CvalCompletes (c : Instr) (w : Nat) : Prop :=
  ∀ s, s.arg1.toNat < 2 ^ w → s.arg2.toNat < 2 ^ 32 →
    (s.arg3 = 0 → exec c s = .next ((((s.setStatus 0).setRes0 s.arg1).setRes1 1).setErr 0)) ∧
    (s.arg3 = 1 → s.arg0.toNat < 2 ^ w → ∀ d, d < 2 ^ w → (s.arg0.toNat + d) % 2 ^ w = s.arg1.toNat →
      exec c s = .next ((((s.setStatus
        (if d = 0 then 2 else if d = 1 then 0 else if d ≤ s.arg2.toNat then 1 else 3)).setRes0
        (if d = 0 ∨ (d ≠ 1 ∧ s.arg2.toNat < d) then s.arg0 else s.arg1)).setRes1 1).setErr 0))

/-- The validator command `c` of width `w` refuses operands that do not fit (R195). -/
def CvalErrors (c : Instr) (w : Nat) : Prop :=
  ∀ s, 2 ^ w ≤ s.arg1.toNat ∨ 2 ^ 32 ≤ s.arg2.toNat ∨ 2 ≤ s.arg3.toNat ∨ (s.arg3 = 1 ∧ 2 ^ w ≤ s.arg0.toNat) →
    exec c s = .next (s.setErr 1)

/-- The errors of `PROTECT.<p>`: a slot of another kind, then a LEN the length test refuses (R220, R221). -/
def ProtectErrors (p : Profile) : Prop :=
  ∀ i s x, s.slots[i]? = some x → (x.kind ≠ some p → exec (protectOf p i) s = .next (s.setErr 7)) ∧
    (x.kind = some p → ¬LenOk x s.len.toNat → exec (protectOf p i) s = .next (s.setErr 5))

/-- The error of `CHECK.<p>`: a slot of another kind (R220). -/
def CheckErrors (p : Profile) : Prop :=
  ∀ i s x, s.slots[i]? = some x → x.kind ≠ some p → exec (checkOf p i) s = .next (s.setErr 7)

/-- The DataLengthError findings of `CHECK.<p>`, whatever bytes hold a value: where the length test fails no byte is
read, and where the Length field is not LEN no byte but the field's (R230, R445). -/
def CheckLengthFindings (p : Profile) : Prop :=
  ∀ i s x, s.slots[i]? = some x → x.kind = some p →
    (¬LenOk x s.len.toNat → exec (checkOf p i) s = .next (concluded s 6)) ∧
    ∀ a n bs, lengthField x = some (a, n) → LenOk x s.len.toNat → bs.length = n → Holds s a bs →
      beValue bs ≠ s.len.toNat → exec (checkOf p i) s = .next (concluded s 6)

end Sys2Proof.Claims

open Sys2Proof Sys2Proof.Machine Sys2Proof.Claims

/-! ### Encoding -/

/-- R90, R91, R93: the word of a command decodes to the command, for every command and every slot index the SLOT field
can hold. -/
def Obligations.DecodeEncodeRoundTrip : Prop := ∀ i, WellFormed i → decode (encode i) = .ok i

/-- R93, R95, R96: a word that decodes to a command is that command's word: no two words mean one command, and no bit
is dropped. -/
def Obligations.EncodeDecodeRoundTrip : Prop := ∀ w i, decode w = .ok i → WellFormed i ∧ encode i = w

/-- R95: a write of an illegal word sets ERR to IllegalCommand (6) and changes nothing else; a word that is not illegal
decodes to a command whose slot exists. -/
def Obligations.IllegalWordsOnlyRaise : Prop :=
  ∀ s w rest, s.host = .writeCmd w :: rest →
    (IsIllegal s.slots.length w → step s = .next ((s.setHost rest).setErr 6)) ∧
    (¬IsIllegal s.slots.length w → ∃ i, decode w = .ok i ∧ ∀ k, i.slot? = some k → k < s.slots.length)

/-- R93: words written out from the opcode map, one of each family, decode to their commands. -/
def Obligations.SampleWordsDecode : Prop :=
  decode 0x11000000#32 = .ok .crc8h2fCalc ∧ decode 0x23000000#32 = .ok .rd64 ∧ decode 0x2C000000#32 = .ok .wrnib ∧
  decode 0x32000000#32 = .ok .cval16 ∧ decode 0x47030000#32 = .ok (.constructP11 3) ∧
  decode 0x58FF0000#32 = .ok (.protectP22 255) ∧ decode 0x65010000#32 = .ok (.checkP7M 1)

/-- R27, R71, R425: a step performs the command whose word the host writes to CMD, and does nothing where the host does
nothing. That the host's actions to come stand in the state as the list `host`, and that `withFetchWord` puts a write of
CMD before them, is the model's choice (log 7). -/
def Obligations.StepRunsDecodedCommand : Prop :=
  (∀ s w rest i, s.host = .writeCmd w :: rest → decode w = .ok i → step s = exec i (s.setHost rest)) ∧
  (∀ s i, WellFormed i → step (s.withFetchWord 32 (encode i).toNat) = exec i s) ∧
  (∀ s, s.host = [] → step s = .next s)

/-! ### The host's own actions and reset -/

/-- R21, R26, R28, R30, R97: what a host write leaves in the register or buffer byte it names; everything else is
unchanged. -/
def Obligations.HostWritesTakeEffect : Prop :=
  (∀ s k v rest, s.host = .setArg k v :: rest → ∃ t, step s = .next t ∧
    t.arg0 = (if k = 0 then v else s.arg0) ∧ t.arg1 = (if k = 1 then v else s.arg1) ∧
    t.arg2 = (if k = 2 then v else s.arg2) ∧ t.arg3 = (if k = 3 then v else s.arg3) ∧
    { t with arg0 := s.arg0, arg1 := s.arg1, arg2 := s.arg2, arg3 := s.arg3 } = s.setHost rest) ∧
  (∀ s n rest, s.host = .setLen n :: rest → n.toNat ≤ s.bufBytes → step s = .next ((s.setHost rest).setLen n)) ∧
  (∀ s a b rest, s.host = .poke a b :: rest → a < s.bufBytes → ∃ m, step s = .next ((s.setHost rest).setBuf m) ∧
    m.get? a = some b ∧ ∀ x, x ≠ a → m.get? x = s.buf.get? x) ∧
  (∀ s bs rest, s.host = .buf bs :: rest → bs.length ≤ s.bufBytes → bs.length < 2 ^ 32 → ∃ t, step s = .next t ∧
    Message t bs ∧ (∀ x, bs.length ≤ x → t.buf.get? x = s.buf.get? x) ∧
    (t.setBuf s.buf).setLen s.len = s.setHost rest) ∧
  (∀ s r v rest, s.host = .setCfg r v :: rest → ∃ g, step s = .next ((s.setHost rest).setStaging g) ∧
    g.offset = (if r = .offset then v else s.staging.offset) ∧
    g.dataId = (if r = .dataId then v else s.staging.dataId) ∧
    g.metaWord = (if r = .metaWord then v else s.staging.metaWord) ∧
    g.dataLen = (if r = .dataLen then v else s.staging.dataLen) ∧
    g.minLen = (if r = .minLen then v else s.staging.minLen) ∧
    g.maxLen = (if r = .maxLen then v else s.staging.maxLen) ∧
    g.maxDelta = (if r = .maxDelta then v else s.staging.maxDelta) ∧
    g.crcOffset = (if r = .crcOffset then v else s.staging.crcOffset) ∧
    g.counterOffset = (if r = .counterOffset then v else s.staging.counterOffset) ∧
    g.nibbleOffset = (if r = .nibbleOffset then v else s.staging.nibbleOffset) ∧
    g.mode = s.staging.mode ∧ g.idList = s.staging.idList) ∧
  (∀ s v rest, s.host = .setCfgMode v :: rest →
    step s = .next ((s.setHost rest).setStaging { s.staging with mode := v })) ∧
  (∀ s k v rest, s.host = .setIdList k v :: rest → ∃ t, step s = .next t ∧
    (∀ j : Fin 16, t.staging.idList[j] = if j = k then v else s.staging.idList[j]) ∧
    t.setStaging { t.staging with idList := s.staging.idList } = s.setHost rest)

/-- R22, R26, R27, R97, spec/93 U6: the host actions without a meaning are refused by name, as log 10 says: a LEN above
BUF_BYTES, also by a `buf` line of more than BUF_BYTES bytes, a write to a register the host may only read, a read of
CMD. -/
def Obligations.HostActionsRefused : Prop :=
  (∀ s n rest, s.host = .setLen n :: rest → s.bufBytes < n.toNat → step s = .refused .lenBeyondBuffer) ∧
  (∀ s bs rest, s.host = .buf bs :: rest → s.bufBytes < bs.length → step s = .refused .lenBeyondBuffer) ∧
  (∀ s r rest, s.host = .writeOut r :: rest → step s = .refused (.writeNotProvided r)) ∧
  (∀ s rest, s.host = .readCmd :: rest → step s = .refused .readNotProvided)

/-- R42, R440: block reset, from any state, empties every slot, sets ERR and LEN to 0 and takes the value from every
buffer byte; the machine keeps its parameters (log 8). `State.reset` is such a state for parameters in the ranges of
R8. -/
def Obligations.BlockResetValues : Prop :=
  (∀ s rest, s.host = .blockReset :: rest → ∃ t, step s = .next t ∧ t.slots.length = s.slots.length ∧
    (∀ x ∈ t.slots, x.kind = none) ∧ t.err = 0 ∧ t.len = 0 ∧ (∀ a, t.buf.get? a = none) ∧ t.bufBytes = s.bufBytes ∧
    t.host = rest) ∧
  (∀ x ∈ State.reset.slots, x.kind = none) ∧ State.reset.err = 0 ∧ State.reset.len = 0 ∧
  (∀ a, State.reset.buf.get? a = none) ∧ 1 ≤ State.reset.slots.length ∧ State.reset.slots.length ≤ 256 ∧
  1 ≤ State.reset.bufBytes ∧ State.reset.bufBytes ≤ 2 ^ 29 - 1

/-- The model's choice, not the spec's (log 1 to 4): after reset ARG*, RES*, STATUS and CFG_* hold 0. -/
def Obligations.ResetRegistersChosenZero : Prop :=
  State.reset.arg0 = 0 ∧ State.reset.arg1 = 0 ∧ State.reset.arg2 = 0 ∧ State.reset.arg3 = 0 ∧ State.reset.res0 = 0 ∧
  State.reset.res1 = 0 ∧ State.reset.status = 0 ∧
  (∀ j : Fin 16, State.reset.staging.idList[j] = 0) ∧
  { State.reset.staging with idList := Vector.replicate 16 0 } =
    (⟨0, 0, 0, 0, 0, 0, 0, 0, 0, 0, 0, Vector.replicate 16 0⟩ : Staging)

/-! ### Invariants and rules of the whole machine -/

/-- R42, R440: the state after reset meets the invariant. The clause that STATUS holds a legal code rests on the model's
choice of 0 for it (log 3), and the ranges of N_INST and BUF_BYTES are those of R8, which the free constants of log 6
keep. -/
def Obligations.ResetSatisfiesInvariant : Prop := State.reset.Inv

/-- R8, R26, R30, R33, R120, R121: every step keeps the invariant: canonical buffer memory below BUF_BYTES, legal LEN,
legal codes in STATUS and ERR, validated configurations in the slots. -/
def Obligations.StepKeepsInvariant : Prop := ∀ s t, s.Inv → step s = .next t → t.Inv

/-- R219, R411: in a state that meets the invariant, with every byte of the message holding a value, every command
answers a next state. That it does so also where the host has never written ARG* or CFG_* is the model's choice: they
hold 0 at reset (logs 1 and 4), where R43 leaves such a command outside the model. -/
def Obligations.CommandsAlwaysAnswer : Prop := ∀ s bs i, s.Inv → Message s bs → ∃ t, exec i s = .next t

/-- R219, and the part of R43 and R445 that is about buffer bytes: in a state that meets the invariant a command never
faults, and where it is refused, the reason is a byte of the message that holds no value. That a register without a
value is no such reason departs from R43 and R445: every register of the model holds a value (logs 1 and 4). The fault
is the model's own, for addresses that do not exist (log 11). -/
def Obligations.CommandsStopOnlyOnMissingBytes : Prop :=
  ∀ s i, s.Inv → (∀ f, exec i s ≠ .fault f) ∧
    ∀ r, exec i s = .refused r → ∃ a, r = .byteWithoutValue a ∧ a < s.len.toNat ∧ s.buf.get? a = none

/-- R404: a command that ends with an error has changed ERR and nothing else. -/
def Obligations.ErrorsChangeOnlyErr : Prop := ∀ i s t, exec i s = .next t → t.err ≠ 0 → t = s.setErr t.err

/-- R21, R26, R28, R41: no command writes ARG*, LEN, CFG_*, or the parameters. -/
def Obligations.CommandsKeepHostRegisters : Prop :=
  ∀ i s t, exec i s = .next t → t.arg0 = s.arg0 ∧ t.arg1 = s.arg1 ∧ t.arg2 = s.arg2 ∧ t.arg3 = s.arg3 ∧
    t.len = s.len ∧ t.staging = s.staging ∧ t.bufBytes = s.bufBytes ∧ t.slots.length = s.slots.length ∧ t.host = s.host

/-- R23: STATUS is written by the checks and the validator commands that complete, with one of the seven codes, and by
nothing else. -/
def Obligations.StatusWrittenByChecksAndValidator : Prop :=
  ∀ i s t, exec i s = .next t → (¬WritesStatus i ∨ t.err ≠ 0 → t.status = s.status) ∧
    (WritesStatus i → t.err = 0 → ∃ st : Status, t.status = st.code)

/-- R22, R92: RES0 is written by the CRC, read and validator commands only, RES1 by the validator commands only, and
neither by a command that ends with an error. -/
def Obligations.ResultRegistersFrame : Prop :=
  ∀ i s t, exec i s = .next t → (¬WritesRes0 i ∨ t.err ≠ 0 → t.res0 = s.res0) ∧
    (¬WritesRes1 i ∨ t.err ≠ 0 → t.res1 = s.res1)

/-- R23, R24, R405: ERR and STATUS are read by no command: with another ERR a command answers the same; with another
STATUS a check or validator command that completes answers the same, STATUS included, and every other command, and one
that ends with an error, answers the same with the other STATUS kept. -/
def Obligations.ErrAndStatusReadByNoCommand : Prop :=
  ∀ i s t, exec i s = .next t → (∀ e, exec i (s.setErr e) = .next t) ∧
    ∀ v, (WritesStatus i → t.err = 0 → exec i (s.setStatus v) = .next t) ∧
      (¬WritesStatus i ∨ t.err ≠ 0 → exec i (s.setStatus v) = .next (t.setStatus v))

/-- R32, R423: a command leaves every slot but its own as it was, and does not read them: with another content in such a
slot it answers the same. -/
def Obligations.OtherSlotsUntouchedAndUnread : Prop :=
  ∀ i s t j, exec i s = .next t → i.slot? ≠ some j → t.slots[j]? = s.slots[j]? ∧
    ∀ x, exec i (s.setSlot j x) = .next (t.setSlot j x)

/-- R30: only `WR*` and `PROTECT.*` change a buffer byte, and no command changes one at or above LEN. -/
def Obligations.BufferFrame : Prop :=
  (∀ i s t, exec i s = .next t → ¬WritesBuffer i → t.buf = s.buf) ∧
  (∀ i s t a, s.Inv → exec i s = .next t → s.len.toNat ≤ a → t.buf.get? a = s.buf.get? a)

/-- R30, R422: no command reads a byte at or above LEN: with another buffer that agrees below LEN it answers alike in
every register and slot, and the buffers agree below LEN again. -/
def Obligations.BytesBeyondLenUnread : Prop :=
  ∀ i s t m, s.Inv → (∀ a, a < s.len.toNat → m.get? a = s.buf.get? a) → exec i s = .next t →
    ∃ t', exec i (s.setBuf m) = .next t' ∧ t'.setBuf t.buf = t ∧
      ∀ a, t'.buf.get? a = if a < s.len.toNat then t.buf.get? a else m.get? a

/-- R35: `CONSTRUCT.*` that completes sets `tx_counter` to 0, `PROTECT.*` that completes adds 1 modulo `2^w`, and every
other command, and every command that ends with an error, leaves it. -/
def Obligations.TxCounterRule : Prop :=
  ∀ i s t k, exec i s = .next t →
    (∀ p, i = constructOf p k → t.err = 0 → (t.slots[k]?).bind txOf = some 0) ∧
    (∀ p, i = protectOf p k → t.err = 0 →
      (t.slots[k]?).bind txOf = ((s.slots[k]?).bind txOf).map fun c => (c + 1) % 2 ^ counterWidth p) ∧
    ((∀ p, i ≠ constructOf p k ∧ i ≠ protectOf p k) ∨ t.err ≠ 0 → (t.slots[k]?).bind txOf = (s.slots[k]?).bind txOf)

/-- R36, R37, R193, R232: `rx_counter` and `rx_initialized` are cleared by a construct that completes and changed
otherwise only by a check that ends in Ok or OkSomeLost; a check that ends in Ok, OkSomeLost, Repeated or WrongSequence
leaves the receiver initialised; on a message, one that ends in Ok or OkSomeLost makes `rx_counter` the Counter field.
-/
def Obligations.ReceiverRule : Prop :=
  ∀ i s t k, exec i s = .next t →
    (∀ p, i = constructOf p k → t.err = 0 → (t.slots[k]?).bind rxOf = none) ∧
    (∀ p, i = checkOf p k → t.err = 0 → t.status.toNat ≤ 3 → ((t.slots[k]?).bind rxOf).isSome = true) ∧
    (∀ p bs x, i = checkOf p k → s.Inv → Message s bs → s.slots[k]? = some x → t.err = 0 → t.status.toNat ≤ 1 →
      (t.slots[k]?).bind rxOf = some (counterField x bs)) ∧
    ((∀ p, i ≠ constructOf p k ∧ ¬(i = checkOf p k ∧ t.status.toNat ≤ 1)) ∨ t.err ≠ 0 →
      (t.slots[k]?).bind rxOf = (s.slots[k]?).bind rxOf)

/-- R192, R232: on a receiver without a previous counter a check never reports OkSomeLost, Repeated or WrongSequence,
and the one that reports Ok initialises it. -/
def Obligations.FirstReceptionIsOk : Prop :=
  ∀ p i s t x, s.slots[i]? = some x → x.kind = some p → rxOf x = none → exec (checkOf p i) s = .next t →
    (t.status = 0 ∧ ((t.slots[i]?).bind rxOf).isSome = true) ∨ (4 ≤ t.status.toNat ∧ t.slots = s.slots)

/-! ### CRC generators -/

/-- R131, spec/95 V-CRC-11: the values of the five engines on the nine bytes of "123456789". -/
def Obligations.CrcCheckValues : Prop :=
  let m : List Byte := [0x31, 0x32, 0x33, 0x34, 0x35, 0x36, 0x37, 0x38, 0x39]
  crcOf crc8j m = 0x4B ∧ crcOf crc8h2f m = 0xDF ∧ crcOf crc16 m = 0x29B1 ∧ crcOf crc32p4 m = 0x1697D06A ∧
  crcOf crc64 m = 0x995DC9BBDF1939FA

/-- R133, which the spec marks as derived from R131: feeding a concatenation is feeding its parts one after the other,
and the CRC of a concatenation is the CRC of the second part started from the register after the first, which is
the first part's CRC with XorOut, and the reflection where there is one, undone. -/
def Obligations.CrcConcatenation : Prop :=
  ∀ (w : Nat) (e : Engine w) (s t : List Byte),
    (∀ r, crcFeed e r (s ++ t) = crcFeed e (crcFeed e r s) t) ∧
    crcOf e (s ++ t) =
      crcFrom e t (if e.refOut then (crcOf e s ^^^ e.xorOut).reverse else crcOf e s ^^^ e.xorOut)

/-- R132, which the spec marks as derived from R131: the reflected form of the two reflected engines gives the same
value as the algorithm of R131, with the RPoly values the rule prints, which are the reflected Poly. -/
def Obligations.ReflectedEngineForm : Prop :=
  (crc32p4.poly.reverse = 0xC8DF352F#32 ∧ crc64.poly.reverse = 0xC96C5795D7870F42#64) ∧
  (∀ (bs : List Byte) (init : BitVec 32),
    crcFrom crc32p4 bs init = reflectedFeed 0xC8DF352F#32 init.reverse bs ^^^ crc32p4.xorOut) ∧
  (∀ (bs : List Byte) (init : BitVec 64),
    crcFrom crc64 bs init = reflectedFeed 0xC96C5795D7870F42#64 init.reverse bs ^^^ crc64.xorOut)

/-- R140 (b): every engine is affine: the sum of the CRCs of three sequences of one length is the CRC of their sum. -/
def Obligations.CrcIsAffine : Prop :=
  ∀ (w : Nat) (e : Engine w) (s t u : List Byte), 8 ≤ w → s.length = t.length → t.length = u.length →
    crcOf e s ^^^ crcOf e t ^^^ crcOf e u = crcOf e (xorBytes (xorBytes s t) u)

/-- R140 (c): a change of a single bit of the sequence changes the CRC, for each of the five engines. -/
def Obligations.CrcDetectsSingleBit : Prop :=
  ∀ bs a k, a < bs.length → k < 8 →
    crcOf crc8j (flipBit bs a k) ≠ crcOf crc8j bs ∧ crcOf crc8h2f (flipBit bs a k) ≠ crcOf crc8h2f bs ∧
    crcOf crc16 (flipBit bs a k) ≠ crcOf crc16 bs ∧ crcOf crc32p4 (flipBit bs a k) ≠ crcOf crc32p4 bs ∧
    crcOf crc64 (flipBit bs a k) ≠ crcOf crc64 bs

/-- R135 to R139, on the template R134: for each of the five CRC commands, its word, the engine's parameters; an
operand too wide ends with InvalidRange, else a range outside the message with DataLengthError, and nothing but ERR
changes; else RES0 is the CRC of the range from the starting value of ARG2, ERR is NoError and nothing else changes.
-/
def Obligations.CrcCommandsFollowRules : Prop :=
  (HasWord .crc8jCalc 0x10 ∧ HasWord .crc8h2fCalc 0x11 ∧ HasWord .crc16Calc 0x12 ∧ HasWord .crc32p4Calc 0x13 ∧
    HasWord .crc64Calc 0x14) ∧
  (HasParameters crc8j 0x1D 0xFF false 0xFF ∧ CrcCompletes .crc8jCalc crc8j ∧ CrcErrors .crc8jCalc 8) ∧
  (HasParameters crc8h2f 0x2F 0xFF false 0xFF ∧ CrcCompletes .crc8h2fCalc crc8h2f ∧ CrcErrors .crc8h2fCalc 8) ∧
  (HasParameters crc16 0x1021 0xFFFF false 0 ∧ CrcCompletes .crc16Calc crc16 ∧ CrcErrors .crc16Calc 16) ∧
  (HasParameters crc32p4 0xF4ACFB13 0xFFFFFFFF true 0xFFFFFFFF ∧ CrcCompletes .crc32p4Calc crc32p4 ∧
    CrcErrors .crc32p4Calc 32) ∧
  (HasParameters crc64 0x42F0E1EBA9EA3693 0xFFFFFFFFFFFFFFFF true 0xFFFFFFFFFFFFFFFF ∧ CrcCompletes .crc64Calc crc64 ∧
    CrcErrors .crc64Calc 64)

/-! ### Field codec -/

/-- R166 to R170: `RD8 .. RD64` and `RDNIB`: the command words; the three tests in order (operand width, alignment,
bounds), the first that fails sets ERR and nothing else changes; else RES0 is the big-endian field, or the nibble of
the byte (low nibble where the offset is a multiple of 8), ERR is NoError and nothing else changes. -/
def Obligations.ReadCommandsFollowRules : Prop :=
  (HasWord .rd8 0x20 ∧ HasWord .rd16 0x21 ∧ HasWord .rd32 0x22 ∧ HasWord .rd64 0x23 ∧ HasWord .rdnib 0x24) ∧
  (ReadCompletes .rd8 1 ∧ CodecErrors .rd8 8 8 0) ∧ (ReadCompletes .rd16 2 ∧ CodecErrors .rd16 16 8 0) ∧
  (ReadCompletes .rd32 4 ∧ CodecErrors .rd32 32 8 0) ∧ (ReadCompletes .rd64 8 ∧ CodecErrors .rd64 64 8 0) ∧
  CodecErrors .rdnib 4 4 0 ∧
  ∀ s b, s.arg0.toNat < 2 ^ 32 → s.arg0.toNat % 4 = 0 → s.arg0.toNat / 8 < s.len.toNat → s.len.toNat ≤ s.bufBytes →
    s.buf.get? (s.arg0.toNat / 8) = some b →
    exec .rdnib s = .next
      ((s.setRes0 (BitVec.ofNat 64 (if s.arg0.toNat % 8 = 0 then b.toNat % 16 else b.toNat / 16))).setErr 0)

/-- R171 to R175: `WR8 .. WR64` and `WRNIB`: the command words; the three tests in order, the first that fails sets
ERR and nothing else changes; else the field's bytes hold ARG1 big-endian, or four bits of one byte hold ARG1 and its
other four keep their value; every other byte and every register but ERR is unchanged. -/
def Obligations.WriteCommandsFollowRules : Prop :=
  (HasWord .wr8 0x28 ∧ HasWord .wr16 0x29 ∧ HasWord .wr32 0x2A ∧ HasWord .wr64 0x2B ∧ HasWord .wrnib 0x2C) ∧
  (WriteCompletes .wr8 1 ∧ CodecErrors .wr8 8 8 8) ∧ (WriteCompletes .wr16 2 ∧ CodecErrors .wr16 16 8 16) ∧
  (WriteCompletes .wr32 4 ∧ CodecErrors .wr32 32 8 32) ∧ (WriteCompletes .wr64 8 ∧ CodecErrors .wr64 64 8 64) ∧
  CodecErrors .wrnib 4 4 4 ∧
  ∀ s b, s.len.toNat ≤ s.bufBytes → s.arg0.toNat < 2 ^ 32 → s.arg1.toNat < 16 → s.arg0.toNat % 4 = 0 →
    s.arg0.toNat / 8 < s.len.toNat → s.buf.get? (s.arg0.toNat / 8) = some b →
    ∃ m b', exec .wrnib s = .next ((s.setBuf m).setErr 0) ∧ m.get? (s.arg0.toNat / 8) = some b' ∧
      (∀ a, a ≠ s.arg0.toNat / 8 → m.get? a = s.buf.get? a) ∧
      (s.arg0.toNat % 8 = 0 → b'.toNat % 16 = s.arg1.toNat ∧ b'.toNat / 16 = b.toNat / 16) ∧
      (s.arg0.toNat % 8 = 4 → b'.toNat / 16 = s.arg1.toNat ∧ b'.toNat % 16 = b.toNat % 16)

/-- R176 (a), which the spec marks as derived: a read after a write of the same width at the same offset returns the
written value. -/
def Obligations.ReadAfterWrite : Prop :=
  ReadsBack .wr8 .rd8 ∧ ReadsBack .wr16 .rd16 ∧ ReadsBack .wr32 .rd32 ∧ ReadsBack .wr64 .rd64 ∧ ReadsBack .wrnib .rdnib

/-- R176 (c), (d), which the spec marks as derived: where a wide read completes, the reads of its two halves complete,
and the result is theirs, the first half the more significant; the same of a byte and its two nibbles, the high nibble
at the offset plus 4; and so for the fields of a message. -/
def Obligations.WideFieldsAreNarrowFields : Prop :=
  (IsTwoReads .rd16 .rd8 8 0 8 ∧ IsTwoReads .rd32 .rd16 16 0 16 ∧ IsTwoReads .rd64 .rd32 32 0 32 ∧
    IsTwoReads .rd8 .rdnib 4 4 0) ∧
  (∀ bs a n, a + 2 * n ≤ bs.length → field bs a (2 * n) = 256 ^ n * field bs a n + field bs (a + n) n) ∧
  (∀ bs a, a < bs.length → field bs a 1 = 16 * getNibble bs (8 * a + 4) + getNibble bs (8 * a))

/-- R61, which the spec marks as derived from R60: a wider access is exactly the bytes it covers, the first the most
significant: the sum of R61. -/
def Obligations.FieldIsBigEndianSum : Prop :=
  ∀ s a n v, memRead s a n = .ok v →
    v = ((List.range n).map fun k => (((s.buf.get? (a + k)).map BitVec.toNat).getD 0) * 256 ^ (n - 1 - k)).sum

/-! ### Counter validator -/

/-- R191 to R193, R200: the classification by the distance `d` with `P + d = R (mod M)`, the first reception, and the
new P. -/
def Obligations.CounterClassification : Prop :=
  (∀ w delta r, cval w delta none r = (.ok, r)) ∧
  (∀ w delta p r d, p < 2 ^ w → r < 2 ^ w → d < 2 ^ w → (p + d) % 2 ^ w = r →
    (d = 0 → cval w delta (some p) r = (.repeated, p)) ∧
    (d = 1 → cval w delta (some p) r = (.ok, r)) ∧
    (2 ≤ d → d ≤ delta → cval w delta (some p) r = (.okSomeLost, r)) ∧
    (2 ≤ d → delta < d → cval w delta (some p) r = (.wrongSequence, p)))

/-- R196 to R199, on the template R195: the four validator commands: their words; operands that do not fit end with
InvalidRange and nothing but ERR changes (P is not read where ARG3 is 0); else STATUS, RES0 and RES1 follow the
classification of the distance from P to R, ERR is NoError and nothing else changes. -/
def Obligations.CvalCommandsFollowRules : Prop :=
  (HasWord .cval4 0x30 ∧ HasWord .cval8 0x31 ∧ HasWord .cval16 0x32 ∧ HasWord .cval32 0x33) ∧
  (CvalCompletes .cval4 4 ∧ CvalErrors .cval4 4) ∧ (CvalCompletes .cval8 8 ∧ CvalErrors .cval8 8) ∧
  (CvalCompletes .cval16 16 ∧ CvalErrors .cval16 16) ∧ (CvalCompletes .cval32 32 ∧ CvalErrors .cval32 32)

/-! ### Construct -/

/-- R34, R217, R441: a construct whose four groups of checks hold makes the slot a fresh instance of the staging
registers, sets ERR to NoError and changes nothing else; for each of the nine profiles. -/
def Obligations.ConstructCompletes : Prop :=
  ∀ p i s, i < s.slots.length → ¬BadAlignment p s.staging → ¬BadRange p s.staging → ¬BadOverlap p s.staging →
    ¬BadDelta p s.staging →
    exec (constructOf p i) s = .next ((s.setSlot i (freshSlot p s.staging)).setErr 0)

/-- R213, and R212, R214 to R216: the first violated group of a construct gives the error, in the order alignment,
ranges, overlap, tolerance, and nothing but ERR changes; for each of the nine profiles. The order of the groups, and
the ranges of R214 (a), (d) and of profile 6 in R216, are decisions of the spec (D21 to D25, D31). -/
def Obligations.ConstructErrorsInOrder : Prop :=
  ∀ p i s, i < s.slots.length →
    (BadAlignment p s.staging → exec (constructOf p i) s = .next (s.setErr 2)) ∧
    (¬BadAlignment p s.staging → BadRange p s.staging → exec (constructOf p i) s = .next (s.setErr 1)) ∧
    (¬BadAlignment p s.staging → ¬BadRange p s.staging → BadOverlap p s.staging →
      exec (constructOf p i) s = .next (s.setErr 3)) ∧
    (¬BadAlignment p s.staging → ¬BadRange p s.staging → ¬BadOverlap p s.staging → BadDelta p s.staging →
      exec (constructOf p i) s = .next (s.setErr 4))

/-! ### Protect -/

/-- R218, R219: when the length test holds, every field of the profile lies inside `BUF[0..LEN)`, and for P4, P4M and P6
LEN fits the 16-bit Length field. -/
def Obligations.FieldsInsideMessage : Prop :=
  ∀ x len, x.Ok → LenOk x len → (∀ a, InFields x a → a < len) ∧
    (x.kind = some .p4 ∨ x.kind = some .p4m ∨ x.kind = some .p6 → len ≤ 0xFFFF)

/-- R254, and R264 with the spec's decision D20 on Meta: `PROTECT.P4` and `PROTECT.P4M`: the command words;
NotConstructed on a slot of another kind, DataLengthError on a LEN out of bounds; else the header becomes Length,
Counter, DataID (then Meta) and the CRC-32/P4 of every other byte, `tx_counter` advances by 1 modulo 2^16, and nothing
else but ERR changes. The header bytes need hold no value before. -/
def Obligations.ProtectP4AndP4MFollowRules : Prop :=
  HasSlotWord .protectP4 0x50 ∧ HasSlotWord .protectP4M 0x51 ∧
  ProtectErrors .p4 ∧ ProtectErrors .p4m ∧
  (∀ s bs i (x : Inst (VarCfg 32) 16), MessageBut (InFields (.p4 x)) s bs →
    s.slots[i]? = some (.p4 x) → x.cfg.Ok .p4 →
    LenOk (.p4 x) s.len.toNat →
    let ob := x.cfg.offset.toNat / 8
    let body := beBytes 2 s.len.toNat ++ beBytes 2 x.tx.toNat ++ beBytes 4 x.cfg.dataId.toNat
    let crc := crcOf crc32p4 (bs.take ob ++ body ++ bs.drop (ob + 12))
    StampsTo (.protectP4 i) i s (.p4 { x with tx := x.tx + 1 })
      (bs.take ob ++ body ++ beBytes 4 crc.toNat ++ bs.drop (ob + 12)) (InFields (.p4 x))) ∧
  (∀ s bs i (x : Inst MetaCfg 16), MessageBut (InFields (.p4m x)) s bs →
    s.slots[i]? = some (.p4m x) → x.cfg.toVarCfg.Ok .p4m →
    LenOk (.p4m x) s.len.toNat →
    let ob := x.cfg.offset.toNat / 8
    let body := beBytes 2 s.len.toNat ++ beBytes 2 x.tx.toNat ++ beBytes 4 x.cfg.dataId.toNat ++
      beBytes 4 x.cfg.metaWord.toNat
    let crc := crcOf crc32p4 (bs.take ob ++ body ++ bs.drop (ob + 16))
    StampsTo (.protectP4M i) i s (.p4m { x with tx := x.tx + 1 })
      (bs.take ob ++ body ++ beBytes 4 crc.toNat ++ bs.drop (ob + 16)) (InFields (.p4m x)))

/-- R284, R294: `PROTECT.P5` and `PROTECT.P6`: the command words; NotConstructed on a slot of another kind,
DataLengthError on a LEN out of bounds; else the CRC-16 of every other byte and then the two Data ID bytes, high
first; then (profile 6) Length; then Counter. The header bytes need hold no value before. -/
def Obligations.ProtectP5AndP6FollowRules : Prop :=
  HasSlotWord .protectP5 0x52 ∧ HasSlotWord .protectP6 0x53 ∧
  ProtectErrors .p5 ∧ ProtectErrors .p6 ∧
  (∀ s bs i (x : Inst FixCfg 8), MessageBut (InFields (.p5 x)) s bs →
    s.slots[i]? = some (.p5 x) → x.cfg.Ok → LenOk (.p5 x) s.len.toNat →
    let ob := x.cfg.offset.toNat / 8
    let body := beBytes 1 x.tx.toNat
    let crc := crcOf crc16 (bs.take ob ++ body ++ bs.drop (ob + 3) ++ beBytes 2 x.cfg.dataId.toNat)
    StampsTo (.protectP5 i) i s (.p5 { x with tx := x.tx + 1 })
      (bs.take ob ++ beBytes 2 crc.toNat ++ body ++ bs.drop (ob + 3)) (InFields (.p5 x))) ∧
  (∀ s bs i (x : Inst (VarCfg 16) 8), MessageBut (InFields (.p6 x)) s bs →
    s.slots[i]? = some (.p6 x) → x.cfg.Ok .p6 →
    LenOk (.p6 x) s.len.toNat →
    let ob := x.cfg.offset.toNat / 8
    let body := beBytes 2 s.len.toNat ++ beBytes 1 x.tx.toNat
    let crc := crcOf crc16 (bs.take ob ++ body ++ bs.drop (ob + 5) ++ beBytes 2 x.cfg.dataId.toNat)
    StampsTo (.protectP6 i) i s (.p6 { x with tx := x.tx + 1 })
      (bs.take ob ++ beBytes 2 crc.toNat ++ body ++ bs.drop (ob + 5)) (InFields (.p6 x)))

/-- R314, R334: `PROTECT.P7` and `PROTECT.P8`: the command words; NotConstructed on a slot of another kind,
DataLengthError on a LEN out of bounds; else the CRC-64, or CRC-32/P4, of every other byte; then Length, Counter,
DataID. The header bytes need hold no value before. -/
def Obligations.ProtectP7AndP8FollowRules : Prop :=
  HasSlotWord .protectP7 0x54 ∧ HasSlotWord .protectP8 0x56 ∧
  ProtectErrors .p7 ∧ ProtectErrors .p8 ∧
  (∀ s bs i (x : Inst (VarCfg 32) 32), MessageBut (InFields (.p7 x)) s bs →
    s.slots[i]? = some (.p7 x) → x.cfg.Ok .p7 →
    LenOk (.p7 x) s.len.toNat →
    let ob := x.cfg.offset.toNat / 8
    let body := beBytes 4 s.len.toNat ++ beBytes 4 x.tx.toNat ++ beBytes 4 x.cfg.dataId.toNat
    let crc := crcOf crc64 (bs.take ob ++ body ++ bs.drop (ob + 20))
    StampsTo (.protectP7 i) i s (.p7 { x with tx := x.tx + 1 })
      (bs.take ob ++ beBytes 8 crc.toNat ++ body ++ bs.drop (ob + 20)) (InFields (.p7 x))) ∧
  (∀ s bs i (x : Inst (VarCfg 32) 32), MessageBut (InFields (.p8 x)) s bs →
    s.slots[i]? = some (.p8 x) → x.cfg.Ok .p8 →
    LenOk (.p8 x) s.len.toNat →
    let ob := x.cfg.offset.toNat / 8
    let body := beBytes 4 s.len.toNat ++ beBytes 4 x.tx.toNat ++ beBytes 4 x.cfg.dataId.toNat
    let crc := crcOf crc32p4 (bs.take ob ++ body ++ bs.drop (ob + 16))
    StampsTo (.protectP8 i) i s (.p8 { x with tx := x.tx + 1 })
      (bs.take ob ++ beBytes 4 crc.toNat ++ body ++ bs.drop (ob + 16)) (InFields (.p8 x)))

/-- R324 with the spec's decision D20 on Meta: `PROTECT.P7M`: the command word; NotConstructed on a slot of another
kind, DataLengthError on a LEN out of bounds; else the CRC-64 of every other byte; then Length, Counter, DataID, Meta.
The header bytes need hold no value before. -/
def Obligations.ProtectP7MFollowsRule : Prop :=
  HasSlotWord .protectP7M 0x55 ∧
  ProtectErrors .p7m ∧
  ∀ s bs i (x : Inst MetaCfg 32), MessageBut (InFields (.p7m x)) s bs →
    s.slots[i]? = some (.p7m x) → x.cfg.toVarCfg.Ok .p7m →
    LenOk (.p7m x) s.len.toNat →
    let ob := x.cfg.offset.toNat / 8
    let body := beBytes 4 s.len.toNat ++ beBytes 4 x.tx.toNat ++ beBytes 4 x.cfg.dataId.toNat ++
      beBytes 4 x.cfg.metaWord.toNat
    let crc := crcOf crc64 (bs.take ob ++ body ++ bs.drop (ob + 24))
    StampsTo (.protectP7M i) i s (.p7m { x with tx := x.tx + 1 })
      (bs.take ob ++ beBytes 8 crc.toNat ++ body ++ bs.drop (ob + 24)) (InFields (.p7m x))

/-- R354: `PROTECT.P11`: the command word; NotConstructed on a slot of another kind, DataLengthError on another LEN;
else the counter nibble, in Nibble mode the data-ID nibble `data_id[11:8]`, and the CRC-8/8H2F over two Data ID bytes
and every byte outside the CRC byte; the other nibbles keep their value. The CRC byte need hold no value before. -/
def Obligations.ProtectP11FollowsRule : Prop :=
  HasSlotWord .protectP11 0x57 ∧
  ProtectErrors .p11 ∧
  ∀ s bs i (x : Inst P11Cfg 4), MessageBut (· = x.cfg.crcOffset.toNat / 8) s bs →
    s.slots[i]? = some (.p11 x) → x.cfg.Ok → LenOk (.p11 x) s.len.toNat →
    let cb := x.cfg.crcOffset.toNat / 8
    let id := x.cfg.dataId.toNat
    let bs1 := putNibble bs x.cfg.counterOffset.toNat x.tx.toNat
    let bs2 := match x.cfg.mode with
      | .both => bs1
      | .nibble o => putNibble bs1 o.toNat (id / 256 % 16)
    let second := match x.cfg.mode with
      | .both => 0
      | .nibble _ => id / 256 % 16
    let crc := crcOf crc8h2f (BitVec.ofNat 8 (id % 256) :: BitVec.ofNat 8 second :: (bs2.take cb ++ bs2.drop (cb + 1)))
    StampsTo (.protectP11 i) i s (.p11 { x with tx := x.tx + 1 }) (bs2.set cb crc) (InFields (.p11 x))

/-- R374: `PROTECT.P22`: the command word; NotConstructed on a slot of another kind, DataLengthError on another LEN;
else the counter in the low nibble of the second header byte, and the CRC-8/SAE-J1850 over the list entry of the
counter and every byte outside the CRC byte; the user nibble keeps its value. The CRC byte need hold no value before. -/
def Obligations.ProtectP22FollowsRule : Prop :=
  HasSlotWord .protectP22 0x58 ∧
  ProtectErrors .p22 ∧
  ∀ s bs i (x : Inst P22Cfg 4), MessageBut (· = x.cfg.offset.toNat / 8) s bs →
    s.slots[i]? = some (.p22 x) → x.cfg.Ok → LenOk (.p22 x) s.len.toNat →
    let ob := x.cfg.offset.toNat / 8
    let bs1 := putNibble bs (8 * (ob + 1)) x.tx.toNat
    let crc := crcOf crc8j (x.cfg.idList[x.tx.toNat]'(x.tx.isLt) :: (bs1.take ob ++ bs1.drop (ob + 1)))
    StampsTo (.protectP22 i) i s (.p22 { x with tx := x.tx + 1 }) (bs1.set ob crc) (InFields (.p22 x))

/-! ### Check -/

/-- R255, and R265 with the spec's decision D20 on Meta: `CHECK.P4` and `CHECK.P4M`: the command words; NotConstructed
on a slot of another kind; else the check completes: length bounds and Length field, CRC, DataID (and Meta), counter,
in this order, on the message. A finding of the length bounds or of the Length field needs a value of no other byte. -/
def Obligations.CheckP4AndP4MFollowRules : Prop :=
  HasSlotWord .checkP4 0x60 ∧ HasSlotWord .checkP4M 0x61 ∧
  CheckErrors .p4 ∧ CheckErrors .p4m ∧
  CheckLengthFindings .p4 ∧ CheckLengthFindings .p4m ∧
  (∀ s bs i (x : Inst (VarCfg 32) 16), Message s bs → s.slots[i]? = some (.p4 x) → x.cfg.Ok .p4 →
    let ob := x.cfg.offset.toNat / 8
    exec (.checkP4 i) s = .next (
      if s.len.toNat * 8 < x.cfg.minLen.toNat ∨ x.cfg.maxLen.toNat < s.len.toNat * 8 then concluded s 6
      else if field bs ob 2 ≠ s.len.toNat then concluded s 6
      else if field bs (ob + 8) 4 ≠ (crcOf crc32p4 (bs.take (ob + 8) ++ bs.drop (ob + 12))).toNat then concluded s 4
      else if field bs (ob + 4) 4 ≠ x.cfg.dataId.toNat then concluded s 5
      else counted x.cfg.delta.toNat .p4 x i (field bs (ob + 2) 2) s)) ∧
  (∀ s bs i (x : Inst MetaCfg 16), Message s bs → s.slots[i]? = some (.p4m x) → x.cfg.toVarCfg.Ok .p4m →
    let ob := x.cfg.offset.toNat / 8
    exec (.checkP4M i) s = .next (
      if s.len.toNat * 8 < x.cfg.minLen.toNat ∨ x.cfg.maxLen.toNat < s.len.toNat * 8 then concluded s 6
      else if field bs ob 2 ≠ s.len.toNat then concluded s 6
      else if field bs (ob + 12) 4 ≠ (crcOf crc32p4 (bs.take (ob + 12) ++ bs.drop (ob + 16))).toNat then
        concluded s 4
      else if field bs (ob + 4) 4 ≠ x.cfg.dataId.toNat then concluded s 5
      else if field bs (ob + 8) 4 ≠ x.cfg.metaWord.toNat then concluded s 5
      else counted x.cfg.delta.toNat .p4m x i (field bs (ob + 2) 2) s))

/-- R285, R295: `CHECK.P5` and `CHECK.P6`: the command words; NotConstructed on a slot of another kind; else the check
completes: length, CRC with the Data ID appended high byte first, counter. A finding of the length bounds or of the
Length field needs a value of no other byte. -/
def Obligations.CheckP5AndP6FollowRules : Prop :=
  HasSlotWord .checkP5 0x62 ∧ HasSlotWord .checkP6 0x63 ∧
  CheckErrors .p5 ∧ CheckErrors .p6 ∧
  CheckLengthFindings .p5 ∧ CheckLengthFindings .p6 ∧
  (∀ s bs i (x : Inst FixCfg 8), Message s bs → s.slots[i]? = some (.p5 x) → x.cfg.Ok →
    let ob := x.cfg.offset.toNat / 8
    exec (.checkP5 i) s = .next (
      if s.len.toNat * 8 ≠ x.cfg.dataLen.toNat then concluded s 6
      else if field bs ob 2 ≠ (crcOf crc16 (bs.take ob ++ bs.drop (ob + 2) ++ beBytes 2 x.cfg.dataId.toNat)).toNat then
        concluded s 4
      else counted x.cfg.delta.toNat .p5 x i (field bs (ob + 2) 1) s)) ∧
  (∀ s bs i (x : Inst (VarCfg 16) 8), Message s bs → s.slots[i]? = some (.p6 x) → x.cfg.Ok .p6 →
    let ob := x.cfg.offset.toNat / 8
    exec (.checkP6 i) s = .next (
      if s.len.toNat * 8 < x.cfg.minLen.toNat ∨ x.cfg.maxLen.toNat < s.len.toNat * 8 then concluded s 6
      else if field bs (ob + 2) 2 ≠ s.len.toNat then concluded s 6
      else if field bs ob 2 ≠ (crcOf crc16 (bs.take ob ++ bs.drop (ob + 2) ++ beBytes 2 x.cfg.dataId.toNat)).toNat then
        concluded s 4
      else counted x.cfg.delta.toNat .p6 x i (field bs (ob + 4) 1) s))

/-- R315, R335, and R325 with the spec's decision D20 on Meta: `CHECK.P7`, `CHECK.P7M` and `CHECK.P8`: the command
words; NotConstructed on a slot of another kind; else the check completes: length bounds and Length field, CRC, DataID
(and Meta), counter. A finding of the length bounds or of the Length field needs a value of no other byte. -/
def Obligations.CheckP7FamilyFollowsRules : Prop :=
  HasSlotWord .checkP7 0x64 ∧ HasSlotWord .checkP7M 0x65 ∧ HasSlotWord .checkP8 0x66 ∧
  CheckErrors .p7 ∧ CheckErrors .p7m ∧ CheckErrors .p8 ∧
  CheckLengthFindings .p7 ∧ CheckLengthFindings .p7m ∧ CheckLengthFindings .p8 ∧
  (∀ s bs i (x : Inst (VarCfg 32) 32), Message s bs → s.slots[i]? = some (.p7 x) → x.cfg.Ok .p7 →
    let ob := x.cfg.offset.toNat / 8
    exec (.checkP7 i) s = .next (
      if s.len.toNat * 8 < x.cfg.minLen.toNat ∨ x.cfg.maxLen.toNat < s.len.toNat * 8 then concluded s 6
      else if field bs (ob + 8) 4 ≠ s.len.toNat then concluded s 6
      else if field bs ob 8 ≠ (crcOf crc64 (bs.take ob ++ bs.drop (ob + 8))).toNat then concluded s 4
      else if field bs (ob + 16) 4 ≠ x.cfg.dataId.toNat then concluded s 5
      else counted x.cfg.delta.toNat .p7 x i (field bs (ob + 12) 4) s)) ∧
  (∀ s bs i (x : Inst MetaCfg 32), Message s bs → s.slots[i]? = some (.p7m x) → x.cfg.toVarCfg.Ok .p7m →
    let ob := x.cfg.offset.toNat / 8
    exec (.checkP7M i) s = .next (
      if s.len.toNat * 8 < x.cfg.minLen.toNat ∨ x.cfg.maxLen.toNat < s.len.toNat * 8 then concluded s 6
      else if field bs (ob + 8) 4 ≠ s.len.toNat then concluded s 6
      else if field bs ob 8 ≠ (crcOf crc64 (bs.take ob ++ bs.drop (ob + 8))).toNat then concluded s 4
      else if field bs (ob + 16) 4 ≠ x.cfg.dataId.toNat then concluded s 5
      else if field bs (ob + 20) 4 ≠ x.cfg.metaWord.toNat then concluded s 5
      else counted x.cfg.delta.toNat .p7m x i (field bs (ob + 12) 4) s)) ∧
  (∀ s bs i (x : Inst (VarCfg 32) 32), Message s bs → s.slots[i]? = some (.p8 x) → x.cfg.Ok .p8 →
    let ob := x.cfg.offset.toNat / 8
    exec (.checkP8 i) s = .next (
      if s.len.toNat * 8 < x.cfg.minLen.toNat ∨ x.cfg.maxLen.toNat < s.len.toNat * 8 then concluded s 6
      else if field bs (ob + 4) 4 ≠ s.len.toNat then concluded s 6
      else if field bs ob 4 ≠ (crcOf crc32p4 (bs.take ob ++ bs.drop (ob + 4))).toNat then concluded s 4
      else if field bs (ob + 12) 4 ≠ x.cfg.dataId.toNat then concluded s 5
      else counted x.cfg.delta.toNat .p8 x i (field bs (ob + 8) 4) s))

/-- R355 with the spec's decisions D26 and D32: `CHECK.P11`: the command word; NotConstructed on a slot of another
kind; else the check completes: length, CRC over two Data ID bytes and the bytes outside the CRC byte, in Nibble mode
the stored data-ID nibble, counter. A finding of the length test needs no byte to hold a value. -/
def Obligations.CheckP11FollowsRule : Prop :=
  HasSlotWord .checkP11 0x67 ∧
  CheckErrors .p11 ∧
  CheckLengthFindings .p11 ∧
  ∀ s bs i (x : Inst P11Cfg 4), Message s bs → s.slots[i]? = some (.p11 x) → x.cfg.Ok →
    let cb := x.cfg.crcOffset.toNat / 8
    let id := x.cfg.dataId.toNat
    let second := match x.cfg.mode with
      | .both => 0
      | .nibble _ => id / 256 % 16
    exec (.checkP11 i) s = .next (
      if s.len.toNat * 8 ≠ x.cfg.dataLen.toNat then concluded s 6
      else if field bs cb 1 ≠ (crcOf crc8h2f
        (BitVec.ofNat 8 (id % 256) :: BitVec.ofNat 8 second :: (bs.take cb ++ bs.drop (cb + 1)))).toNat then
        concluded s 4
      else if ∃ o, x.cfg.mode = .nibble o ∧ getNibble bs o.toNat ≠ id / 256 % 16 then concluded s 5
      else counted x.cfg.delta.toNat .p11 x i (getNibble bs x.cfg.counterOffset.toNat) s)

/-- R375 with the spec's decision D25: `CHECK.P22`: the command word; NotConstructed on a slot of another kind; else
the check completes: length, CRC over the list entry of the received counter and the bytes outside the CRC byte,
counter. A finding of the length test needs no byte to hold a value. -/
def Obligations.CheckP22FollowsRule : Prop :=
  HasSlotWord .checkP22 0x68 ∧
  CheckErrors .p22 ∧
  CheckLengthFindings .p22 ∧
  ∀ s bs i (x : Inst P22Cfg 4), Message s bs → s.slots[i]? = some (.p22 x) → x.cfg.Ok →
    let ob := x.cfg.offset.toNat / 8
    let r := getNibble bs (8 * (ob + 1))
    exec (.checkP22 i) s = .next (
      if s.len.toNat * 8 ≠ x.cfg.dataLen.toNat then concluded s 6
      else if field bs ob 1 ≠ (crcOf crc8j (x.cfg.idList.toList.getD r 0 :: (bs.take ob ++ bs.drop (ob + 1)))).toNat then
        concluded s 4
      else counted x.cfg.delta.toNat .p22 x i r s)

/-! ### Sender and receiver together -/

/-- R234 properties 1 and 8: for every profile, a message protected by one slot is Ok for a fresh receiver of the same
configuration, and Repeated when checked again. -/
def Obligations.RoundTripThenRepeated : Prop :=
  ∀ p i j s bs x y, s.Inv → Message s bs → s.slots[i]? = some x → s.slots[j]? = some y → x.kind = some p →
    SameCfg x y → rxOf y = none → LenOk x s.len.toNat →
    ∃ t u v, exec (protectOf p i) s = .next t ∧ t.err = 0 ∧ exec (checkOf p j) t = .next u ∧ u.err = 0 ∧ u.status = 0 ∧
      exec (checkOf p j) u = .next v ∧ v.err = 0 ∧ v.status = 2

/-- R233: for the profiles that store the Data ID, a receiver whose configuration differs from the sender's in the
Data ID alone, whatever its counters, reports DataIdError. -/
def Obligations.WrongDataIdIsReported : Prop :=
  ∀ p i j s bs x y d, s.Inv → Message s bs → s.slots[i]? = some x → x.kind = some p →
    p = .p4 ∨ p = .p4m ∨ p = .p7 ∨ p = .p7m ∨ p = .p8 → s.slots[j]? = some y → SameCfg (withOtherId x d) y →
    withOtherId x d ≠ x → LenOk x s.len.toNat →
    ∃ t u, exec (protectOf p i) s = .next t ∧ t.err = 0 ∧ exec (checkOf p j) t = .next u ∧ u.err = 0 ∧ u.status = 5

/-- R233: for the profiles that do not store the Data ID whole, a receiver whose configuration differs from the
sender's in the Data ID alone, whatever its counters: CrcError where any bit differs in profiles 5 and 6, the low byte
in profile 11 Both mode, the list entry of the message's counter in profile 22; in profile 11 Nibble mode, where one
of bits 11..0 differs, CrcError, or DataIdError, and this only where both the low byte and the data-ID nibble differ.
-/
def Obligations.WrongDataIdBreaksCrc : Prop :=
  (∀ i j s bs (x y : Inst FixCfg 8) d, s.Inv → Message s bs → s.slots[i]? = some (.p5 x) → s.slots[j]? = some (.p5 y) →
    d ≠ x.cfg.dataId → y.cfg = { x.cfg with dataId := d } → LenOk (.p5 x) s.len.toNat →
    ReportsCrcError (.protectP5 i) (.checkP5 j) s) ∧
  (∀ i j s bs (x y : Inst (VarCfg 16) 8) d, s.Inv → Message s bs → s.slots[i]? = some (.p6 x) →
    s.slots[j]? = some (.p6 y) → d ≠ x.cfg.dataId → y.cfg = { x.cfg with dataId := d } → LenOk (.p6 x) s.len.toNat →
    ReportsCrcError (.protectP6 i) (.checkP6 j) s) ∧
  (∀ i j s bs (x y : Inst P11Cfg 4) d, s.Inv → Message s bs → s.slots[i]? = some (.p11 x) →
    s.slots[j]? = some (.p11 y) → x.cfg.mode = .both → d.toNat % 256 ≠ x.cfg.dataId.toNat % 256 →
    y.cfg = { x.cfg with dataId := d } → LenOk (.p11 x) s.len.toNat →
    ReportsCrcError (.protectP11 i) (.checkP11 j) s) ∧
  (∀ i j s bs (x y : Inst P11Cfg 4) d o, s.Inv → Message s bs → s.slots[i]? = some (.p11 x) →
    s.slots[j]? = some (.p11 y) → x.cfg.mode = .nibble o → d.toNat % 4096 ≠ x.cfg.dataId.toNat % 4096 →
    y.cfg = { x.cfg with dataId := d } → LenOk (.p11 x) s.len.toNat →
    ∃ t u, exec (.protectP11 i) s = .next t ∧ t.err = 0 ∧ exec (.checkP11 j) t = .next u ∧ u.err = 0 ∧
      (u.status = 4 ∨ (u.status = 5 ∧ d.toNat % 256 ≠ x.cfg.dataId.toNat % 256 ∧
        d.toNat / 256 % 16 ≠ x.cfg.dataId.toNat / 256 % 16))) ∧
  (∀ i j s bs (x y : Inst P22Cfg 4) l, s.Inv → Message s bs → s.slots[i]? = some (.p22 x) →
    s.slots[j]? = some (.p22 y) → l[x.tx.toNat]'(x.tx.isLt) ≠ x.cfg.idList[x.tx.toNat]'(x.tx.isLt) →
    y.cfg = { x.cfg with idList := l } → LenOk (.p22 x) s.len.toNat →
    ReportsCrcError (.protectP22 i) (.checkP22 j) s)

/-- R201, R234 property 4, for every profile: a sender protects, a receiver of the same configuration checks, the
sender protects again, the receiver checks again. The first message's Counter field is the sender's `tx_counter`, the
second's is one more modulo `2^w`. A fresh receiver finds the first Ok; and where the receiver found the first message
Ok, OkSomeLost or Repeated, it finds the second Ok and takes its counter. -/
def Obligations.ConsecutiveProtectsAreOk : Prop :=
  ∀ p i j s bs x y n, s.Inv → Message s bs → s.slots[i]? = some x → s.slots[j]? = some y → x.kind = some p →
    SameCfg x y → txOf x = some n → LenOk x s.len.toNat →
    ∃ t a u v bt bu, exec (protectOf p i) s = .next t ∧ t.err = 0 ∧ exec (checkOf p j) t = .next a ∧ a.err = 0 ∧
      exec (protectOf p i) a = .next u ∧ u.err = 0 ∧ exec (checkOf p j) u = .next v ∧ v.err = 0 ∧
      Message t bt ∧ counterField x bt = n ∧ Message u bu ∧ counterField x bu = (n + 1) % 2 ^ counterWidth p ∧
      (rxOf y = none → a.status = 0) ∧
      (a.status.toNat ≤ 2 → v.status = 0 ∧ (v.slots[j]?).bind rxOf = some ((n + 1) % 2 ^ counterWidth p))

/-- R234 property 2: flipping any single bit outside the CRC field of a message that a check found parse-valid makes
the check end in CrcError or DataLengthError. In profile 22 a counter bit also selects another list entry; it is covered
where that entry is equal to the one before, and otherwise left out, since the CRC input then changes in two bytes. -/
def Obligations.SingleBitFlipIsDetected : Prop :=
  ∀ p i s s' bs x a k t, s.Inv → Message s bs → s.slots[i]? = some x → x.kind = some p → a < bs.length → k < 8 →
    (a < (crcRange x).1 ∨ (crcRange x).2 ≤ a) →
    (∀ y, x = .p22 y → y.cfg.idList.toList[counterField x (flipBit bs a k)]? = y.cfg.idList.toList[counterField x bs]?) →
    exec (checkOf p i) s = .next t → t.status.toNat ≤ 3 →
    s'.slots = s.slots → s'.len = s.len → Message s' (flipBit bs a k) →
    ∃ t', exec (checkOf p i) s' = .next t' ∧ (t'.status = 4 ∨ t'.status = 6)
end

