-- ==== Sys2Proof/Laws/Memory.lean ====
section
/-! SUPPORT. The laws of the buffer memory: read after write, and the canonical form, which every operation keeps. -/

namespace Sys2Proof.Machine

@[simp] theorem Memory.get?_nil (a : Nat) : Memory.get? [] a = none := rfl

@[simp] theorem Memory.get?_cons (k : Nat) (b : Byte) (m : Memory) (a : Nat) :
    Memory.get? ((k, b) :: m) a = if a = k then some b else Memory.get? m a := rfl

/-- A read after a write to the same address gives the value written. -/
@[simp] theorem Memory.get?_set_same (m : Memory) (a : Nat) (b : Byte) : (Memory.set m a b).get? a = some b := by
  induction m with
  | nil => simp [Memory.set]
  | cons c m ih =>
    obtain ⟨k, v⟩ := c
    by_cases h1 : a < k
    · simp [Memory.set, h1]
    · by_cases h2 : a = k
      · simp [Memory.set, h2]
      · simp [Memory.set, h1, h2, ih]

/-- A write leaves every other address alone. -/
theorem Memory.get?_set_other (m : Memory) {a x : Nat} (b : Byte) (h : x ≠ a) :
    (Memory.set m a b).get? x = m.get? x := by
  induction m with
  | nil => simp [Memory.set, h]
  | cons c m ih =>
    obtain ⟨k, v⟩ := c
    by_cases h1 : a < k
    · simp [Memory.set, h1, h]
    · by_cases h2 : a = k
      · subst h2; simp [Memory.set, h]
      · simp [Memory.set, h1, h2, ih]

theorem Memory.get?_set (m : Memory) (a x : Nat) (b : Byte) :
    (Memory.set m a b).get? x = if x = a then some b else m.get? x := by
  by_cases h : x = a
  · subst h; simp
  · simp [Memory.get?_set_other m b h, h]

theorem Memory.wfFrom_cons (lo k : Nat) (b : Byte) (m : Memory) :
    Memory.wfFrom lo ((k, b) :: m) = true ↔ lo ≤ k ∧ Memory.wfFrom (k + 1) m = true := by
  simp [Memory.wfFrom]

/-- A canonical memory that starts late is canonical from any earlier address. -/
theorem Memory.wfFrom_mono {lo lo' : Nat} (h : lo' ≤ lo) : ∀ {m : Memory}, Memory.wfFrom lo m = true →
    Memory.wfFrom lo' m = true
  | [], _ => rfl
  | (_, _) :: _, hm => by
    rw [Memory.wfFrom_cons] at hm ⊢
    exact ⟨h.trans hm.1, hm.2⟩

/-- A write keeps the canonical form. -/
theorem Memory.wfFrom_set (a : Nat) (b : Byte) : ∀ {lo : Nat} {m : Memory}, lo ≤ a → Memory.wfFrom lo m = true →
    Memory.wfFrom lo (Memory.set m a b) = true
  | lo, [], h, _ => by simp [Memory.set, Memory.wfFrom, h]
  | lo, (k, v) :: m, h, hm => by
    rw [Memory.wfFrom_cons] at hm
    by_cases h1 : a < k
    · simp only [Memory.set, h1, if_true, Memory.wfFrom_cons]
      exact ⟨h, h1, hm.2⟩
    · by_cases h2 : a = k
      · subst h2
        simp only [Memory.set, lt_irrefl, if_false, if_true, Memory.wfFrom_cons]
        exact ⟨h, hm.2⟩
      · simp only [Memory.set, h1, h2, if_false, Memory.wfFrom_cons]
        exact ⟨hm.1, Memory.wfFrom_set a b (by omega) hm.2⟩

theorem Memory.wf_set {m : Memory} (a : Nat) (b : Byte) (h : m.wf = true) : (Memory.set m a b).wf = true :=
  Memory.wfFrom_set a b (Nat.zero_le a) h

/-- The entries after a write: the written one and old ones. -/
theorem Memory.mem_set {m : Memory} {a : Nat} {b : Byte} {c : Host.Cell} (h : c ∈ Memory.set m a b) :
    c = (a, b) ∨ c ∈ m := by
  induction m with
  | nil => simpa [Memory.set] using h
  | cons e m ih =>
    obtain ⟨k, v⟩ := e
    by_cases h1 : a < k
    · simp only [Memory.set, h1, if_true] at h
      rcases List.mem_cons.mp h with h | h
      · exact .inl h
      · exact .inr h
    · by_cases h2 : a = k
      · simp only [Memory.set, h2, lt_irrefl, if_false, if_true] at h
        rcases List.mem_cons.mp h with h | h
        · exact .inl (by rw [h, h2])
        · exact .inr (List.mem_cons_of_mem _ h)
      · simp only [Memory.set, h1, h2, if_false] at h
        rcases List.mem_cons.mp h with h | h
        · exact .inr (by rw [h]; exact List.mem_cons_self ..)
        · rcases ih h with h | h
          · exact .inl h
          · exact .inr (List.mem_cons_of_mem _ h)

/-- A byte below the first listed address holds no value. -/
theorem Memory.get?_below {lo a : Nat} (h : a < lo) : ∀ {m : Memory}, Memory.wfFrom lo m = true → m.get? a = none
  | [], _ => rfl
  | (k, v) :: m, hm => by
    rw [Memory.wfFrom_cons] at hm
    have hk : a ≠ k := by omega
    rw [Memory.get?_cons, if_neg hk]
    exact Memory.get?_below (by omega) hm.2

/-- Equal memories are equal data: two canonical memories that read alike are the same list. -/
theorem Memory.ext_get? : ∀ {lo : Nat} {m n : Memory}, Memory.wfFrom lo m = true → Memory.wfFrom lo n = true →
    (∀ a, m.get? a = n.get? a) → m = n
  | _, [], [], _, _, _ => rfl
  | _, [], (k, v) :: n, _, _, h => by simpa using h k
  | _, (k, v) :: m, [], _, _, h => by simpa using h k
  | lo, (k, v) :: m, (k', v') :: n, hm, hn, h => by
    rw [Memory.wfFrom_cons] at hm hn
    have hk : k = k' := by
      rcases Nat.lt_trichotomy k k' with hlt | heq | hgt
      · have := h k
        rw [Memory.get?_cons, Memory.get?_cons, if_pos rfl, if_neg (by omega),
          Memory.get?_below (show k < k' + 1 by omega) hn.2] at this
        cases this
      · exact heq
      · have := h k'
        rw [Memory.get?_cons, Memory.get?_cons, if_pos rfl, if_neg (by omega),
          Memory.get?_below (show k' < k + 1 by omega) hm.2] at this
        cases this
    subst hk
    have hv : v = v' := by simpa using h k
    subst hv
    have := Memory.ext_get? (lo := k + 1) hm.2 hn.2 (fun a => by
      by_cases ha : a = k
      · subst ha
        rw [Memory.get?_below (Nat.lt_succ_self a) hm.2, Memory.get?_below (Nat.lt_succ_self a) hn.2]
      · have := h a
        rwa [Memory.get?_cons, Memory.get?_cons, if_neg ha, if_neg ha] at this)
    rw [this]

/-- A listed address is below BUF_BYTES where every entry is. -/
theorem Memory.lt_of_get? {m : Memory} {n a : Nat} {b : Byte} (hm : ∀ c ∈ m, c.1 < n) (h : m.get? a = some b) :
    a < n := by
  induction m with
  | nil => simp at h
  | cons c m ih =>
    obtain ⟨k, v⟩ := c
    by_cases hk : a = k
    · subst hk; exact hm (a, v) (List.mem_cons_self ..)
    · rw [Memory.get?_cons, if_neg hk] at h
      exact ih (fun c hc => hm c (List.mem_cons_of_mem _ hc)) h

end Sys2Proof.Machine
end

