-- ==== Sys2Proof/Laws/State.lean ====
section
/-! SUPPORT. One lemma per field per state update, so that no proof unfolds a record update. -/

namespace Sys2Proof.Machine

@[simp] theorem State.setErr_arg0 (s : State) (v : BitVec 8) : (s.setErr v).arg0 = s.arg0 := rfl
@[simp] theorem State.setErr_arg1 (s : State) (v : BitVec 8) : (s.setErr v).arg1 = s.arg1 := rfl
@[simp] theorem State.setErr_arg2 (s : State) (v : BitVec 8) : (s.setErr v).arg2 = s.arg2 := rfl
@[simp] theorem State.setErr_arg3 (s : State) (v : BitVec 8) : (s.setErr v).arg3 = s.arg3 := rfl
@[simp] theorem State.setErr_res0 (s : State) (v : BitVec 8) : (s.setErr v).res0 = s.res0 := rfl
@[simp] theorem State.setErr_res1 (s : State) (v : BitVec 8) : (s.setErr v).res1 = s.res1 := rfl
@[simp] theorem State.setErr_status (s : State) (v : BitVec 8) : (s.setErr v).status = s.status := rfl
@[simp] theorem State.setErr_err (s : State) (v : BitVec 8) : (s.setErr v).err = v := rfl
@[simp] theorem State.setErr_len (s : State) (v : BitVec 8) : (s.setErr v).len = s.len := rfl
@[simp] theorem State.setErr_staging (s : State) (v : BitVec 8) : (s.setErr v).staging = s.staging := rfl
@[simp] theorem State.setErr_bufBytes (s : State) (v : BitVec 8) : (s.setErr v).bufBytes = s.bufBytes := rfl
@[simp] theorem State.setErr_buf (s : State) (v : BitVec 8) : (s.setErr v).buf = s.buf := rfl
@[simp] theorem State.setErr_slots (s : State) (v : BitVec 8) : (s.setErr v).slots = s.slots := rfl
@[simp] theorem State.setErr_host (s : State) (v : BitVec 8) : (s.setErr v).host = s.host := rfl

@[simp] theorem State.setStatus_arg0 (s : State) (v : BitVec 3) : (s.setStatus v).arg0 = s.arg0 := rfl
@[simp] theorem State.setStatus_arg1 (s : State) (v : BitVec 3) : (s.setStatus v).arg1 = s.arg1 := rfl
@[simp] theorem State.setStatus_arg2 (s : State) (v : BitVec 3) : (s.setStatus v).arg2 = s.arg2 := rfl
@[simp] theorem State.setStatus_arg3 (s : State) (v : BitVec 3) : (s.setStatus v).arg3 = s.arg3 := rfl
@[simp] theorem State.setStatus_res0 (s : State) (v : BitVec 3) : (s.setStatus v).res0 = s.res0 := rfl
@[simp] theorem State.setStatus_res1 (s : State) (v : BitVec 3) : (s.setStatus v).res1 = s.res1 := rfl
@[simp] theorem State.setStatus_status (s : State) (v : BitVec 3) : (s.setStatus v).status = v := rfl
@[simp] theorem State.setStatus_err (s : State) (v : BitVec 3) : (s.setStatus v).err = s.err := rfl
@[simp] theorem State.setStatus_len (s : State) (v : BitVec 3) : (s.setStatus v).len = s.len := rfl
@[simp] theorem State.setStatus_staging (s : State) (v : BitVec 3) : (s.setStatus v).staging = s.staging := rfl
@[simp] theorem State.setStatus_bufBytes (s : State) (v : BitVec 3) : (s.setStatus v).bufBytes = s.bufBytes := rfl
@[simp] theorem State.setStatus_buf (s : State) (v : BitVec 3) : (s.setStatus v).buf = s.buf := rfl
@[simp] theorem State.setStatus_slots (s : State) (v : BitVec 3) : (s.setStatus v).slots = s.slots := rfl
@[simp] theorem State.setStatus_host (s : State) (v : BitVec 3) : (s.setStatus v).host = s.host := rfl

@[simp] theorem State.setRes0_arg0 (s : State) (v : Word64) : (s.setRes0 v).arg0 = s.arg0 := rfl
@[simp] theorem State.setRes0_arg1 (s : State) (v : Word64) : (s.setRes0 v).arg1 = s.arg1 := rfl
@[simp] theorem State.setRes0_arg2 (s : State) (v : Word64) : (s.setRes0 v).arg2 = s.arg2 := rfl
@[simp] theorem State.setRes0_arg3 (s : State) (v : Word64) : (s.setRes0 v).arg3 = s.arg3 := rfl
@[simp] theorem State.setRes0_res0 (s : State) (v : Word64) : (s.setRes0 v).res0 = v := rfl
@[simp] theorem State.setRes0_res1 (s : State) (v : Word64) : (s.setRes0 v).res1 = s.res1 := rfl
@[simp] theorem State.setRes0_status (s : State) (v : Word64) : (s.setRes0 v).status = s.status := rfl
@[simp] theorem State.setRes0_err (s : State) (v : Word64) : (s.setRes0 v).err = s.err := rfl
@[simp] theorem State.setRes0_len (s : State) (v : Word64) : (s.setRes0 v).len = s.len := rfl
@[simp] theorem State.setRes0_staging (s : State) (v : Word64) : (s.setRes0 v).staging = s.staging := rfl
@[simp] theorem State.setRes0_bufBytes (s : State) (v : Word64) : (s.setRes0 v).bufBytes = s.bufBytes := rfl
@[simp] theorem State.setRes0_buf (s : State) (v : Word64) : (s.setRes0 v).buf = s.buf := rfl
@[simp] theorem State.setRes0_slots (s : State) (v : Word64) : (s.setRes0 v).slots = s.slots := rfl
@[simp] theorem State.setRes0_host (s : State) (v : Word64) : (s.setRes0 v).host = s.host := rfl

@[simp] theorem State.setRes1_arg0 (s : State) (v : Word64) : (s.setRes1 v).arg0 = s.arg0 := rfl
@[simp] theorem State.setRes1_arg1 (s : State) (v : Word64) : (s.setRes1 v).arg1 = s.arg1 := rfl
@[simp] theorem State.setRes1_arg2 (s : State) (v : Word64) : (s.setRes1 v).arg2 = s.arg2 := rfl
@[simp] theorem State.setRes1_arg3 (s : State) (v : Word64) : (s.setRes1 v).arg3 = s.arg3 := rfl
@[simp] theorem State.setRes1_res0 (s : State) (v : Word64) : (s.setRes1 v).res0 = s.res0 := rfl
@[simp] theorem State.setRes1_res1 (s : State) (v : Word64) : (s.setRes1 v).res1 = v := rfl
@[simp] theorem State.setRes1_status (s : State) (v : Word64) : (s.setRes1 v).status = s.status := rfl
@[simp] theorem State.setRes1_err (s : State) (v : Word64) : (s.setRes1 v).err = s.err := rfl
@[simp] theorem State.setRes1_len (s : State) (v : Word64) : (s.setRes1 v).len = s.len := rfl
@[simp] theorem State.setRes1_staging (s : State) (v : Word64) : (s.setRes1 v).staging = s.staging := rfl
@[simp] theorem State.setRes1_bufBytes (s : State) (v : Word64) : (s.setRes1 v).bufBytes = s.bufBytes := rfl
@[simp] theorem State.setRes1_buf (s : State) (v : Word64) : (s.setRes1 v).buf = s.buf := rfl
@[simp] theorem State.setRes1_slots (s : State) (v : Word64) : (s.setRes1 v).slots = s.slots := rfl
@[simp] theorem State.setRes1_host (s : State) (v : Word64) : (s.setRes1 v).host = s.host := rfl

@[simp] theorem State.setLen_arg0 (s : State) (v : Word32) : (s.setLen v).arg0 = s.arg0 := rfl
@[simp] theorem State.setLen_arg1 (s : State) (v : Word32) : (s.setLen v).arg1 = s.arg1 := rfl
@[simp] theorem State.setLen_arg2 (s : State) (v : Word32) : (s.setLen v).arg2 = s.arg2 := rfl
@[simp] theorem State.setLen_arg3 (s : State) (v : Word32) : (s.setLen v).arg3 = s.arg3 := rfl
@[simp] theorem State.setLen_res0 (s : State) (v : Word32) : (s.setLen v).res0 = s.res0 := rfl
@[simp] theorem State.setLen_res1 (s : State) (v : Word32) : (s.setLen v).res1 = s.res1 := rfl
@[simp] theorem State.setLen_status (s : State) (v : Word32) : (s.setLen v).status = s.status := rfl
@[simp] theorem State.setLen_err (s : State) (v : Word32) : (s.setLen v).err = s.err := rfl
@[simp] theorem State.setLen_len (s : State) (v : Word32) : (s.setLen v).len = v := rfl
@[simp] theorem State.setLen_staging (s : State) (v : Word32) : (s.setLen v).staging = s.staging := rfl
@[simp] theorem State.setLen_bufBytes (s : State) (v : Word32) : (s.setLen v).bufBytes = s.bufBytes := rfl
@[simp] theorem State.setLen_buf (s : State) (v : Word32) : (s.setLen v).buf = s.buf := rfl
@[simp] theorem State.setLen_slots (s : State) (v : Word32) : (s.setLen v).slots = s.slots := rfl
@[simp] theorem State.setLen_host (s : State) (v : Word32) : (s.setLen v).host = s.host := rfl

@[simp] theorem State.setStaging_arg0 (s : State) (v : Staging) : (s.setStaging v).arg0 = s.arg0 := rfl
@[simp] theorem State.setStaging_arg1 (s : State) (v : Staging) : (s.setStaging v).arg1 = s.arg1 := rfl
@[simp] theorem State.setStaging_arg2 (s : State) (v : Staging) : (s.setStaging v).arg2 = s.arg2 := rfl
@[simp] theorem State.setStaging_arg3 (s : State) (v : Staging) : (s.setStaging v).arg3 = s.arg3 := rfl
@[simp] theorem State.setStaging_res0 (s : State) (v : Staging) : (s.setStaging v).res0 = s.res0 := rfl
@[simp] theorem State.setStaging_res1 (s : State) (v : Staging) : (s.setStaging v).res1 = s.res1 := rfl
@[simp] theorem State.setStaging_status (s : State) (v : Staging) : (s.setStaging v).status = s.status := rfl
@[simp] theorem State.setStaging_err (s : State) (v : Staging) : (s.setStaging v).err = s.err := rfl
@[simp] theorem State.setStaging_len (s : State) (v : Staging) : (s.setStaging v).len = s.len := rfl
@[simp] theorem State.setStaging_staging (s : State) (v : Staging) : (s.setStaging v).staging = v := rfl
@[simp] theorem State.setStaging_bufBytes (s : State) (v : Staging) : (s.setStaging v).bufBytes = s.bufBytes := rfl
@[simp] theorem State.setStaging_buf (s : State) (v : Staging) : (s.setStaging v).buf = s.buf := rfl
@[simp] theorem State.setStaging_slots (s : State) (v : Staging) : (s.setStaging v).slots = s.slots := rfl
@[simp] theorem State.setStaging_host (s : State) (v : Staging) : (s.setStaging v).host = s.host := rfl

@[simp] theorem State.setBuf_arg0 (s : State) (m : Memory) : (s.setBuf m).arg0 = s.arg0 := rfl
@[simp] theorem State.setBuf_arg1 (s : State) (m : Memory) : (s.setBuf m).arg1 = s.arg1 := rfl
@[simp] theorem State.setBuf_arg2 (s : State) (m : Memory) : (s.setBuf m).arg2 = s.arg2 := rfl
@[simp] theorem State.setBuf_arg3 (s : State) (m : Memory) : (s.setBuf m).arg3 = s.arg3 := rfl
@[simp] theorem State.setBuf_res0 (s : State) (m : Memory) : (s.setBuf m).res0 = s.res0 := rfl
@[simp] theorem State.setBuf_res1 (s : State) (m : Memory) : (s.setBuf m).res1 = s.res1 := rfl
@[simp] theorem State.setBuf_status (s : State) (m : Memory) : (s.setBuf m).status = s.status := rfl
@[simp] theorem State.setBuf_err (s : State) (m : Memory) : (s.setBuf m).err = s.err := rfl
@[simp] theorem State.setBuf_len (s : State) (m : Memory) : (s.setBuf m).len = s.len := rfl
@[simp] theorem State.setBuf_staging (s : State) (m : Memory) : (s.setBuf m).staging = s.staging := rfl
@[simp] theorem State.setBuf_bufBytes (s : State) (m : Memory) : (s.setBuf m).bufBytes = s.bufBytes := rfl
@[simp] theorem State.setBuf_buf (s : State) (m : Memory) : (s.setBuf m).buf = m := rfl
@[simp] theorem State.setBuf_slots (s : State) (m : Memory) : (s.setBuf m).slots = s.slots := rfl
@[simp] theorem State.setBuf_host (s : State) (m : Memory) : (s.setBuf m).host = s.host := rfl

@[simp] theorem State.setHost_arg0 (s : State) (h : List HostAction) : (s.setHost h).arg0 = s.arg0 := rfl
@[simp] theorem State.setHost_arg1 (s : State) (h : List HostAction) : (s.setHost h).arg1 = s.arg1 := rfl
@[simp] theorem State.setHost_arg2 (s : State) (h : List HostAction) : (s.setHost h).arg2 = s.arg2 := rfl
@[simp] theorem State.setHost_arg3 (s : State) (h : List HostAction) : (s.setHost h).arg3 = s.arg3 := rfl
@[simp] theorem State.setHost_res0 (s : State) (h : List HostAction) : (s.setHost h).res0 = s.res0 := rfl
@[simp] theorem State.setHost_res1 (s : State) (h : List HostAction) : (s.setHost h).res1 = s.res1 := rfl
@[simp] theorem State.setHost_status (s : State) (h : List HostAction) : (s.setHost h).status = s.status := rfl
@[simp] theorem State.setHost_err (s : State) (h : List HostAction) : (s.setHost h).err = s.err := rfl
@[simp] theorem State.setHost_len (s : State) (h : List HostAction) : (s.setHost h).len = s.len := rfl
@[simp] theorem State.setHost_staging (s : State) (h : List HostAction) : (s.setHost h).staging = s.staging := rfl
@[simp] theorem State.setHost_bufBytes (s : State) (h : List HostAction) : (s.setHost h).bufBytes = s.bufBytes := rfl
@[simp] theorem State.setHost_buf (s : State) (h : List HostAction) : (s.setHost h).buf = s.buf := rfl
@[simp] theorem State.setHost_slots (s : State) (h : List HostAction) : (s.setHost h).slots = s.slots := rfl
@[simp] theorem State.setHost_host (s : State) (h : List HostAction) : (s.setHost h).host = h := rfl

@[simp] theorem State.setSlot_arg0 (s : State) (i : Nat) (x : Slot) : (s.setSlot i x).arg0 = s.arg0 := rfl
@[simp] theorem State.setSlot_arg1 (s : State) (i : Nat) (x : Slot) : (s.setSlot i x).arg1 = s.arg1 := rfl
@[simp] theorem State.setSlot_arg2 (s : State) (i : Nat) (x : Slot) : (s.setSlot i x).arg2 = s.arg2 := rfl
@[simp] theorem State.setSlot_arg3 (s : State) (i : Nat) (x : Slot) : (s.setSlot i x).arg3 = s.arg3 := rfl
@[simp] theorem State.setSlot_res0 (s : State) (i : Nat) (x : Slot) : (s.setSlot i x).res0 = s.res0 := rfl
@[simp] theorem State.setSlot_res1 (s : State) (i : Nat) (x : Slot) : (s.setSlot i x).res1 = s.res1 := rfl
@[simp] theorem State.setSlot_status (s : State) (i : Nat) (x : Slot) : (s.setSlot i x).status = s.status := rfl
@[simp] theorem State.setSlot_err (s : State) (i : Nat) (x : Slot) : (s.setSlot i x).err = s.err := rfl
@[simp] theorem State.setSlot_len (s : State) (i : Nat) (x : Slot) : (s.setSlot i x).len = s.len := rfl
@[simp] theorem State.setSlot_staging (s : State) (i : Nat) (x : Slot) : (s.setSlot i x).staging = s.staging := rfl
@[simp] theorem State.setSlot_bufBytes (s : State) (i : Nat) (x : Slot) : (s.setSlot i x).bufBytes = s.bufBytes := rfl
@[simp] theorem State.setSlot_buf (s : State) (i : Nat) (x : Slot) : (s.setSlot i x).buf = s.buf := rfl
@[simp] theorem State.setSlot_slots (s : State) (i : Nat) (x : Slot) : (s.setSlot i x).slots = s.slots.set i x := rfl
@[simp] theorem State.setSlot_host (s : State) (i : Nat) (x : Slot) : (s.setSlot i x).host = s.host := rfl

@[simp] theorem State.setArg_res0 (s : State) (k : Fin 4) (v : Word64) : (s.setArg k v).res0 = s.res0 := by
  unfold State.setArg; split <;> rfl
@[simp] theorem State.setArg_res1 (s : State) (k : Fin 4) (v : Word64) : (s.setArg k v).res1 = s.res1 := by
  unfold State.setArg; split <;> rfl
@[simp] theorem State.setArg_status (s : State) (k : Fin 4) (v : Word64) : (s.setArg k v).status = s.status := by
  unfold State.setArg; split <;> rfl
@[simp] theorem State.setArg_err (s : State) (k : Fin 4) (v : Word64) : (s.setArg k v).err = s.err := by
  unfold State.setArg; split <;> rfl
@[simp] theorem State.setArg_len (s : State) (k : Fin 4) (v : Word64) : (s.setArg k v).len = s.len := by
  unfold State.setArg; split <;> rfl
@[simp] theorem State.setArg_staging (s : State) (k : Fin 4) (v : Word64) : (s.setArg k v).staging = s.staging := by
  unfold State.setArg; split <;> rfl
@[simp] theorem State.setArg_bufBytes (s : State) (k : Fin 4) (v : Word64) : (s.setArg k v).bufBytes = s.bufBytes := by
  unfold State.setArg; split <;> rfl
@[simp] theorem State.setArg_buf (s : State) (k : Fin 4) (v : Word64) : (s.setArg k v).buf = s.buf := by
  unfold State.setArg; split <;> rfl
@[simp] theorem State.setArg_slots (s : State) (k : Fin 4) (v : Word64) : (s.setArg k v).slots = s.slots := by
  unfold State.setArg; split <;> rfl
@[simp] theorem State.setArg_host (s : State) (k : Fin 4) (v : Word64) : (s.setArg k v).host = s.host := by
  unfold State.setArg; split <;> rfl

/-! ### The last of two updates of one field wins, and an update of ERR can be done last -/

@[simp] theorem State.setErr_setErr (s : State) (v v' : BitVec 8) : (s.setErr v).setErr v' = s.setErr v' := rfl
@[simp] theorem State.setStatus_setStatus (s : State) (v v' : BitVec 3) : (s.setStatus v).setStatus v' = s.setStatus v' := rfl
@[simp] theorem State.setRes0_setRes0 (s : State) (v v' : Word64) : (s.setRes0 v).setRes0 v' = s.setRes0 v' := rfl
@[simp] theorem State.setRes1_setRes1 (s : State) (v v' : Word64) : (s.setRes1 v).setRes1 v' = s.setRes1 v' := rfl
@[simp] theorem State.setLen_setLen (s : State) (v v' : Word32) : (s.setLen v).setLen v' = s.setLen v' := rfl
@[simp] theorem State.setStaging_setStaging (s : State) (v v' : Staging) : (s.setStaging v).setStaging v' = s.setStaging v' := rfl
@[simp] theorem State.setBuf_setBuf (s : State) (m m' : Memory) : (s.setBuf m).setBuf m' = s.setBuf m' := rfl
@[simp] theorem State.setHost_setHost (s : State) (h h' : List HostAction) : (s.setHost h).setHost h' = s.setHost h' := rfl
theorem State.setStatus_setErr (s : State) (e : BitVec 8) (v : BitVec 3) : (s.setErr e).setStatus v = (s.setStatus v).setErr e := rfl
theorem State.setRes0_setErr (s : State) (e : BitVec 8) (v : Word64) : (s.setErr e).setRes0 v = (s.setRes0 v).setErr e := rfl
theorem State.setRes1_setErr (s : State) (e : BitVec 8) (v : Word64) : (s.setErr e).setRes1 v = (s.setRes1 v).setErr e := rfl
theorem State.setLen_setErr (s : State) (e : BitVec 8) (v : Word32) : (s.setErr e).setLen v = (s.setLen v).setErr e := rfl
theorem State.setStaging_setErr (s : State) (e : BitVec 8) (v : Staging) : (s.setErr e).setStaging v = (s.setStaging v).setErr e := rfl
theorem State.setBuf_setErr (s : State) (e : BitVec 8) (m : Memory) : (s.setErr e).setBuf m = (s.setBuf m).setErr e := rfl
theorem State.setHost_setErr (s : State) (e : BitVec 8) (h : List HostAction) : (s.setErr e).setHost h = (s.setHost h).setErr e := rfl
theorem State.setSlot_setErr (s : State) (e : BitVec 8) (i : Nat) (x : Slot) : (s.setErr e).setSlot i x = (s.setSlot i x).setErr e := rfl

/-- Two states are equal when all their fields are. -/
theorem State.ext_fields {s t : State} (h0 : s.arg0 = t.arg0) (h1 : s.arg1 = t.arg1) (h2 : s.arg2 = t.arg2)
    (h3 : s.arg3 = t.arg3) (h4 : s.res0 = t.res0) (h5 : s.res1 = t.res1) (h6 : s.status = t.status)
    (h7 : s.err = t.err) (h8 : s.len = t.len) (h9 : s.staging = t.staging) (h10 : s.bufBytes = t.bufBytes)
    (h11 : s.buf = t.buf) (h12 : s.slots = t.slots) (h13 : s.host = t.host) : s = t := by
  cases s; cases t; simp_all

end Sys2Proof.Machine
end

