-- ==== Sys2Proof/Laws/Ops.lean ====
section
/-! SUPPORT. One specification lemma per shared operation: what each answers, and everything it can do. -/

namespace Sys2Proof.Machine

/-! ### Sequencing -/

@[simp] theorem access_ok_bind {α β : Type} (a : α) (f : α → Access β) : (Except.ok a >>= f) = f a := rfl

@[simp] theorem access_error_bind {α β : Type} (e : Stop) (f : α → Access β) :
    ((Except.error e : Access α) >>= f) = .error e := rfl

/-- A sequence that succeeds: its first part does, and its second on what the first gave. -/
theorem access_bind_eq_ok {α β : Type} {x : Access α} {f : α → Access β} {b : β} :
    (x >>= f) = .ok b ↔ ∃ a, x = .ok a ∧ f a = .ok b := by
  cases x <;> simp

@[simp] theorem run_ok (t : State) : run (.ok t) = .next t := rfl

/-- A run answers a next state exactly where the accesses succeed. -/
theorem run_eq_next {a : Access State} {t : State} : run a = .next t ↔ a = .ok t := by
  unfold run
  constructor
  · intro h
    split at h <;> first | (cases h; rfl) | cases h
  · intro h
    subst h
    rfl

/-- An error ends a command with its code and nothing else (R404). -/
@[simp] theorem raise_eq (s : State) (k : ErrKind) : raise s k = .next (s.setErr k.code) := rfl

@[simp] theorem complete_eq (s : State) : complete s = .next (s.setErr noError) := rfl

theorem errKind_code_ne_noError (k : ErrKind) : k.code ≠ noError := by cases k <;> decide

theorem errKind_code_le (k : ErrKind) : k.code.toNat ≤ 7 := by cases k <;> decide

theorem status_code_ne_seven (st : Status) : st.code ≠ 7 := by cases st <;> decide

/-! ### One byte -/

/-- A byte is read exactly where it exists and holds a value. -/
theorem readByte_eq_ok {s : State} {a : Nat} {b : Byte} :
    readByte s a = .ok b ↔ a < s.bufBytes ∧ s.buf.get? a = some b := by
  unfold readByte
  split
  · split <;> simp_all
  · simp_all

/-- A byte is written exactly where it exists. -/
theorem writeByte_eq_ok {s t : State} {a : Nat} {b : Byte} :
    writeByte s a b = .ok t ↔ a < s.bufBytes ∧ t = s.setBuf (s.buf.set a b) := by
  unfold writeByte
  split <;> simp_all [eq_comm]

/-! ### Byte ranges -/

/-- A range is read exactly where every byte of it exists and holds a value. -/
theorem readBytes_eq_ok {s : State} : ∀ {n a : Nat} {bs : List Byte},
    readBytes s a n = .ok bs ↔ bs.length = n ∧ ∀ k, k < n → a + k < s.bufBytes ∧ s.buf.get? (a + k) = bs[k]?
  | 0, a, bs => by
    simp only [readBytes]
    constructor
    · intro h
      cases h
      simp
    · rintro ⟨h, -⟩
      rw [List.length_eq_zero_iff.mp h]
  | n + 1, a, bs => by
    simp only [readBytes, access_bind_eq_ok, readByte_eq_ok, readBytes_eq_ok (n := n)]
    constructor
    · rintro ⟨b, ⟨h1, h2⟩, rest, ⟨h3, h4⟩, h5⟩
      cases h5
      refine ⟨by simp [h3], fun k hk => ?_⟩
      cases k with
      | zero => simpa using ⟨h1, h2⟩
      | succ k =>
        have := h4 k (by omega)
        rw [show a + 1 + k = a + (k + 1) by omega] at this
        simpa using this
    · rintro ⟨h1, h2⟩
      obtain ⟨b, rest, rfl⟩ : ∃ b rest, bs = b :: rest := by
        cases bs with
        | nil => simp at h1
        | cons b rest => exact ⟨b, rest, rfl⟩
      refine ⟨b, by simpa using h2 0 (by omega), rest, ⟨by simpa using h1, fun k hk => ?_⟩, rfl⟩
      have := h2 (k + 1) (by omega)
      rw [show a + (k + 1) = a + 1 + k by omega] at this
      simpa using this

/-- A message is one with no byte left out. -/
theorem Message.but {s : State} {bs : List Byte} (hm : Message s bs) (blank : Nat → Prop) : MessageBut blank s bs :=
  ⟨hm.length_eq, hm.fits, fun a h _ => hm.byte_eq a h⟩

/-- A message every byte of which holds a value. -/
theorem MessageBut.message {blank : Nat → Prop} {s : State} {bs : List Byte} (hm : MessageBut blank s bs)
    (h : ∀ a, ¬blank a) : Message s bs := ⟨hm.length_eq, hm.fits, fun a ha => hm.byte_eq a ha (h a)⟩

/-- A range of a message whose bytes hold values is read as that slice of it. -/
theorem readBytes_messageBut {blank : Nat → Prop} {s : State} {bs : List Byte} (hm : MessageBut blank s bs) {a n : Nat}
    (h : a + n ≤ s.len.toNat) (hb : ∀ x, a ≤ x → x < a + n → ¬blank x) : readBytes s a n = .ok (slice bs a n) := by
  rw [readBytes_eq_ok]
  have hl := hm.length_eq
  refine ⟨by simp [slice]; omega, fun k hk => ⟨by have := hm.fits; omega, ?_⟩⟩
  rw [hm.byte_eq _ (by omega) (hb _ (by omega) (by omega))]
  simp [slice, List.getElem?_drop, hk]

/-- A range of a message is read as that slice of it. -/
theorem readBytes_message {s : State} {bs : List Byte} (hm : Message s bs) {a n : Nat} (h : a + n ≤ s.len.toNat) :
    readBytes s a n = .ok (slice bs a n) := readBytes_messageBut (hm.but fun _ => False) h fun _ _ _ => id

/-- Everything a write of a byte range does: the bytes are there, and nothing else has changed. -/
theorem writeBytes_eq_ok : ∀ {bs : List Byte} {s t : State} {a : Nat}, writeBytes s a bs = .ok t →
    (bs = [] ∨ a + bs.length ≤ s.bufBytes) ∧ ∃ m, t = s.setBuf m ∧
      (∀ x, m.get? x = if a ≤ x ∧ x < a + bs.length then bs[x - a]? else s.buf.get? x) ∧
      (s.buf.wf = true → m.wf = true) ∧ ∀ n, (∀ c ∈ s.buf, c.1 < n) → a + bs.length ≤ n → ∀ c ∈ m, c.1 < n
  | [], s, t, a, h => by
    cases h
    refine ⟨.inl rfl, s.buf, rfl, fun x => ?_, id, fun n h _ => h⟩
    rw [if_neg (by simp)]
  | b :: bs, s, t, a, h => by
    simp only [writeBytes, access_bind_eq_ok, writeByte_eq_ok] at h
    obtain ⟨s', ⟨ha, rfl⟩, h⟩ := h
    obtain ⟨h1, m, rfl, hget, hwf, hb⟩ := writeBytes_eq_ok h
    refine ⟨.inr ?_, m, rfl, fun x => ?_, fun hw => hwf (Memory.wf_set a b hw), fun n hn hlen => ?_⟩
    · rcases h1 with h1 | h1
      · subst h1; simpa using ha
      · simp only [State.setBuf_bufBytes] at h1; simp only [List.length_cons]; omega
    · rw [hget, State.setBuf_buf, Memory.get?_set]
      by_cases hx : x = a
      · subst hx
        simp
      · by_cases h2 : a ≤ x ∧ x < a + (b :: bs).length
        · rw [if_pos h2, if_pos (by simp only [List.length_cons] at h2; omega)]
          obtain ⟨k, rfl⟩ : ∃ k, x = a + 1 + k := ⟨x - (a + 1), by omega⟩
          rw [show a + 1 + k - (a + 1) = k by omega, show a + 1 + k - a = k + 1 by omega]
          rfl
        · rw [if_neg h2, if_neg (by simp only [List.length_cons] at h2; omega), if_neg hx]
    · refine hb n (fun c hc => ?_) (by simp only [List.length_cons] at hlen; omega)
      rcases Memory.mem_set hc with rfl | hc
      · simp only [List.length_cons] at hlen; omega
      · exact hn c hc

/-- A byte range inside the buffer can be written. -/
theorem writeBytes_ok : ∀ {bs : List Byte} {s : State} {a : Nat}, a + bs.length ≤ s.bufBytes →
    ∃ t, writeBytes s a bs = .ok t
  | [], s, a, _ => ⟨s, rfl⟩
  | b :: bs, s, a, h => by
    simp only [List.length_cons] at h
    obtain ⟨t, ht⟩ := writeBytes_ok (bs := bs) (s := s.setBuf (s.buf.set a b)) (a := a + 1) (by simp; omega)
    exact ⟨t, by
      simp only [writeBytes, access_bind_eq_ok, writeByte_eq_ok]
      exact ⟨_, ⟨by omega, rfl⟩, ht⟩⟩

/-- A message after a write inside it is the patched message, the bytes written hold values, and only the buffer has
changed. -/
theorem writeBytes_messageBut {blank blank' : Nat → Prop} {s : State} {bs new : List Byte} (hm : MessageBut blank s bs)
    {a : Nat} (h : a + new.length ≤ s.len.toNat) (hb : ∀ x, blank x → blank' x ∨ (a ≤ x ∧ x < a + new.length)) :
    ∃ m, writeBytes s a new = .ok (s.setBuf m) ∧ MessageBut blank' (s.setBuf m) (patch bs a new) ∧
      (∀ x, m.get? x = if a ≤ x ∧ x < a + new.length then new[x - a]? else s.buf.get? x) := by
  obtain ⟨t, ht⟩ := writeBytes_ok (bs := new) (s := s) (a := a) (by have := hm.fits; omega)
  obtain ⟨-, m, rfl, hget, -, -⟩ := writeBytes_eq_ok ht
  have hl := hm.length_eq
  refine ⟨m, ht, ⟨by simp [patch]; omega, by simpa using hm.fits, fun x hx hx' => ?_⟩, hget⟩
  simp only [State.setBuf_len, State.setBuf_buf] at hx ⊢
  rw [hget, patch, List.append_assoc, List.getElem?_append, List.getElem?_append]
  have ht' : (bs.take a).length = a := by simp; omega
  simp only [ht']
  by_cases h2 : a ≤ x ∧ x < a + new.length
  · rw [if_pos h2, if_neg (by omega), if_pos (by omega)]
  · rw [if_neg h2, hm.byte_eq _ hx fun hc => (hb x hc).elim hx' h2]
    by_cases h1 : x < a
    · rw [if_pos h1, List.getElem?_take_of_lt h1]
    · rw [if_neg h1, if_neg (by omega), List.getElem?_drop]
      congr 1
      omega

/-- A message after a write inside it is the patched message, and only the buffer has changed. -/
theorem writeBytes_message {s : State} {bs new : List Byte} (hm : Message s bs) {a : Nat}
    (h : a + new.length ≤ s.len.toNat) :
    ∃ m, writeBytes s a new = .ok (s.setBuf m) ∧ Message (s.setBuf m) (patch bs a new) ∧
      (∀ x, m.get? x = if a ≤ x ∧ x < a + new.length then new[x - a]? else s.buf.get? x) := by
  obtain ⟨m, h1, h2, h3⟩ := writeBytes_messageBut (hm.but fun _ => False) (blank' := fun _ => False) h fun _ => .inl
  exact ⟨m, h1, h2.message fun _ => id, h3⟩

end Sys2Proof.Machine
end

