-- ==== Sys2Proof/Laws/Fields.lean ====
section
/-! SUPPORT. Big-endian numbers, fields, nibbles and the covered bytes of a message. -/

namespace Sys2Proof.Machine

/-! ### Big-endian numbers (R60, R61) -/

theorem beValue_foldl (bs : List Byte) : ∀ x : Nat,
    bs.foldl (fun acc b => acc * 256 + b.toNat) x = x * 256 ^ bs.length + beValue bs := by
  induction bs with
  | nil => intro x; simp [beValue]
  | cons b bs ih =>
    intro x
    simp only [List.foldl_cons, List.length_cons, beValue, ih (x * 256 + b.toNat), ih (0 * 256 + b.toNat)]
    ring

@[simp] theorem beValue_nil : beValue [] = 0 := rfl

/-- The first byte is the most significant. -/
theorem beValue_cons (b : Byte) (bs : List Byte) : beValue (b :: bs) = b.toNat * 256 ^ bs.length + beValue bs := by
  have := beValue_foldl bs (0 * 256 + b.toNat)
  simpa [beValue] using this

theorem beValue_append (as bs : List Byte) : beValue (as ++ bs) = beValue as * 256 ^ bs.length + beValue bs := by
  have := beValue_foldl bs (beValue as)
  simpa [beValue, List.foldl_append] using this

/-- The value of `n` bytes is below `256^n`. -/
theorem beValue_lt (bs : List Byte) : beValue bs < 256 ^ bs.length := by
  induction bs with
  | nil => simp
  | cons b bs ih =>
    rw [beValue_cons, List.length_cons, pow_succ]
    have hb : b.toNat < 256 := b.isLt
    nlinarith [Nat.pos_of_ne_zero (pow_ne_zero bs.length (show (256 : ℕ) ≠ 0 by decide))]

@[simp] theorem beBytes_length (n v : Nat) : (beBytes n v).length = n := by simp [beBytes]

@[simp] theorem beBytes_zero (v : Nat) : beBytes 0 v = [] := rfl

theorem beBytes_succ (n v : Nat) : beBytes (n + 1) v = BitVec.ofNat 8 (v / 256 ^ n) :: beBytes n v := by
  simp only [beBytes, List.range_succ_eq_map, List.map_cons, List.map_map]
  congr 1
  apply List.map_congr_left
  intro k _
  simp only [Function.comp]
  rw [show n + 1 - 1 - (k + 1) = n - 1 - k by omega]

/-- Reading back the bytes of a number gives the number, as far as it fits. -/
theorem beValue_beBytes (n v : Nat) : beValue (beBytes n v) = v % 256 ^ n := by
  induction n with
  | zero => simp [Nat.mod_one]
  | succ n ih =>
    have h := Nat.mod_mul (a := 256 ^ n) (b := 256) (x := v)
    rw [beBytes_succ, beValue_cons, ih, beBytes_length, BitVec.toNat_ofNat, show 256 ^ (n + 1) = 256 ^ n * 256 from rfl, h,
      show 2 ^ 8 = 256 from rfl]
    ring

/-! ### Fields of a message -/

@[simp] theorem slice_length (bs : List Byte) (a n : Nat) : (slice bs a n).length = min n (bs.length - a) := by
  simp [slice]

@[simp] theorem patch_length {bs new : List Byte} {a : Nat} (h : a + new.length ≤ bs.length) :
    (patch bs a new).length = bs.length := by
  simp [patch]; omega

/-- Reading bytes the buffer holds. -/
theorem readBytes_holds : ∀ {bs : List Byte} {s : State} {a : Nat}, Holds s a bs → readBytes s a bs.length = .ok bs
  | [], _, _, _ => rfl
  | b :: bs, s, a, h => by
    have h0 := h.2 0 (by simp)
    have h1 := h.1
    simp only [List.length_cons] at h1
    have hb : readByte s a = .ok b := readByte_eq_ok.mpr ⟨by omega, by simpa using h0⟩
    have ht : Holds s (a + 1) bs := ⟨by omega, fun k hk => by
      have := h.2 (k + 1) (by simpa using hk)
      rw [show a + 1 + k = a + (k + 1) by omega, this, List.getElem?_cons_succ]⟩
    simp only [List.length_cons, readBytes, hb, readBytes_holds ht, access_ok_bind]

/-- `MemRead` inside a message is the field. -/
theorem memRead_message {s : State} {bs : List Byte} (hm : Message s bs) {a n : Nat} (h : a + n ≤ s.len.toNat) :
    memRead s a n = .ok (field bs a n) := by
  simp [memRead, readBytes_message hm h, field]

/-- `MemWrite` inside a message patches it, gives the field's bytes values, and changes nothing but the buffer. -/
theorem memWrite_messageBut {blank blank' : Nat → Prop} {s : State} {bs : List Byte} (hm : MessageBut blank s bs)
    {a n : Nat} (v : Nat) (h : a + n ≤ s.len.toNat) (hb : ∀ x, blank x → blank' x ∨ (a ≤ x ∧ x < a + n)) :
    ∃ m, memWrite s a n v = .ok (s.setBuf m) ∧ MessageBut blank' (s.setBuf m) (patch bs a (beBytes n v)) ∧
      (∀ x, m.get? x = if a ≤ x ∧ x < a + n then (beBytes n v)[x - a]? else s.buf.get? x) := by
  have := writeBytes_messageBut (new := beBytes n v) hm (a := a) (blank' := blank') (by simpa using h) (by simpa using hb)
  simpa [memWrite] using this

/-- Everything a `MemWrite` does: the field's bytes are there, and nothing else has changed. -/
theorem memWrite_eq_ok {s t : State} {a n v : Nat} (h : memWrite s a n v = .ok t) :
    ∃ m, t = s.setBuf m ∧
      (∀ x, m.get? x = if a ≤ x ∧ x < a + n then (beBytes n v)[x - a]? else s.buf.get? x) ∧
      (s.buf.wf = true → m.wf = true) ∧ ((∀ c ∈ s.buf, c.1 < s.bufBytes) → ∀ c ∈ m, c.1 < s.bufBytes) := by
  obtain ⟨h1, m, rfl, hg, hw, hb⟩ := writeBytes_eq_ok h
  simp only [beBytes_length] at h1 hg hb
  refine ⟨m, rfl, hg, hw, fun hc c hcm => ?_⟩
  rcases h1 with h1 | h1
  · have : n = 0 := by simpa using congrArg List.length h1
    subst this
    rcases c with ⟨k, b⟩
    simp only [memWrite, beBytes_zero, writeBytes] at h
    have hm : m = s.buf := by
      have := Except.ok.inj h
      exact (congrArg State.buf this).symm
    subst hm
    exact hc _ hcm
  · exact hb s.bufBytes hc h1 c hcm

/-! ### Nibbles (R62, R162) -/

theorem nibbleOf_lt (o : Nat) (b : Byte) : nibbleOf o b < 16 := by
  have : b.toNat < 256 := b.isLt
  unfold nibbleOf
  split <;> omega

theorem withNibble_toNat (o : Nat) (b : Byte) {v : Nat} (hv : v < 16) : (withNibble o b v).toNat =
    if o % 8 = 0 then b.toNat / 16 * 16 + v else v * 16 + b.toNat % 16 := by
  have : b.toNat < 256 := b.isLt
  rw [withNibble, BitVec.toNat_ofNat]
  split <;> omega

/-- A nibble read after a nibble write gives the value written. -/
theorem nibbleOf_withNibble (o : Nat) (b : Byte) {v : Nat} (hv : v < 16) : nibbleOf o (withNibble o b v) = v := by
  have : b.toNat < 256 := b.isLt
  unfold nibbleOf
  rw [withNibble_toNat o b hv]
  split <;> omega

/-- The other nibble of the byte keeps its value. -/
theorem nibbleOf_withNibble_other {o o' : Nat} (b : Byte) {v : Nat} (hv : v < 16) (h : (o % 8 = 0) ≠ (o' % 8 = 0)) :
    nibbleOf o' (withNibble o b v) = nibbleOf o' b := by
  have : b.toNat < 256 := b.isLt
  unfold nibbleOf
  rw [withNibble_toNat o b hv]
  by_cases h1 : o % 8 = 0 <;> by_cases h2 : o' % 8 = 0 <;> simp_all
  all_goals omega

/-- Everything a nibble read needs. -/
theorem nibRead_eq_ok {s : State} {o v : Nat} : nibRead s o = .ok v ↔
    ∃ b, o / 8 < s.bufBytes ∧ s.buf.get? (o / 8) = some b ∧ v = nibbleOf o b := by
  simp only [nibRead, access_bind_eq_ok, readByte_eq_ok]
  constructor
  · rintro ⟨b, ⟨h1, h2⟩, h3⟩
    exact ⟨b, h1, h2, (Except.ok.inj h3).symm⟩
  · rintro ⟨b, h1, h2, rfl⟩
    exact ⟨b, ⟨h1, h2⟩, rfl⟩

/-- Everything a nibble write does: one byte has four new bits, and nothing else has changed. -/
theorem nibWrite_eq_ok {s t : State} {o v : Nat} : nibWrite s o v = .ok t ↔
    ∃ b, o / 8 < s.bufBytes ∧ s.buf.get? (o / 8) = some b ∧ t = s.setBuf (s.buf.set (o / 8) (withNibble o b v)) := by
  simp only [nibWrite, access_bind_eq_ok, readByte_eq_ok, writeByte_eq_ok]
  constructor
  · rintro ⟨b, ⟨h1, h2⟩, -, h3⟩
    exact ⟨b, h1, h2, h3⟩
  · rintro ⟨b, h1, h2, h3⟩
    exact ⟨b, ⟨h1, h2⟩, h1, h3⟩

theorem messageBut_byte {blank : Nat → Prop} {s : State} {bs : List Byte} (hm : MessageBut blank s bs) {a : Nat}
    (h : a < s.len.toNat) (hb : ¬blank a) : s.buf.get? a = some (byteOf bs a) := by
  have hl := hm.length_eq
  rw [hm.byte_eq a h hb, byteOf, List.getD_eq_getElem?_getD, List.getElem?_eq_getElem (by omega)]
  rfl

theorem message_byte {s : State} {bs : List Byte} (hm : Message s bs) {a : Nat} (h : a < s.len.toNat) :
    s.buf.get? a = some (byteOf bs a) := messageBut_byte (hm.but fun _ => False) h id

/-- A nibble of a message whose byte holds a value. -/
theorem nibRead_messageBut {blank : Nat → Prop} {s : State} {bs : List Byte} (hm : MessageBut blank s bs) {o : Nat}
    (h : o / 8 < s.len.toNat) (hb : ¬blank (o / 8)) : nibRead s o = .ok (nibbleOf o (byteOf bs (o / 8))) :=
  nibRead_eq_ok.mpr ⟨_, h.trans_le hm.fits, messageBut_byte hm h hb, rfl⟩

/-- A nibble of a message. -/
theorem nibRead_message {s : State} {bs : List Byte} (hm : Message s bs) {o : Nat} (h : o / 8 < s.len.toNat) :
    nibRead s o = .ok (nibbleOf o (byteOf bs (o / 8))) := nibRead_messageBut (hm.but fun _ => False) h id

/-- A nibble write inside a message, in a byte that holds a value, patches one byte of it and changes nothing but the
buffer. -/
theorem nibWrite_messageBut {blank : Nat → Prop} {s : State} {bs : List Byte} (hm : MessageBut blank s bs) {o : Nat}
    (v : Nat) (h : o / 8 < s.len.toNat) (hb : ¬blank (o / 8)) :
    ∃ m, nibWrite s o v = .ok (s.setBuf m) ∧
      MessageBut blank (s.setBuf m) (patch bs (o / 8) [withNibble o (byteOf bs (o / 8)) v]) ∧
      (∀ x, m.get? x = if x = o / 8 then some (withNibble o (byteOf bs (o / 8)) v) else s.buf.get? x) := by
  have hw : nibWrite s o v = .ok (s.setBuf (s.buf.set (o / 8) (withNibble o (byteOf bs (o / 8)) v))) :=
    nibWrite_eq_ok.mpr ⟨_, h.trans_le hm.fits, messageBut_byte hm h hb, rfl⟩
  refine ⟨_, hw, ?_, fun x => Memory.get?_set ..⟩
  obtain ⟨m, h1, h2, -⟩ := writeBytes_messageBut (new := [withNibble o (byteOf bs (o / 8)) v]) hm (a := o / 8)
    (blank' := blank) (by simpa using h) fun _ => .inl
  have h3 : writeBytes s (o / 8) [withNibble o (byteOf bs (o / 8)) v] =
      .ok (s.setBuf (s.buf.set (o / 8) (withNibble o (byteOf bs (o / 8)) v))) := by
    have : writeByte s (o / 8) (withNibble o (byteOf bs (o / 8)) v) =
        .ok (s.setBuf (s.buf.set (o / 8) (withNibble o (byteOf bs (o / 8)) v))) :=
      writeByte_eq_ok.mpr ⟨h.trans_le hm.fits, rfl⟩
    simp only [writeBytes, this]
    rfl
  rw [h3] at h1
  rwa [← Except.ok.inj h1] at h2

/-- The covered bytes of a message all of whose other bytes hold values (R224). -/
theorem coverBytes_messageBut {blank : Nat → Prop} {s : State} {bs : List Byte} (hm : MessageBut blank s bs)
    {c0 cn : Nat} (h : c0 + cn ≤ s.len.toNat) (hb : ∀ x, blank x → c0 ≤ x ∧ x < c0 + cn) :
    coverBytes s c0 cn = .ok (coverOf bs c0 cn) := by
  have hl := hm.length_eq
  rw [coverBytes, readBytes_messageBut hm (by omega) fun x _ h2 hc => by have := hb x hc; omega, access_ok_bind,
    readBytes_messageBut hm (by omega) fun x h1 _ hc => by have := hb x hc; omega, access_ok_bind, coverOf,
    slice, slice, List.drop_zero, List.take_of_length_le (l := bs.drop (c0 + cn)) (by simp; omega)]

/-- The covered bytes of a message (R224). -/
theorem coverBytes_message {s : State} {bs : List Byte} (hm : Message s bs) {c0 cn : Nat} (h : c0 + cn ≤ s.len.toNat) :
    coverBytes s c0 cn = .ok (coverOf bs c0 cn) := coverBytes_messageBut (hm.but fun _ => False) h fun _ => False.elim

/-! ### The slot file -/

/-- A format S command acts on its slot, or is illegal where there is no such slot (R95). -/
theorem withSlot_eq (s : State) (i : Nat) (f : Slot → Result) : withSlot s i f =
    match s.slots[i]? with
    | some x => f x
    | none => .next (s.setErr ErrKind.illegalCommand.code) := rfl

theorem withSlot_of_some {s : State} {i : Nat} {x : Slot} (f : Slot → Result) (h : s.slots[i]? = some x) :
    withSlot s i f = f x := by simp [withSlot, h]

end Sys2Proof.Machine
end

