-- ==== Sys2Proof/Laws/Framer.lean ====
section
/-! SUPPORT. What construct, protect and check can do, said once for all nine profiles. -/

namespace Sys2Proof.Machine

/-! ### Stores -/

/-- `t` is `s` with other buffer bytes at addresses in `P` at most; the buffer keeps its canonical form and stays below
BUF_BYTES. -/
def StoresOnly (P : Nat → Prop) (s t : State) : Prop :=
  ∃ m, t = s.setBuf m ∧ (∀ a, ¬P a → m.get? a = s.buf.get? a) ∧ (s.buf.wf = true → m.wf = true) ∧
    ((∀ c ∈ s.buf, c.1 < s.bufBytes) → ∀ c ∈ m, c.1 < s.bufBytes)

theorem StoresOnly.refl (P : Nat → Prop) (s : State) : StoresOnly P s s :=
  ⟨s.buf, rfl, fun _ _ => rfl, id, id⟩

theorem StoresOnly.trans {P : Nat → Prop} {s t u : State} (h1 : StoresOnly P s t) (h2 : StoresOnly P t u) :
    StoresOnly P s u := by
  obtain ⟨m, rfl, hm, hw, hb⟩ := h1
  obtain ⟨n, rfl, hn, hw', hb'⟩ := h2
  exact ⟨n, rfl, fun a ha => (hn a ha).trans (hm a ha), fun h => hw' (hw h), fun h => hb' (hb h)⟩

theorem storesOnly_memWrite {P : Nat → Prop} {s t : State} {a n v : Nat} (hP : ∀ x, a ≤ x → x < a + n → P x)
    (h : memWrite s a n v = .ok t) : StoresOnly P s t := by
  obtain ⟨m, rfl, hg, hw, hb⟩ := memWrite_eq_ok h
  exact ⟨m, rfl, fun x hx => by rw [hg, if_neg fun h => hx (hP x h.1 h.2)], hw, hb⟩

theorem storesOnly_nibWrite {P : Nat → Prop} {s t : State} {o v : Nat} (hP : P (o / 8)) (h : nibWrite s o v = .ok t) :
    StoresOnly P s t := by
  obtain ⟨b, h1, -, rfl⟩ := nibWrite_eq_ok.mp h
  refine ⟨_, rfl, fun x hx => Memory.get?_set_other _ _ fun h => hx (h ▸ hP), Memory.wf_set _ _, fun h c hc => ?_⟩
  rcases Memory.mem_set hc with rfl | hc
  · exact h1
  · exact h c hc

/-! ### Construct -/

/-- A construct raises its first violated test or makes the fresh instance, and does nothing else (R212, R217). -/
theorem construct_cases {s t : State} {i : Nat} {tests : List (Bool × ErrKind)} {fresh : Slot}
    (h : construct s i tests fresh = .next t) :
    (∃ k, firstViolated tests = some k ∧ t = s.setErr k.code) ∨
    (firstViolated tests = none ∧ t = (s.setSlot i fresh).setErr noError) := by
  unfold construct at h
  split at h
  · rename_i k hk
    exact .inl ⟨k, hk, by simpa using h.symm⟩
  · rename_i hk
    exact .inr ⟨hk, by simpa using h.symm⟩

/-- No test of a list is violated exactly where all are not. -/
theorem firstViolated_eq_none {l : List (Bool × ErrKind)} : firstViolated l = none ↔ ∀ x ∈ l, x.1 = false := by
  induction l with
  | nil => simp [firstViolated]
  | cons x l ih =>
    obtain ⟨b, k⟩ := x
    cases b <;> simp [firstViolated, ih]

/-- The first violated test of a list is `k`: the head, or the head holds and the first of the rest is `k`. -/
theorem firstViolated_cons_eq_some {b : Bool} {k k' : ErrKind} {l : List (Bool × ErrKind)} :
    firstViolated ((b, k) :: l) = some k' ↔ (b = true ∧ k = k') ∨ (b = false ∧ firstViolated l = some k') := by
  cases b <;> simp [firstViolated]

/-! ### Protect -/

/-- The fields a frame stamps, and its CRC field, lie in `P`. -/
structure Frame.Within {w : Nat} (fr : Frame w) (P : Nat → Prop) : Prop where
  stamp : ∀ tx s t, fr.stamp tx s = .ok t → StoresOnly P s t
  crcField : ∀ a, fr.crcAt ≤ a → a < fr.crcAt + fr.crcBytes → P a

/-- A protect raises DataLengthError, or stores to its fields, advances the counter and sets ERR to NoError; it does
nothing else (R221). -/
theorem protect_cases {C : Type} {w : Nat} {fr : Frame w} {P : Nat → Prop} (hP : fr.Within P) {put : Inst C w → Slot}
    {x : Inst C w} {i : Nat} {s t : State} (h : protect fr put x i s = .next t) :
    (fr.lenOk s.len.toNat = false ∧ t = s.setErr ErrKind.dataLengthError.code) ∨
    (fr.lenOk s.len.toNat = true ∧
      ∃ u, StoresOnly P s u ∧ t = (u.setSlot i (put { x with tx := x.tx + 1 })).setErr noError) := by
  unfold protect at h
  split at h
  · rename_i hl
    obtain ⟨s1, h1, h⟩ := access_bind_eq_ok.mp (run_eq_next.mp h)
    obtain ⟨v, -, h⟩ := access_bind_eq_ok.mp h
    obtain ⟨s2, h2, h⟩ := access_bind_eq_ok.mp h
    exact .inr ⟨hl, s2, (hP.stamp _ _ _ h1).trans (storesOnly_memWrite hP.crcField h2), (Except.ok.inj h).symm⟩
  · rename_i hl
    exact .inl ⟨by simpa using hl, by simpa using h.symm⟩

/-! ### Check -/

/-- A check reports a finding, or the classification of a received counter; it does nothing else (R230, R232). -/
theorem check_cases {C : Type} {w : Nat} {fr : Frame w} {put : Inst C w → Slot} {x : Inst C w} {i : Nat} {s t : State}
    (h : check fr put x i s = .next t) :
    (∃ st, (st = .dataLengthError ∨ st = .crcError ∨ st = .dataIdError) ∧ t = finding s st) ∨
    (∃ r, fr.lenOk s.len.toNat = true ∧ fr.counter s = .ok r ∧ t = counterStage fr.delta put x i r s) := by
  unfold check at h
  split at h
  · rename_i hl
    obtain ⟨b1, -, h⟩ := access_bind_eq_ok.mp (run_eq_next.mp h)
    split at h
    · obtain ⟨stored, -, h⟩ := access_bind_eq_ok.mp h
      obtain ⟨computed, -, h⟩ := access_bind_eq_ok.mp h
      split at h
      · obtain ⟨b2, -, h⟩ := access_bind_eq_ok.mp h
        split at h
        · obtain ⟨r, hr, h⟩ := access_bind_eq_ok.mp h
          exact .inr ⟨r, hl, hr, (Except.ok.inj h).symm⟩
        · exact .inl ⟨_, .inr (.inr rfl), (Except.ok.inj h).symm⟩
      · exact .inl ⟨_, .inr (.inl rfl), (Except.ok.inj h).symm⟩
    · exact .inl ⟨_, .inl rfl, (Except.ok.inj h).symm⟩
  · exact .inl ⟨_, .inl rfl, by simpa using h.symm⟩

/-! ### The nine frames -/

theorem within_p4 (x : Inst (VarCfg 32) 16) : (frameP4 x.cfg).Within (InFields (.p4 x)) where
  stamp tx s t h := by
    obtain ⟨s1, h1, h⟩ := access_bind_eq_ok.mp h
    obtain ⟨s2, h2, h⟩ := access_bind_eq_ok.mp h
    refine ((storesOnly_memWrite ?_ h1).trans (storesOnly_memWrite ?_ h2)).trans (storesOnly_memWrite ?_ h) <;>
      (intro a ha hb; simp only [InFields, VarCfg.ob] at *; omega)
  crcField a ha hb := by simp only [InFields, frameP4, VarCfg.ob] at *; omega

theorem within_p4m (x : Inst MetaCfg 16) : (frameP4M x.cfg).Within (InFields (.p4m x)) where
  stamp tx s t h := by
    obtain ⟨s1, h1, h⟩ := access_bind_eq_ok.mp h
    obtain ⟨s2, h2, h⟩ := access_bind_eq_ok.mp h
    obtain ⟨s3, h3, h⟩ := access_bind_eq_ok.mp h
    refine (((storesOnly_memWrite ?_ h1).trans (storesOnly_memWrite ?_ h2)).trans (storesOnly_memWrite ?_ h3)).trans
      (storesOnly_memWrite ?_ h) <;> (intro a ha hb; simp only [InFields, VarCfg.ob] at *; omega)
  crcField a ha hb := by simp only [InFields, frameP4M, VarCfg.ob] at *; omega

theorem within_p5 (x : Inst FixCfg 8) : (frameP5 x.cfg).Within (InFields (.p5 x)) where
  stamp tx s t h := storesOnly_memWrite (by intro a ha hb; simp only [InFields, FixCfg.ob] at *; omega) h
  crcField a ha hb := by simp only [InFields, frameP5, FixCfg.ob] at *; omega

theorem within_p6 (x : Inst (VarCfg 16) 8) : (frameP6 x.cfg).Within (InFields (.p6 x)) where
  stamp tx s t h := by
    obtain ⟨s1, h1, h⟩ := access_bind_eq_ok.mp h
    refine (storesOnly_memWrite ?_ h1).trans (storesOnly_memWrite ?_ h) <;>
      (intro a ha hb; simp only [InFields, VarCfg.ob] at *; omega)
  crcField a ha hb := by simp only [InFields, frameP6, VarCfg.ob] at *; omega

theorem within_p7 (x : Inst (VarCfg 32) 32) : (frameP7 x.cfg).Within (InFields (.p7 x)) where
  stamp tx s t h := by
    obtain ⟨s1, h1, h⟩ := access_bind_eq_ok.mp h
    obtain ⟨s2, h2, h⟩ := access_bind_eq_ok.mp h
    refine ((storesOnly_memWrite ?_ h1).trans (storesOnly_memWrite ?_ h2)).trans (storesOnly_memWrite ?_ h) <;>
      (intro a ha hb; simp only [InFields, VarCfg.ob] at *; omega)
  crcField a ha hb := by simp only [InFields, frameP7, VarCfg.ob] at *; omega

theorem within_p7m (x : Inst MetaCfg 32) : (frameP7M x.cfg).Within (InFields (.p7m x)) where
  stamp tx s t h := by
    obtain ⟨s1, h1, h⟩ := access_bind_eq_ok.mp h
    obtain ⟨s2, h2, h⟩ := access_bind_eq_ok.mp h
    obtain ⟨s3, h3, h⟩ := access_bind_eq_ok.mp h
    refine (((storesOnly_memWrite ?_ h1).trans (storesOnly_memWrite ?_ h2)).trans (storesOnly_memWrite ?_ h3)).trans
      (storesOnly_memWrite ?_ h) <;> (intro a ha hb; simp only [InFields, VarCfg.ob] at *; omega)
  crcField a ha hb := by simp only [InFields, frameP7M, VarCfg.ob] at *; omega

theorem within_p8 (x : Inst (VarCfg 32) 32) : (frameP8 x.cfg).Within (InFields (.p8 x)) where
  stamp tx s t h := by
    obtain ⟨s1, h1, h⟩ := access_bind_eq_ok.mp h
    obtain ⟨s2, h2, h⟩ := access_bind_eq_ok.mp h
    refine ((storesOnly_memWrite ?_ h1).trans (storesOnly_memWrite ?_ h2)).trans (storesOnly_memWrite ?_ h) <;>
      (intro a ha hb; simp only [InFields, VarCfg.ob] at *; omega)
  crcField a ha hb := by simp only [InFields, frameP8, VarCfg.ob] at *; omega

theorem within_p11 (x : Inst P11Cfg 4) : (frameP11 x.cfg).Within (InFields (.p11 x)) where
  stamp tx s t h := by
    obtain ⟨s1, h1, h⟩ := access_bind_eq_ok.mp h
    have hc := storesOnly_nibWrite (P := InFields (.p11 x)) (.inr (.inl rfl)) h1
    split at h
    · cases h; exact hc
    · rename_i o ho
      exact hc.trans (storesOnly_nibWrite (.inr (.inr ⟨o, ho, rfl⟩)) h)
  crcField a ha hb := by simp only [InFields, frameP11, P11Cfg.cb] at *; omega

theorem within_p22 (x : Inst P22Cfg 4) : (frameP22 x.cfg).Within (InFields (.p22 x)) where
  stamp tx s t h := storesOnly_nibWrite (by simp only [InFields]; omega) h
  crcField a ha hb := by simp only [InFields, frameP22, P22Cfg.ob] at *; omega

end Sys2Proof.Machine
end

