-- ==== Sys2Proof/Laws/Commands.lean ====
section
/-! SUPPORT. Everything a command that answers a next state can have done: one inversion lemma for all 46. -/

namespace Sys2Proof.Machine

/-! ### The templates of the format N commands -/

theorem crcCommand_cases {w : Nat} {e : Engine w} {s t : State} (h : crcCommand e s = .next t) :
    (∃ k : ErrKind, t = s.setErr k.code) ∨ ∃ v, t = (s.setRes0 v).setErr noError := by
  unfold crcCommand at h
  split at h
  · exact .inl ⟨_, by simpa using h.symm⟩
  split at h
  · exact .inl ⟨_, by simpa using h.symm⟩
  · obtain ⟨bs, -, h⟩ := access_bind_eq_ok.mp (run_eq_next.mp h)
    exact .inr ⟨_, (Except.ok.inj h).symm⟩

theorem readField_cases {n : Nat} {s t : State} (h : readField n s = .next t) :
    (∃ k : ErrKind, t = s.setErr k.code) ∨ ∃ v, t = (s.setRes0 v).setErr noError := by
  unfold readField at h
  split at h
  · exact .inl ⟨_, by simpa using h.symm⟩
  split at h
  · exact .inl ⟨_, by simpa using h.symm⟩
  split at h
  · exact .inl ⟨_, by simpa using h.symm⟩
  · obtain ⟨v, -, h⟩ := access_bind_eq_ok.mp (run_eq_next.mp h)
    exact .inr ⟨_, (Except.ok.inj h).symm⟩

theorem execRdnib_cases {s t : State} (h : execRdnib s = .next t) :
    (∃ k : ErrKind, t = s.setErr k.code) ∨ ∃ v, t = (s.setRes0 v).setErr noError := by
  unfold execRdnib at h
  split at h
  · exact .inl ⟨_, by simpa using h.symm⟩
  split at h
  · exact .inl ⟨_, by simpa using h.symm⟩
  split at h
  · exact .inl ⟨_, by simpa using h.symm⟩
  · obtain ⟨v, -, h⟩ := access_bind_eq_ok.mp (run_eq_next.mp h)
    exact .inr ⟨_, (Except.ok.inj h).symm⟩

theorem writeField_cases {n : Nat} {s t : State} (h : writeField n s = .next t) :
    (∃ k : ErrKind, t = s.setErr k.code) ∨ ∃ u, StoresOnly (· < s.len.toNat) s u ∧ t = u.setErr noError := by
  unfold writeField at h
  split at h
  · exact .inl ⟨_, by simpa using h.symm⟩
  split at h
  · exact .inl ⟨_, by simpa using h.symm⟩
  split at h
  · exact .inl ⟨_, by simpa using h.symm⟩
  · rename_i hl
    obtain ⟨u, hu, h⟩ := access_bind_eq_ok.mp (run_eq_next.mp h)
    refine .inr ⟨u, storesOnly_memWrite (fun x h1 h2 => ?_) hu, (Except.ok.inj h).symm⟩
    simp [outsideMessage] at hl
    omega

theorem execWrnib_cases {s t : State} (h : execWrnib s = .next t) :
    (∃ k : ErrKind, t = s.setErr k.code) ∨ ∃ u, StoresOnly (· < s.len.toNat) s u ∧ t = u.setErr noError := by
  unfold execWrnib at h
  split at h
  · exact .inl ⟨_, by simpa using h.symm⟩
  split at h
  · exact .inl ⟨_, by simpa using h.symm⟩
  split at h
  · exact .inl ⟨_, by simpa using h.symm⟩
  · rename_i hl
    obtain ⟨u, hu, h⟩ := access_bind_eq_ok.mp (run_eq_next.mp h)
    refine .inr ⟨u, storesOnly_nibWrite ?_ hu, (Except.ok.inj h).symm⟩
    simp [outsideMessage] at hl
    omega

theorem cvalCommand_cases {w : Nat} {s t : State} (h : cvalCommand w s = .next t) :
    (∃ k : ErrKind, t = s.setErr k.code) ∨
    ∃ (st : Status) (v : Word64), t = (((s.setStatus st.code).setRes0 v).setRes1 1).setErr noError := by
  unfold cvalCommand at h
  split at h
  · exact .inl ⟨_, by simpa using h.symm⟩
  split at h
  · exact .inl ⟨_, by simpa using h.symm⟩
  · exact .inr ⟨_, _, by simpa using h.symm⟩

/-! ### Slots after a protect and after a check -/

/-- The slot after a protect: `tx_counter` advanced (R35). -/
def Slot.sent : Slot → Slot
  | .none => .none
  | .p4 x => .p4 { x with tx := x.tx + 1 }
  | .p4m x => .p4m { x with tx := x.tx + 1 }
  | .p5 x => .p5 { x with tx := x.tx + 1 }
  | .p6 x => .p6 { x with tx := x.tx + 1 }
  | .p7 x => .p7 { x with tx := x.tx + 1 }
  | .p7m x => .p7m { x with tx := x.tx + 1 }
  | .p8 x => .p8 { x with tx := x.tx + 1 }
  | .p11 x => .p11 { x with tx := x.tx + 1 }
  | .p22 x => .p22 { x with tx := x.tx + 1 }

/-- The slot with `rx_counter` set to `v` (R36). -/
def Slot.received (v : Nat) : Slot → Slot
  | .none => .none
  | .p4 x => .p4 { x with rx := some (BitVec.ofNat 16 v) }
  | .p4m x => .p4m { x with rx := some (BitVec.ofNat 16 v) }
  | .p5 x => .p5 { x with rx := some (BitVec.ofNat 8 v) }
  | .p6 x => .p6 { x with rx := some (BitVec.ofNat 8 v) }
  | .p7 x => .p7 { x with rx := some (BitVec.ofNat 32 v) }
  | .p7m x => .p7m { x with rx := some (BitVec.ofNat 32 v) }
  | .p8 x => .p8 { x with rx := some (BitVec.ofNat 32 v) }
  | .p11 x => .p11 { x with rx := some (BitVec.ofNat 4 v) }
  | .p22 x => .p22 { x with rx := some (BitVec.ofNat 4 v) }

/-- The tolerance of a slot's instance (R34). -/
def Slot.tolerance : Slot → Nat
  | .none => 0
  | .p4 x => x.cfg.delta.toNat
  | .p4m x => x.cfg.delta.toNat
  | .p5 x => x.cfg.delta.toNat
  | .p6 x => x.cfg.delta.toNat
  | .p7 x => x.cfg.delta.toNat
  | .p7m x => x.cfg.delta.toNat
  | .p8 x => x.cfg.delta.toNat
  | .p11 x => x.cfg.delta.toNat
  | .p22 x => x.cfg.delta.toNat

/-! ### Telling commands apart -/

/-- The upper four bits of the OPC of a command tell the families apart (R93). -/
def opcGroup (i : Instr) : Nat := opcOf i / 16

@[simp] theorem opcGroup_constructOf (p : Profile) (k : Nat) : opcGroup (constructOf p k) = 4 := by
  cases p <;> simp [opcGroup, opcOf, constructOf]

@[simp] theorem opcGroup_protectOf (p : Profile) (k : Nat) : opcGroup (protectOf p k) = 5 := by
  cases p <;> simp [opcGroup, opcOf, protectOf]

@[simp] theorem opcGroup_checkOf (p : Profile) (k : Nat) : opcGroup (checkOf p k) = 6 := by
  cases p <;> simp [opcGroup, opcOf, checkOf]

@[simp] theorem constructOf_slot (p : Profile) (k : Nat) : (constructOf p k).slot? = some k := by cases p <;> rfl

@[simp] theorem protectOf_slot (p : Profile) (k : Nat) : (protectOf p k).slot? = some k := by cases p <;> rfl

@[simp] theorem checkOf_slot (p : Profile) (k : Nat) : (checkOf p k).slot? = some k := by cases p <;> rfl

theorem constructOf_inj {p q : Profile} {k l : Nat} (h : constructOf p k = constructOf q l) : p = q ∧ k = l := by
  cases p <;> cases q <;> simp_all [constructOf]

theorem protectOf_inj {p q : Profile} {k l : Nat} (h : protectOf p k = protectOf q l) : p = q ∧ k = l := by
  cases p <;> cases q <;> simp_all [protectOf]

theorem checkOf_inj {p q : Profile} {k l : Nat} (h : checkOf p k = checkOf q l) : p = q ∧ k = l := by
  cases p <;> cases q <;> simp_all [checkOf]

/-- Commands of different groups differ. -/
theorem ne_of_opcGroup {i j : Instr} (h : opcGroup i ≠ opcGroup j) : i ≠ j := fun e => h (congrArg opcGroup e)

/-! ### The inversion lemma -/

/-- The commands whose only effect is RES0: `CRC*.CALC`, `RD*`. -/
def resultCommands : List Instr :=
  [.crc8jCalc, .crc8h2fCalc, .crc16Calc, .crc32p4Calc, .crc64Calc, .rd8, .rd16, .rd32, .rd64, .rdnib]

/-- The commands whose only effect is a store: `WR*`. -/
def storeCommands : List Instr := [.wr8, .wr16, .wr32, .wr64, .wrnib]

/-- The validator commands: `CVAL*`. -/
def validatorCommands : List Instr := [.cval4, .cval8, .cval16, .cval32]

/-- What a command that answers a next state has done. -/
inductive Effect (s : State) : Instr → State → Prop
  | error (i : Instr) (k : ErrKind)
    (hc : ∀ p j x, i = checkOf p j → s.slots[j]? = some x → x.kind ≠ some p) : Effect s i (s.setErr k.code)
  | result (i : Instr) (v : Word64) (hi : i ∈ resultCommands) : Effect s i ((s.setRes0 v).setErr noError)
  | store (i : Instr) (u : State) (hi : i ∈ storeCommands) (hu : StoresOnly (· < s.len.toNat) s u) :
    Effect s i (u.setErr noError)
  | validate (i : Instr) (st : Status) (v : Word64) (hi : i ∈ validatorCommands) :
    Effect s i ((((s.setStatus st.code).setRes0 v).setRes1 1).setErr noError)
  | construct (p : Profile) (k : Nat) (x : Slot) (hk : k < s.slots.length) (hx : x.kind = some p) (ho : x.Ok)
    (htx : txOf x = some 0) (hrx : rxOf x = none) : Effect s (constructOf p k) ((s.setSlot k x).setErr noError)
  | protect (p : Profile) (k : Nat) (x : Slot) (u : State) (hk : s.slots[k]? = some x) (hx : x.kind = some p)
    (hl : LenOk x s.len.toNat) (hu : StoresOnly (InFields x) s u) :
    Effect s (protectOf p k) ((u.setSlot k x.sent).setErr noError)
  | finding (p : Profile) (k : Nat) (x : Slot) (st : Status) (hk : s.slots[k]? = some x) (hx : x.kind = some p)
    (hst : st = .dataLengthError ∨ st = .crcError ∨ st = .dataIdError) :
    Effect s (checkOf p k) ((s.setStatus st.code).setErr noError)
  | counted (p : Profile) (k : Nat) (x : Slot) (r : Nat) (hk : s.slots[k]? = some x) (hx : x.kind = some p)
    (hl : LenOk x s.len.toNat) :
    Effect s (checkOf p k)
      (((s.setStatus (cval (counterWidth p) x.tolerance (rxOf x) r).1.code).setSlot k
        (x.received (cval (counterWidth p) x.tolerance (rxOf x) r).2)).setErr noError)

/-- A command that is no check may raise any error. -/
theorem effect_error {s : State} {i : Instr} (k : ErrKind) (h : opcGroup i ≠ 6) : Effect s i (s.setErr k.code) :=
  .error i k fun _ _ _ e => absurd (by rw [e]; simp) h

theorem opcGroup_of_result {i : Instr} (h : i ∈ resultCommands) : opcGroup i = 1 ∨ opcGroup i = 2 := by
  revert i; decide

theorem opcGroup_of_store {i : Instr} (h : i ∈ storeCommands) : opcGroup i = 2 := by revert i; decide

theorem opcGroup_of_validator {i : Instr} (h : i ∈ validatorCommands) : opcGroup i = 3 := by revert i; decide

theorem effect_of_result {s t : State} {i : Instr} (hi : i ∈ resultCommands)
    (h : (∃ k : ErrKind, t = s.setErr k.code) ∨ ∃ v, t = (s.setRes0 v).setErr noError) : Effect s i t := by
  rcases h with ⟨k, rfl⟩ | ⟨v, rfl⟩
  · exact effect_error k (by have := opcGroup_of_result hi; omega)
  · exact .result i v hi

theorem effect_of_store {s t : State} {i : Instr} (hi : i ∈ storeCommands)
    (h : (∃ k : ErrKind, t = s.setErr k.code) ∨ ∃ u, StoresOnly (· < s.len.toNat) s u ∧ t = u.setErr noError) : Effect s i t := by
  rcases h with ⟨k, rfl⟩ | ⟨u, hu, rfl⟩
  · exact effect_error k (by have := opcGroup_of_store hi; omega)
  · exact .store i u hi hu

theorem effect_of_validate {s t : State} {i : Instr} (hi : i ∈ validatorCommands)
    (h : (∃ k : ErrKind, t = s.setErr k.code) ∨
      ∃ (st : Status) (v : Word64), t = (((s.setStatus st.code).setRes0 v).setRes1 1).setErr noError) :
    Effect s i t := by
  rcases h with ⟨k, rfl⟩ | ⟨st, v, rfl⟩
  · exact effect_error k (by have := opcGroup_of_validator hi; omega)
  · exact .validate i st v hi

theorem withSlot_cases {s t : State} {i : Nat} {f : Slot → Result} (h : withSlot s i f = .next t) :
    (s.slots[i]? = none ∧ t = s.setErr ErrKind.illegalCommand.code) ∨ ∃ x, s.slots[i]? = some x ∧ f x = .next t := by
  rw [withSlot_eq] at h
  split at h
  · rename_i x hx
    exact .inr ⟨x, hx, h⟩
  · rename_i hx
    exact .inl ⟨hx, by simpa using h.symm⟩

theorem effect_of_construct {p : Profile} {k : Nat} {s t : State} {tests : List (Bool × ErrKind)} {fresh : Slot}
    (hx : fresh.kind = some p) (htx : txOf fresh = some 0) (hrx : rxOf fresh = none)
    (ho : firstViolated tests = none → fresh.Ok)
    (h : withSlot s k (fun _ => construct s k tests fresh) = .next t) : Effect s (constructOf p k) t := by
  rcases withSlot_cases h with ⟨-, rfl⟩ | ⟨x, hk, h⟩
  · exact effect_error _ (by simp)
  · rcases construct_cases h with ⟨e, -, rfl⟩ | ⟨hn, rfl⟩
    · exact effect_error _ (by simp)
    · exact .construct p k fresh (List.getElem?_eq_some_iff.mp hk).1 hx (ho hn) htx hrx

theorem effect_of_protect {C : Type} {w : Nat} {fr : Frame w} {put : Inst C w → Slot} {x : Inst C w} {p : Profile}
    {k : Nat} {s t : State} (hP : fr.Within (InFields (put x))) (hk : s.slots[k]? = some (put x))
    (hx : (put x).kind = some p) (hl : fr.lenOk s.len.toNat = true → LenOk (put x) s.len.toNat)
    (hs : put { x with tx := x.tx + 1 } = (put x).sent) (h : protect fr put x k s = .next t) :
    Effect s (protectOf p k) t := by
  rcases protect_cases hP h with ⟨-, rfl⟩ | ⟨h1, u, hu, rfl⟩
  · exact effect_error _ (by simp)
  · rw [hs]
    exact .protect p k _ u hk hx (hl h1) hu

theorem effect_of_check {C : Type} {w : Nat} {fr : Frame w} {put : Inst C w → Slot} {x : Inst C w} {p : Profile}
    {k : Nat} {s t : State} (hk : s.slots[k]? = some (put x)) (hx : (put x).kind = some p)
    (hl : fr.lenOk s.len.toNat = true → LenOk (put x) s.len.toNat) (hw : w = counterWidth p)
    (hd : fr.delta = (put x).tolerance) (hr : x.rx.map BitVec.toNat = rxOf (put x))
    (hs : ∀ v, put { x with rx := some (BitVec.ofNat w v) } = (put x).received v)
    (h : check fr put x k s = .next t) : Effect s (checkOf p k) t := by
  subst hw
  rcases check_cases h with ⟨st, hst, rfl⟩ | ⟨r, h1, -, rfl⟩
  · exact .finding p k _ st hk hx hst
  · simp only [counterStage, hd, hr, hs]
    exact .counted p k _ r hk hx (hl h1)

/-! ### What the construct tests say -/

theorem varCfgOk_of_tests {g : Staging} {p : Profile} (h1 : offsetMisaligned g.offset.toNat = false)
    (h2 : lengthsBad g.minLen.toNat g.maxLen.toNat = false)
    (h3 : shortLength p = true → maxLenTooLarge g.maxLen.toNat = false)
    (h4 : fieldOutside g.offset.toNat (8 * headerBytes p) g.minLen.toNat = false)
    (h5 : deltaBad p g.maxDelta.toNat = false) {d : Nat} (id : BitVec d) :
    (VarCfg.mk g.offset id g.minLen g.maxLen g.maxDelta).Ok p := by
  simp only [offsetMisaligned, lengthsBad, maxLenTooLarge, fieldOutside, deltaBad, decide_eq_false_iff_not] at *
  exact ⟨by simp only; omega, by simp only; omega, by simp only; omega, by simp only; omega,
    fun hs => by have := h3 hs; simp only; omega, by simp only; omega, by simp only; omega⟩

theorem fresh_ok_p4 {g : Staging} (h : firstViolated (testsP4 g) = none) : (Slot.p4 (freshInst (varCfgOf g))).Ok := by
  simp only [firstViolated_eq_none, testsP4, List.forall_mem_cons] at h
  exact varCfgOk_of_tests h.1 h.2.1 (fun _ => h.2.2.1) h.2.2.2.1 h.2.2.2.2.1 _

theorem fresh_ok_p4m {g : Staging} (h : firstViolated (testsP4M g) = none) :
    (Slot.p4m (freshInst (metaCfgOf g))).Ok := by
  simp only [firstViolated_eq_none, testsP4M, List.forall_mem_cons] at h
  exact varCfgOk_of_tests h.1 h.2.1 (fun _ => h.2.2.1) h.2.2.2.1 h.2.2.2.2.1 _

theorem fresh_ok_p5 {g : Staging} (h : firstViolated (testsP5 g) = none) : (Slot.p5 (freshInst (fixCfgOf g))).Ok := by
  simp only [firstViolated_eq_none, testsP5, List.forall_mem_cons, offsetMisaligned, dataLenBad, fieldOutside, deltaBad,
    decide_eq_false_iff_not] at h
  exact ⟨by simp [freshInst, fixCfgOf]; omega, by simp [freshInst, fixCfgOf]; omega, by simp [freshInst, fixCfgOf]; omega,
    by simp [freshInst, fixCfgOf]; omega⟩

theorem fresh_ok_p6 {g : Staging} (h : firstViolated (testsP6 g) = none) : (Slot.p6 (freshInst (varCfg16Of g))).Ok := by
  simp only [firstViolated_eq_none, testsP6, List.forall_mem_cons] at h
  exact varCfgOk_of_tests h.1 h.2.2.1 (fun _ => h.2.2.2.1) h.2.2.2.2.1 h.2.2.2.2.2.1 _

theorem fresh_ok_p7 {g : Staging} (h : firstViolated (testsP7 g) = none) : (Slot.p7 (freshInst (varCfgOf g))).Ok := by
  simp only [firstViolated_eq_none, testsP7, List.forall_mem_cons] at h
  exact varCfgOk_of_tests h.1 h.2.1 (fun hs => by simp [shortLength] at hs) h.2.2.1 h.2.2.2.1 _

theorem fresh_ok_p7m {g : Staging} (h : firstViolated (testsP7M g) = none) :
    (Slot.p7m (freshInst (metaCfgOf g))).Ok := by
  simp only [firstViolated_eq_none, testsP7M, List.forall_mem_cons] at h
  exact varCfgOk_of_tests h.1 h.2.1 (fun hs => by simp [shortLength] at hs) h.2.2.1 h.2.2.2.1 _

theorem fresh_ok_p8 {g : Staging} (h : firstViolated (testsP8 g) = none) : (Slot.p8 (freshInst (varCfgOf g))).Ok := by
  simp only [firstViolated_eq_none, testsP8, List.forall_mem_cons] at h
  exact varCfgOk_of_tests h.1 h.2.1 (fun hs => by simp [shortLength] at hs) h.2.2.1 h.2.2.2.1 _

theorem fresh_ok_p11 {g : Staging} (h : firstViolated (testsP11 g) = none) : (Slot.p11 (freshInst (p11CfgOf g))).Ok := by
  simp only [firstViolated_eq_none, testsP11, List.forall_mem_cons, offsetMisaligned, nibbleOffsetMisaligned, dataLenBad,
    fieldOutside, deltaBad, Bool.or_eq_false_iff, Bool.and_eq_false_iff, decide_eq_false_iff_not] at h
  simp only [Slot.Ok, freshInst, p11CfgOf, p11ModeOf]
  refine ⟨by simp only; omega, by simp only; omega, by simp only; omega, by simp only; omega, by simp only; omega,
    by simp only; omega, by simp only; omega, fun o ho => ?_, by simp only; omega⟩
  simp only at ho
  by_cases hm : g.mode = 1
  · rw [if_pos hm] at ho
    cases ho
    simp only [hm, not_true_eq_false, false_or] at h
    refine ⟨by omega, by simp only; omega, by simp only; omega, fun hc => ?_⟩
    have := congrArg BitVec.toNat hc
    simp only at this
    omega
  · rw [if_neg hm] at ho
    cases ho

theorem fresh_ok_p22 {g : Staging} (h : firstViolated (testsP22 g) = none) : (Slot.p22 (freshInst (p22CfgOf g))).Ok := by
  simp only [firstViolated_eq_none, testsP22, List.forall_mem_cons, offsetMisaligned, dataLenBad, fieldOutside, deltaBad,
    decide_eq_false_iff_not] at h
  exact ⟨by simp [freshInst, p22CfgOf]; omega, by simp [freshInst, p22CfgOf]; omega, by simp [freshInst, p22CfgOf]; omega,
    by simp [freshInst, p22CfgOf]; omega⟩

theorem lenOkRange_iff {mn mx : Word32} {len : Nat} :
    lenOkRange mn mx len = true ↔ mn.toNat ≤ 8 * len ∧ 8 * len ≤ mx.toNat := by simp [lenOkRange]

theorem lenOkFixed_iff {dl : Word32} {len : Nat} : lenOkFixed dl len = true ↔ 8 * len = dl.toNat := by
  simp [lenOkFixed]

theorem effect_of_raise {s t : State} {k : ErrKind} {i : Instr}
    (hc : ∀ p j x, i = checkOf p j → s.slots[j]? = some x → x.kind ≠ some p) (h : raise s k = .next t) :
    Effect s i t := by
  rw [raise_eq] at h
  cases h
  exact .error i k hc

theorem effect_of_protectP4 {k : Nat} {s t : State} (h : execProtectP4 k s = .next t) :
    Effect s (protectOf .p4 k) t := by
  rcases withSlot_cases h with ⟨-, rfl⟩ | ⟨x, hk, h⟩
  · exact effect_error _ (by simp)
  · split at h
    · exact effect_of_protect (within_p4 _) hk rfl lenOkRange_iff.mp rfl h
    · exact effect_of_raise (fun _ _ _ e => absurd e (ne_of_opcGroup (by simp))) h

theorem effect_of_checkP4 {k : Nat} {s t : State} (h : execCheckP4 k s = .next t) :
    Effect s (checkOf .p4 k) t := by
  rcases withSlot_cases h with ⟨hk, rfl⟩ | ⟨x, hk, h⟩
  · refine .error _ _ fun p j y e hy => ?_
    obtain ⟨rfl, rfl⟩ := checkOf_inj e
    rw [hk] at hy
    cases hy
  · split at h
    · exact effect_of_check hk rfl lenOkRange_iff.mp rfl rfl rfl (fun _ => rfl) h
    · rename_i hn
      refine effect_of_raise (fun p j y e hy hp => ?_) h
      obtain ⟨rfl, rfl⟩ := checkOf_inj e
      rw [hk] at hy
      cases hy
      cases x <;> cases hp
      exact hn _ rfl

theorem effect_of_protectP4M {k : Nat} {s t : State} (h : execProtectP4M k s = .next t) :
    Effect s (protectOf .p4m k) t := by
  rcases withSlot_cases h with ⟨-, rfl⟩ | ⟨x, hk, h⟩
  · exact effect_error _ (by simp)
  · split at h
    · exact effect_of_protect (within_p4m _) hk rfl lenOkRange_iff.mp rfl h
    · exact effect_of_raise (fun _ _ _ e => absurd e (ne_of_opcGroup (by simp))) h

theorem effect_of_checkP4M {k : Nat} {s t : State} (h : execCheckP4M k s = .next t) :
    Effect s (checkOf .p4m k) t := by
  rcases withSlot_cases h with ⟨hk, rfl⟩ | ⟨x, hk, h⟩
  · refine .error _ _ fun p j y e hy => ?_
    obtain ⟨rfl, rfl⟩ := checkOf_inj e
    rw [hk] at hy
    cases hy
  · split at h
    · exact effect_of_check hk rfl lenOkRange_iff.mp rfl rfl rfl (fun _ => rfl) h
    · rename_i hn
      refine effect_of_raise (fun p j y e hy hp => ?_) h
      obtain ⟨rfl, rfl⟩ := checkOf_inj e
      rw [hk] at hy
      cases hy
      cases x <;> cases hp
      exact hn _ rfl

theorem effect_of_protectP5 {k : Nat} {s t : State} (h : execProtectP5 k s = .next t) :
    Effect s (protectOf .p5 k) t := by
  rcases withSlot_cases h with ⟨-, rfl⟩ | ⟨x, hk, h⟩
  · exact effect_error _ (by simp)
  · split at h
    · exact effect_of_protect (within_p5 _) hk rfl lenOkFixed_iff.mp rfl h
    · exact effect_of_raise (fun _ _ _ e => absurd e (ne_of_opcGroup (by simp))) h

theorem effect_of_checkP5 {k : Nat} {s t : State} (h : execCheckP5 k s = .next t) :
    Effect s (checkOf .p5 k) t := by
  rcases withSlot_cases h with ⟨hk, rfl⟩ | ⟨x, hk, h⟩
  · refine .error _ _ fun p j y e hy => ?_
    obtain ⟨rfl, rfl⟩ := checkOf_inj e
    rw [hk] at hy
    cases hy
  · split at h
    · exact effect_of_check hk rfl lenOkFixed_iff.mp rfl rfl rfl (fun _ => rfl) h
    · rename_i hn
      refine effect_of_raise (fun p j y e hy hp => ?_) h
      obtain ⟨rfl, rfl⟩ := checkOf_inj e
      rw [hk] at hy
      cases hy
      cases x <;> cases hp
      exact hn _ rfl

theorem effect_of_protectP6 {k : Nat} {s t : State} (h : execProtectP6 k s = .next t) :
    Effect s (protectOf .p6 k) t := by
  rcases withSlot_cases h with ⟨-, rfl⟩ | ⟨x, hk, h⟩
  · exact effect_error _ (by simp)
  · split at h
    · exact effect_of_protect (within_p6 _) hk rfl lenOkRange_iff.mp rfl h
    · exact effect_of_raise (fun _ _ _ e => absurd e (ne_of_opcGroup (by simp))) h

theorem effect_of_checkP6 {k : Nat} {s t : State} (h : execCheckP6 k s = .next t) :
    Effect s (checkOf .p6 k) t := by
  rcases withSlot_cases h with ⟨hk, rfl⟩ | ⟨x, hk, h⟩
  · refine .error _ _ fun p j y e hy => ?_
    obtain ⟨rfl, rfl⟩ := checkOf_inj e
    rw [hk] at hy
    cases hy
  · split at h
    · exact effect_of_check hk rfl lenOkRange_iff.mp rfl rfl rfl (fun _ => rfl) h
    · rename_i hn
      refine effect_of_raise (fun p j y e hy hp => ?_) h
      obtain ⟨rfl, rfl⟩ := checkOf_inj e
      rw [hk] at hy
      cases hy
      cases x <;> cases hp
      exact hn _ rfl

theorem effect_of_protectP7 {k : Nat} {s t : State} (h : execProtectP7 k s = .next t) :
    Effect s (protectOf .p7 k) t := by
  rcases withSlot_cases h with ⟨-, rfl⟩ | ⟨x, hk, h⟩
  · exact effect_error _ (by simp)
  · split at h
    · exact effect_of_protect (within_p7 _) hk rfl lenOkRange_iff.mp rfl h
    · exact effect_of_raise (fun _ _ _ e => absurd e (ne_of_opcGroup (by simp))) h

theorem effect_of_checkP7 {k : Nat} {s t : State} (h : execCheckP7 k s = .next t) :
    Effect s (checkOf .p7 k) t := by
  rcases withSlot_cases h with ⟨hk, rfl⟩ | ⟨x, hk, h⟩
  · refine .error _ _ fun p j y e hy => ?_
    obtain ⟨rfl, rfl⟩ := checkOf_inj e
    rw [hk] at hy
    cases hy
  · split at h
    · exact effect_of_check hk rfl lenOkRange_iff.mp rfl rfl rfl (fun _ => rfl) h
    · rename_i hn
      refine effect_of_raise (fun p j y e hy hp => ?_) h
      obtain ⟨rfl, rfl⟩ := checkOf_inj e
      rw [hk] at hy
      cases hy
      cases x <;> cases hp
      exact hn _ rfl

theorem effect_of_protectP7M {k : Nat} {s t : State} (h : execProtectP7M k s = .next t) :
    Effect s (protectOf .p7m k) t := by
  rcases withSlot_cases h with ⟨-, rfl⟩ | ⟨x, hk, h⟩
  · exact effect_error _ (by simp)
  · split at h
    · exact effect_of_protect (within_p7m _) hk rfl lenOkRange_iff.mp rfl h
    · exact effect_of_raise (fun _ _ _ e => absurd e (ne_of_opcGroup (by simp))) h

theorem effect_of_checkP7M {k : Nat} {s t : State} (h : execCheckP7M k s = .next t) :
    Effect s (checkOf .p7m k) t := by
  rcases withSlot_cases h with ⟨hk, rfl⟩ | ⟨x, hk, h⟩
  · refine .error _ _ fun p j y e hy => ?_
    obtain ⟨rfl, rfl⟩ := checkOf_inj e
    rw [hk] at hy
    cases hy
  · split at h
    · exact effect_of_check hk rfl lenOkRange_iff.mp rfl rfl rfl (fun _ => rfl) h
    · rename_i hn
      refine effect_of_raise (fun p j y e hy hp => ?_) h
      obtain ⟨rfl, rfl⟩ := checkOf_inj e
      rw [hk] at hy
      cases hy
      cases x <;> cases hp
      exact hn _ rfl

theorem effect_of_protectP8 {k : Nat} {s t : State} (h : execProtectP8 k s = .next t) :
    Effect s (protectOf .p8 k) t := by
  rcases withSlot_cases h with ⟨-, rfl⟩ | ⟨x, hk, h⟩
  · exact effect_error _ (by simp)
  · split at h
    · exact effect_of_protect (within_p8 _) hk rfl lenOkRange_iff.mp rfl h
    · exact effect_of_raise (fun _ _ _ e => absurd e (ne_of_opcGroup (by simp))) h

theorem effect_of_checkP8 {k : Nat} {s t : State} (h : execCheckP8 k s = .next t) :
    Effect s (checkOf .p8 k) t := by
  rcases withSlot_cases h with ⟨hk, rfl⟩ | ⟨x, hk, h⟩
  · refine .error _ _ fun p j y e hy => ?_
    obtain ⟨rfl, rfl⟩ := checkOf_inj e
    rw [hk] at hy
    cases hy
  · split at h
    · exact effect_of_check hk rfl lenOkRange_iff.mp rfl rfl rfl (fun _ => rfl) h
    · rename_i hn
      refine effect_of_raise (fun p j y e hy hp => ?_) h
      obtain ⟨rfl, rfl⟩ := checkOf_inj e
      rw [hk] at hy
      cases hy
      cases x <;> cases hp
      exact hn _ rfl

theorem effect_of_protectP11 {k : Nat} {s t : State} (h : execProtectP11 k s = .next t) :
    Effect s (protectOf .p11 k) t := by
  rcases withSlot_cases h with ⟨-, rfl⟩ | ⟨x, hk, h⟩
  · exact effect_error _ (by simp)
  · split at h
    · exact effect_of_protect (within_p11 _) hk rfl lenOkFixed_iff.mp rfl h
    · exact effect_of_raise (fun _ _ _ e => absurd e (ne_of_opcGroup (by simp))) h

theorem effect_of_checkP11 {k : Nat} {s t : State} (h : execCheckP11 k s = .next t) :
    Effect s (checkOf .p11 k) t := by
  rcases withSlot_cases h with ⟨hk, rfl⟩ | ⟨x, hk, h⟩
  · refine .error _ _ fun p j y e hy => ?_
    obtain ⟨rfl, rfl⟩ := checkOf_inj e
    rw [hk] at hy
    cases hy
  · split at h
    · exact effect_of_check hk rfl lenOkFixed_iff.mp rfl rfl rfl (fun _ => rfl) h
    · rename_i hn
      refine effect_of_raise (fun p j y e hy hp => ?_) h
      obtain ⟨rfl, rfl⟩ := checkOf_inj e
      rw [hk] at hy
      cases hy
      cases x <;> cases hp
      exact hn _ rfl

theorem effect_of_protectP22 {k : Nat} {s t : State} (h : execProtectP22 k s = .next t) :
    Effect s (protectOf .p22 k) t := by
  rcases withSlot_cases h with ⟨-, rfl⟩ | ⟨x, hk, h⟩
  · exact effect_error _ (by simp)
  · split at h
    · exact effect_of_protect (within_p22 _) hk rfl lenOkFixed_iff.mp rfl h
    · exact effect_of_raise (fun _ _ _ e => absurd e (ne_of_opcGroup (by simp))) h

theorem effect_of_checkP22 {k : Nat} {s t : State} (h : execCheckP22 k s = .next t) :
    Effect s (checkOf .p22 k) t := by
  rcases withSlot_cases h with ⟨hk, rfl⟩ | ⟨x, hk, h⟩
  · refine .error _ _ fun p j y e hy => ?_
    obtain ⟨rfl, rfl⟩ := checkOf_inj e
    rw [hk] at hy
    cases hy
  · split at h
    · exact effect_of_check hk rfl lenOkFixed_iff.mp rfl rfl rfl (fun _ => rfl) h
    · rename_i hn
      refine effect_of_raise (fun p j y e hy hp => ?_) h
      obtain ⟨rfl, rfl⟩ := checkOf_inj e
      rw [hk] at hy
      cases hy
      cases x <;> cases hp
      exact hn _ rfl

/-- Everything a command that answers a next state can have done. -/
theorem exec_effect {i : Instr} {s t : State} (h : exec i s = .next t) : Effect s i t := by
  cases i with
  | crc8jCalc => exact effect_of_result (by decide) (crcCommand_cases h)
  | crc8h2fCalc => exact effect_of_result (by decide) (crcCommand_cases h)
  | crc16Calc => exact effect_of_result (by decide) (crcCommand_cases h)
  | crc32p4Calc => exact effect_of_result (by decide) (crcCommand_cases h)
  | crc64Calc => exact effect_of_result (by decide) (crcCommand_cases h)
  | rd8 => exact effect_of_result (by decide) (readField_cases h)
  | rd16 => exact effect_of_result (by decide) (readField_cases h)
  | rd32 => exact effect_of_result (by decide) (readField_cases h)
  | rd64 => exact effect_of_result (by decide) (readField_cases h)
  | rdnib => exact effect_of_result (by decide) (execRdnib_cases h)
  | wr8 => exact effect_of_store (by decide) (writeField_cases h)
  | wr16 => exact effect_of_store (by decide) (writeField_cases h)
  | wr32 => exact effect_of_store (by decide) (writeField_cases h)
  | wr64 => exact effect_of_store (by decide) (writeField_cases h)
  | wrnib => exact effect_of_store (by decide) (execWrnib_cases h)
  | cval4 => exact effect_of_validate (by decide) (cvalCommand_cases h)
  | cval8 => exact effect_of_validate (by decide) (cvalCommand_cases h)
  | cval16 => exact effect_of_validate (by decide) (cvalCommand_cases h)
  | cval32 => exact effect_of_validate (by decide) (cvalCommand_cases h)
  | constructP4 k => exact effect_of_construct (p := .p4) rfl rfl rfl fresh_ok_p4 h
  | constructP4M k => exact effect_of_construct (p := .p4m) rfl rfl rfl fresh_ok_p4m h
  | constructP5 k => exact effect_of_construct (p := .p5) rfl rfl rfl fresh_ok_p5 h
  | constructP6 k => exact effect_of_construct (p := .p6) rfl rfl rfl fresh_ok_p6 h
  | constructP7 k => exact effect_of_construct (p := .p7) rfl rfl rfl fresh_ok_p7 h
  | constructP7M k => exact effect_of_construct (p := .p7m) rfl rfl rfl fresh_ok_p7m h
  | constructP8 k => exact effect_of_construct (p := .p8) rfl rfl rfl fresh_ok_p8 h
  | constructP11 k => exact effect_of_construct (p := .p11) rfl rfl rfl fresh_ok_p11 h
  | constructP22 k => exact effect_of_construct (p := .p22) rfl rfl rfl fresh_ok_p22 h
  | protectP4 k => exact effect_of_protectP4 h
  | protectP4M k => exact effect_of_protectP4M h
  | protectP5 k => exact effect_of_protectP5 h
  | protectP6 k => exact effect_of_protectP6 h
  | protectP7 k => exact effect_of_protectP7 h
  | protectP7M k => exact effect_of_protectP7M h
  | protectP8 k => exact effect_of_protectP8 h
  | protectP11 k => exact effect_of_protectP11 h
  | protectP22 k => exact effect_of_protectP22 h
  | checkP4 k => exact effect_of_checkP4 h
  | checkP4M k => exact effect_of_checkP4M h
  | checkP5 k => exact effect_of_checkP5 h
  | checkP6 k => exact effect_of_checkP6 h
  | checkP7 k => exact effect_of_checkP7 h
  | checkP7M k => exact effect_of_checkP7M h
  | checkP8 k => exact effect_of_checkP8 h
  | checkP11 k => exact effect_of_checkP11 h
  | checkP22 k => exact effect_of_checkP22 h

end Sys2Proof.Machine
end

