-- ==== Sys2Proof/Laws/Alike.lean ====
section
/-! SUPPORT. What a command looks at: the host's registers, the message, the buffer and its own slot. Two states that
agree on those answer with the same update. -/

namespace Sys2Proof.Machine

/-! ### What a buffer access looks at -/

/-- Two states with one buffer, one BUF_BYTES and one LEN. -/
structure SameBuffer (s s' : State) : Prop where
  buf : s'.buf = s.buf
  bufBytes : s'.bufBytes = s.bufBytes
  len : s'.len = s.len

/-- A computation that looks at the buffer, BUF_BYTES and LEN only. -/
def ReadsBuffer {α : Type} (f : State → Access α) : Prop := ∀ s s', SameBuffer s s' → f s' = f s

/-- A computation that looks at the buffer, BUF_BYTES and LEN only and replaces the buffer. -/
def StoresBuffer (f : State → Access State) : Prop :=
  ∀ s s', SameBuffer s s' →
    (∃ e, f s = .error e ∧ f s' = .error e) ∨ ∃ m, f s = .ok (s.setBuf m) ∧ f s' = .ok (s'.setBuf m)

theorem readsBuffer_pure {α : Type} (v : α) : ReadsBuffer fun _ => (.ok v : Access α) := fun _ _ _ => rfl

theorem ReadsBuffer.bind {α β : Type} {f : State → Access α} {g : α → State → Access β} (hf : ReadsBuffer f)
    (hg : ∀ v, ReadsBuffer (g v)) : ReadsBuffer fun s => f s >>= fun v => g v s := by
  intro s s' h
  simp only [hf s s' h]
  cases f s with
  | error e => rfl
  | ok v => exact hg v s s' h

theorem StoresBuffer.bind {f g : State → Access State} (hf : StoresBuffer f) (hg : StoresBuffer g) :
    StoresBuffer fun s => f s >>= g := by
  intro s s' h
  rcases hf s s' h with ⟨e, h1, h2⟩ | ⟨m, h1, h2⟩
  · simp only [h1, h2]
    exact .inl ⟨e, rfl, rfl⟩
  · simp only [h1, h2, access_ok_bind]
    exact hg _ _ ⟨rfl, h.bufBytes, h.len⟩

theorem ReadsBuffer.bindStore {α : Type} {f : State → Access α} {g : α → State → Access State} (hf : ReadsBuffer f)
    (hg : ∀ v, StoresBuffer (g v)) : StoresBuffer fun s => f s >>= fun v => g v s := by
  intro s s' h
  simp only [hf s s' h]
  cases f s with
  | error e => exact .inl ⟨e, rfl, rfl⟩
  | ok v => exact hg v s s' h

theorem readsBuffer_readByte (a : Nat) : ReadsBuffer fun s => readByte s a := by
  intro s s' h
  simp only [readByte, h.buf, h.bufBytes]

theorem readsBuffer_readBytes : ∀ n a, ReadsBuffer fun s => readBytes s a n
  | 0, _ => readsBuffer_pure _
  | n + 1, a => (readsBuffer_readByte a).bind fun _ => (readsBuffer_readBytes n (a + 1)).bind fun _ => readsBuffer_pure _

theorem readsBuffer_memRead (a n : Nat) : ReadsBuffer fun s => memRead s a n :=
  (readsBuffer_readBytes n a).bind fun _ => readsBuffer_pure _

theorem readsBuffer_fieldIs (a n v : Nat) : ReadsBuffer (fieldIs a n v) :=
  (readsBuffer_memRead a n).bind fun _ => readsBuffer_pure _

theorem readsBuffer_lengthFieldIs (a n : Nat) : ReadsBuffer (lengthFieldIs a n) := by
  intro s s' h
  have := readsBuffer_fieldIs a n s.len.toNat s s' h
  simpa only [lengthFieldIs, h.len] using this

theorem readsBuffer_nibRead (o : Nat) : ReadsBuffer fun s => nibRead s o :=
  (readsBuffer_readByte _).bind fun _ => readsBuffer_pure _

theorem readsBuffer_coverBytes (a n : Nat) : ReadsBuffer fun s => coverBytes s a n := by
  intro s s' h
  have := ((readsBuffer_readBytes a 0).bind fun b =>
    (readsBuffer_readBytes (s.len.toNat - (a + n)) (a + n)).bind fun c => readsBuffer_pure (b ++ c)) s s' h
  simpa only [coverBytes, h.len] using this

theorem storesBuffer_id : StoresBuffer fun s => .ok s :=
  fun s s' h => .inr ⟨s.buf, rfl, by rw [← h.buf]; rfl⟩

theorem storesBuffer_writeByte (a : Nat) (b : Byte) : StoresBuffer fun s => writeByte s a b := by
  intro s s' h
  by_cases hb : a < s.bufBytes
  · exact .inr ⟨s.buf.set a b, by simp only [writeByte, if_pos hb], by
      simp only [writeByte, h.bufBytes, if_pos hb, h.buf]⟩
  · exact .inl ⟨_, by simp only [writeByte, if_neg hb]; rfl, by simp only [writeByte, h.bufBytes, if_neg hb]⟩

theorem storesBuffer_writeBytes : ∀ bs a, StoresBuffer fun s => writeBytes s a bs
  | [], _ => storesBuffer_id
  | b :: bs, a => (storesBuffer_writeByte a b).bind (storesBuffer_writeBytes bs (a + 1))

theorem storesBuffer_memWrite (a n v : Nat) : StoresBuffer fun s => memWrite s a n v := storesBuffer_writeBytes _ _

theorem storesBuffer_lenWrite (a n : Nat) : StoresBuffer fun s => memWrite s a n s.len.toNat := by
  intro s s' h
  have := storesBuffer_memWrite a n s.len.toNat s s' h
  simpa only [h.len] using this

theorem storesBuffer_nibWrite (o v : Nat) : StoresBuffer fun s => nibWrite s o v :=
  (readsBuffer_readByte _).bindStore fun _ => storesBuffer_writeByte _ _

/-! ### The nine frames -/

/-- A frame that looks at the buffer, BUF_BYTES and LEN only. -/
structure Frame.OnBuffer {w : Nat} (fr : Frame w) : Prop where
  stamp : ∀ tx, StoresBuffer (fr.stamp tx)
  crc : ReadsBuffer fr.crc
  lengthAgrees : ReadsBuffer fr.lengthAgrees
  idAgrees : ReadsBuffer fr.idAgrees
  counter : ReadsBuffer fr.counter

theorem onBuffer_p4 (c : VarCfg 32) : (frameP4 c).OnBuffer :=
  ⟨fun _ => (storesBuffer_lenWrite _ _).bind ((storesBuffer_memWrite _ _ _).bind (storesBuffer_memWrite _ _ _)),
    (readsBuffer_coverBytes _ _).bind fun _ => readsBuffer_pure _, readsBuffer_lengthFieldIs _ _,
    readsBuffer_fieldIs _ _ _, readsBuffer_memRead _ _⟩

theorem onBuffer_p4m (c : MetaCfg) : (frameP4M c).OnBuffer :=
  ⟨fun _ => (storesBuffer_lenWrite _ _).bind ((storesBuffer_memWrite _ _ _).bind ((storesBuffer_memWrite _ _ _).bind
      (storesBuffer_memWrite _ _ _))),
    (readsBuffer_coverBytes _ _).bind fun _ => readsBuffer_pure _, readsBuffer_lengthFieldIs _ _,
    (readsBuffer_fieldIs _ _ _).bind fun _ => (readsBuffer_fieldIs _ _ _).bind fun _ => readsBuffer_pure _,
    readsBuffer_memRead _ _⟩

theorem onBuffer_p5 (c : FixCfg) : (frameP5 c).OnBuffer :=
  ⟨fun _ => storesBuffer_memWrite _ _ _,
    ((readsBuffer_coverBytes _ _).bind fun _ => readsBuffer_pure _).bind fun _ => readsBuffer_pure _,
    readsBuffer_pure _, readsBuffer_pure _, readsBuffer_memRead _ _⟩

theorem onBuffer_p6 (c : VarCfg 16) : (frameP6 c).OnBuffer :=
  ⟨fun _ => (storesBuffer_lenWrite _ _).bind (storesBuffer_memWrite _ _ _),
    ((readsBuffer_coverBytes _ _).bind fun _ => readsBuffer_pure _).bind fun _ => readsBuffer_pure _,
    readsBuffer_lengthFieldIs _ _, readsBuffer_pure _, readsBuffer_memRead _ _⟩

theorem onBuffer_p7 (c : VarCfg 32) : (frameP7 c).OnBuffer :=
  ⟨fun _ => (storesBuffer_lenWrite _ _).bind ((storesBuffer_memWrite _ _ _).bind (storesBuffer_memWrite _ _ _)),
    (readsBuffer_coverBytes _ _).bind fun _ => readsBuffer_pure _, readsBuffer_lengthFieldIs _ _,
    readsBuffer_fieldIs _ _ _, readsBuffer_memRead _ _⟩

theorem onBuffer_p7m (c : MetaCfg) : (frameP7M c).OnBuffer :=
  ⟨fun _ => (storesBuffer_lenWrite _ _).bind ((storesBuffer_memWrite _ _ _).bind ((storesBuffer_memWrite _ _ _).bind
      (storesBuffer_memWrite _ _ _))),
    (readsBuffer_coverBytes _ _).bind fun _ => readsBuffer_pure _, readsBuffer_lengthFieldIs _ _,
    (readsBuffer_fieldIs _ _ _).bind fun _ => (readsBuffer_fieldIs _ _ _).bind fun _ => readsBuffer_pure _,
    readsBuffer_memRead _ _⟩

theorem onBuffer_p8 (c : VarCfg 32) : (frameP8 c).OnBuffer :=
  ⟨fun _ => (storesBuffer_lenWrite _ _).bind ((storesBuffer_memWrite _ _ _).bind (storesBuffer_memWrite _ _ _)),
    (readsBuffer_coverBytes _ _).bind fun _ => readsBuffer_pure _, readsBuffer_lengthFieldIs _ _,
    readsBuffer_fieldIs _ _ _, readsBuffer_memRead _ _⟩

theorem onBuffer_p11 (c : P11Cfg) : (frameP11 c).OnBuffer := by
  refine ⟨fun _ => (storesBuffer_nibWrite _ _).bind ?_,
    ((readsBuffer_coverBytes _ _).bind fun _ => readsBuffer_pure _).bind fun _ => readsBuffer_pure _,
    readsBuffer_pure _, ?_, readsBuffer_nibRead _⟩
  · cases c.mode
    · exact storesBuffer_id
    · exact storesBuffer_nibWrite _ _
  · simp only [frameP11]
    cases c.mode
    · exact readsBuffer_pure _
    · exact (readsBuffer_nibRead _).bind fun _ => readsBuffer_pure _

theorem onBuffer_p22 (c : P22Cfg) : (frameP22 c).OnBuffer :=
  ⟨fun _ => storesBuffer_nibWrite _ _,
    ((readsBuffer_nibRead _).bind fun _ => (readsBuffer_coverBytes _ _).bind fun _ => readsBuffer_pure _).bind fun _ =>
      readsBuffer_pure _,
    readsBuffer_pure _, readsBuffer_pure _, readsBuffer_nibRead _⟩

/-! ### What a command looks at -/

/-- Two states that agree on what a command with slot `k`, or without a slot, looks at. -/
structure Alike (k : Option Nat) (s s' : State) : Prop extends SameBuffer s s' where
  arg0 : s'.arg0 = s.arg0
  arg1 : s'.arg1 = s.arg1
  arg2 : s'.arg2 = s.arg2
  arg3 : s'.arg3 = s.arg3
  staging : s'.staging = s.staging
  slot : ∀ j, k = some j → s'.slots[j]? = s.slots[j]?

/-- The updates a command with slot `k`, or without a slot, makes. -/
inductive Update (k : Option Nat) : (State → State) → Prop
  | error (e : BitVec 8) : Update k fun s => s.setErr e
  | result (v : Word64) : Update k fun s => (s.setRes0 v).setErr noError
  | store (m : Memory) : Update k fun s => (s.setBuf m).setErr noError
  | validate (st : BitVec 3) (v : Word64) :
    Update k fun s => (((s.setStatus st).setRes0 v).setRes1 1).setErr noError
  | construct (j : Nat) (x : Slot) (hk : k = some j) : Update k fun s => (s.setSlot j x).setErr noError
  | protect (j : Nat) (m : Memory) (x : Slot) (hk : k = some j) :
    Update k fun s => ((s.setBuf m).setSlot j x).setErr noError
  | finding (st : BitVec 3) : Update k fun s => (s.setStatus st).setErr noError
  | counted (j : Nat) (st : BitVec 3) (x : Slot) (hk : k = some j) :
    Update k fun s => ((s.setStatus st).setSlot j x).setErr noError

/-- A command that answers alike states with one update. -/
def Uniform (k : Option Nat) (f : State → Result) : Prop :=
  ∀ s t, f s = .next t → ∃ U, Update k U ∧ t = U s ∧ ∀ s', Alike k s s' → f s' = .next (U s')

theorem uniform_next {k : Option Nat} {U : State → State} (h : Update k U) : Uniform k fun s => .next (U s) :=
  fun _ _ ht => ⟨U, h, by simpa using ht.symm, fun _ _ => rfl⟩

theorem uniform_raise (k : Option Nat) (e : ErrKind) : Uniform k fun s => raise s e := uniform_next (.error e.code)

theorem Uniform.ite {k : Option Nat} {c : State → Bool} {f g : State → Result} (hc : ∀ s s', Alike k s s' → c s' = c s)
    (hf : Uniform k f) (hg : Uniform k g) : Uniform k fun s => if c s then f s else g s := by
  intro s t h
  by_cases hb : c s = true
  · simp only [hb, if_true] at h
    obtain ⟨U, h1, h2, h3⟩ := hf s t h
    exact ⟨U, h1, h2, fun s' ha => by simp only [hc s s' ha, hb, if_true]; exact h3 s' ha⟩
  · simp only [hb, Bool.false_eq_true, if_false] at h
    obtain ⟨U, h1, h2, h3⟩ := hg s t h
    exact ⟨U, h1, h2, fun s' ha => by simp only [hc s s' ha, hb, Bool.false_eq_true, if_false]; exact h3 s' ha⟩

theorem uniform_read {k : Option Nat} {α : Type} {f : State → Access α} {U : α → State → State} (hf : ReadsBuffer f)
    (hU : ∀ v, Update k (U v)) : Uniform k fun s => run (f s >>= fun v => .ok (U v s)) := by
  intro s t h
  obtain ⟨v, hv, h⟩ := access_bind_eq_ok.mp (run_eq_next.mp h)
  exact ⟨U v, hU v, (Except.ok.inj h).symm, fun s' ha => by simp only [hf s s' ha.toSameBuffer, hv]; rfl⟩

theorem uniform_store {k : Option Nat} {f : State → Access State} {U : State → State} (hf : StoresBuffer f)
    (hU : ∀ m, Update k fun s => U (s.setBuf m)) : Uniform k fun s => run (f s >>= fun u => .ok (U u)) := by
  intro s t h
  obtain ⟨u, hu, h⟩ := access_bind_eq_ok.mp (run_eq_next.mp h)
  have key : ∀ s', Alike k s s' → ∃ m, u = s.setBuf m ∧ f s' = .ok (s'.setBuf m) := fun s' ha => by
    rcases hf s s' ha.toSameBuffer with ⟨e, h1, -⟩ | ⟨m, h1, h2⟩
    · rw [hu] at h1; cases h1
    · exact ⟨m, Except.ok.inj (hu.symm.trans h1), h2⟩
  obtain ⟨m, rfl, -⟩ := key s ⟨⟨rfl, rfl, rfl⟩, rfl, rfl, rfl, rfl, rfl, fun _ _ => rfl⟩
  refine ⟨_, hU m, (Except.ok.inj h).symm, fun s' ha => ?_⟩
  obtain ⟨m', h1, h2⟩ := key s' ha
  have : m' = m := (congrArg State.buf h1).symm
  subst this
  simp only [h2]
  rfl

theorem uniform_withSlot {k : Nat} {F : State → Slot → Result} (hF : ∀ x, Uniform (some k) fun s => F s x) :
    Uniform (some k) fun s => withSlot s k (F s) := by
  intro s t h
  have hs : ∀ s', Alike (some k) s s' → s'.slots[k]? = s.slots[k]? := fun s' ha => ha.slot k rfl
  simp only [withSlot] at h ⊢
  cases hx : s.slots[k]? with
  | none =>
    rw [hx] at h
    obtain ⟨U, h1, h2, h3⟩ := uniform_raise (some k) .illegalCommand s t h
    exact ⟨U, h1, h2, fun s' ha => by rw [hs s' ha, hx]; exact h3 s' ha⟩
  | some x =>
    rw [hx] at h
    obtain ⟨U, h1, h2, h3⟩ := hF x s t h
    exact ⟨U, h1, h2, fun s' ha => by rw [hs s' ha, hx]; exact h3 s' ha⟩

/-! ### Every command -/

theorem uniform_crcCommand {w : Nat} (e : Engine w) : Uniform none (crcCommand e) := by
  refine Uniform.ite (c := fun s => tooWide s.arg0 32 || tooWide s.arg1 32 || tooWide s.arg2 w)
    (fun s s' a => by simp only [a.arg0, a.arg1, a.arg2]) (uniform_raise _ _) ?_
  refine Uniform.ite (c := fun s => outsideMessage s s.arg0.toNat s.arg1.toNat)
    (fun s s' a => by simp only [outsideMessage, a.arg0, a.arg1, a.len]) (uniform_raise _ _) ?_
  intro s t h
  obtain ⟨U, h1, h2, h3⟩ := uniform_read (k := none) (readsBuffer_readBytes s.arg1.toNat s.arg0.toNat)
    (U := fun bs s' => (s'.setRes0 ((crcFrom e bs (s.arg2.setWidth w)).setWidth 64)).setErr noError)
    (fun _ => .result _) s t h
  exact ⟨U, h1, h2, fun s' a => by simp only [a.arg0, a.arg1, a.arg2]; exact h3 s' a⟩

theorem uniform_readField (n : Nat) : Uniform none (readField n) := by
  refine Uniform.ite (c := fun s => tooWide s.arg0 32) (fun s s' a => by simp only [a.arg0]) (uniform_raise _ _) ?_
  refine Uniform.ite (c := fun s => byteMisaligned s.arg0.toNat) (fun s s' a => by simp only [a.arg0])
    (uniform_raise _ _) ?_
  refine Uniform.ite (c := fun s => outsideMessage s (s.arg0.toNat / 8) n)
    (fun s s' a => by simp only [outsideMessage, a.arg0, a.len]) (uniform_raise _ _) ?_
  intro s t h
  obtain ⟨U, h1, h2, h3⟩ := uniform_read (k := none) (readsBuffer_memRead (s.arg0.toNat / 8) n)
    (U := fun v s' => (s'.setRes0 (BitVec.ofNat 64 v)).setErr noError) (fun _ => .result _) s t h
  exact ⟨U, h1, h2, fun s' a => by simp only [a.arg0]; exact h3 s' a⟩

theorem uniform_execRdnib : Uniform none execRdnib := by
  refine Uniform.ite (c := fun s => tooWide s.arg0 32) (fun s s' a => by simp only [a.arg0]) (uniform_raise _ _) ?_
  refine Uniform.ite (c := fun s => nibbleMisaligned s.arg0.toNat) (fun s s' a => by simp only [a.arg0])
    (uniform_raise _ _) ?_
  refine Uniform.ite (c := fun s => outsideMessage s (s.arg0.toNat / 8) 1)
    (fun s s' a => by simp only [outsideMessage, a.arg0, a.len]) (uniform_raise _ _) ?_
  intro s t h
  obtain ⟨U, h1, h2, h3⟩ := uniform_read (k := none) (readsBuffer_nibRead s.arg0.toNat)
    (U := fun v s' => (s'.setRes0 (BitVec.ofNat 64 v)).setErr noError) (fun _ => .result _) s t h
  exact ⟨U, h1, h2, fun s' a => by simp only [a.arg0]; exact h3 s' a⟩

theorem uniform_writeField (n : Nat) : Uniform none (writeField n) := by
  refine Uniform.ite (c := fun s => tooWide s.arg0 32 || tooWide s.arg1 (8 * n))
    (fun s s' a => by simp only [a.arg0, a.arg1]) (uniform_raise _ _) ?_
  refine Uniform.ite (c := fun s => byteMisaligned s.arg0.toNat) (fun s s' a => by simp only [a.arg0])
    (uniform_raise _ _) ?_
  refine Uniform.ite (c := fun s => outsideMessage s (s.arg0.toNat / 8) n)
    (fun s s' a => by simp only [outsideMessage, a.arg0, a.len]) (uniform_raise _ _) ?_
  intro s t h
  obtain ⟨U, h1, h2, h3⟩ := uniform_store (k := none) (storesBuffer_memWrite (s.arg0.toNat / 8) n s.arg1.toNat)
    (U := fun u => u.setErr noError) (fun _ => .store _) s t h
  exact ⟨U, h1, h2, fun s' a => by simp only [a.arg0, a.arg1]; exact h3 s' a⟩

theorem uniform_execWrnib : Uniform none execWrnib := by
  refine Uniform.ite (c := fun s => tooWide s.arg0 32 || tooWide s.arg1 4)
    (fun s s' a => by simp only [a.arg0, a.arg1]) (uniform_raise _ _) ?_
  refine Uniform.ite (c := fun s => nibbleMisaligned s.arg0.toNat) (fun s s' a => by simp only [a.arg0])
    (uniform_raise _ _) ?_
  refine Uniform.ite (c := fun s => outsideMessage s (s.arg0.toNat / 8) 1)
    (fun s s' a => by simp only [outsideMessage, a.arg0, a.len]) (uniform_raise _ _) ?_
  intro s t h
  obtain ⟨U, h1, h2, h3⟩ := uniform_store (k := none) (storesBuffer_nibWrite s.arg0.toNat s.arg1.toNat)
    (U := fun u => u.setErr noError) (fun _ => .store _) s t h
  exact ⟨U, h1, h2, fun s' a => by simp only [a.arg0, a.arg1]; exact h3 s' a⟩

theorem uniform_cvalCommand (w : Nat) : Uniform none (cvalCommand w) := by
  refine Uniform.ite (c := fun s => tooWide s.arg1 w || tooWide s.arg2 32 || tooWide s.arg3 1)
    (fun s s' a => by simp only [a.arg1, a.arg2, a.arg3]) (uniform_raise _ _) ?_
  refine Uniform.ite (c := fun s => decide (s.arg3 = 1) && tooWide s.arg0 w)
    (fun s s' a => by simp only [a.arg0, a.arg3]) (uniform_raise _ _) ?_
  intro s t h
  refine ⟨_, .validate _ _, (Host.Outcome.next.inj h).symm, fun s' a => ?_⟩
  simp only [a.arg0, a.arg1, a.arg2, a.arg3]
  rfl

theorem uniform_construct {k : Nat} {tests : Staging → List (Bool × ErrKind)} {fresh : Staging → Slot} :
    Uniform (some k) fun s => withSlot s k fun _ => construct s k (tests s.staging) (fresh s.staging) := by
  refine uniform_withSlot (F := fun s _ => construct s k (tests s.staging) (fresh s.staging)) fun _ => ?_
  intro s t h
  simp only [construct] at h ⊢
  cases hx : firstViolated (tests s.staging) with
  | none =>
    rw [hx] at h
    refine ⟨_, .construct k (fresh s.staging) rfl, (Host.Outcome.next.inj h).symm, fun s' a => ?_⟩
    rw [a.staging, hx]
    rfl
  | some e =>
    rw [hx] at h
    refine ⟨_, .error e.code, (Host.Outcome.next.inj h).symm, fun s' a => ?_⟩
    rw [a.staging, hx]
    rfl

theorem uniform_protect {C : Type} {w : Nat} {fr : Frame w} (h : fr.OnBuffer) (put : Inst C w → Slot) (x : Inst C w)
    (k : Nat) : Uniform (some k) (protect fr put x k) := by
  refine Uniform.ite (c := fun s => fr.lenOk s.len.toNat) (fun s s' a => by simp only [a.len]) ?_ (uniform_raise _ _)
  intro s t ht
  have hs : StoresBuffer fun s =>
      fr.stamp x.tx s >>= fun s1 => fr.crc s1 >>= fun v => memWrite s1 fr.crcAt fr.crcBytes v :=
    (h.stamp _).bind (h.crc.bindStore fun _ => storesBuffer_memWrite _ _ _)
  have assoc : ∀ s, (fr.stamp x.tx s >>= fun s1 => fr.crc s1 >>= fun v => memWrite s1 fr.crcAt fr.crcBytes v >>= fun s2 =>
      (.ok ((s2.setSlot k (put { x with tx := x.tx + 1 })).setErr noError) : Access State)) =
      (fr.stamp x.tx s >>= fun s1 => fr.crc s1 >>= fun v => memWrite s1 fr.crcAt fr.crcBytes v) >>= fun s2 =>
        .ok ((s2.setSlot k (put { x with tx := x.tx + 1 })).setErr noError) := fun s => by
    cases fr.stamp x.tx s with
    | error e => rfl
    | ok s1 => simp only [access_ok_bind]; cases fr.crc s1 <;> rfl
  simp only [assoc] at ht ⊢
  exact uniform_store hs (U := fun s2 => (s2.setSlot k (put { x with tx := x.tx + 1 })).setErr noError)
    (fun _ => .protect _ _ _ rfl) s t ht

theorem uniform_check {C : Type} {w : Nat} {fr : Frame w} (h : fr.OnBuffer) (put : Inst C w → Slot) (x : Inst C w)
    (k : Nat) : Uniform (some k) (check fr put x k) := by
  refine Uniform.ite (c := fun s => fr.lenOk s.len.toNat) (fun s s' a => by simp only [a.len]) ?_
    (uniform_next (.finding _))
  intro s t ht
  obtain ⟨b1, h1, ht⟩ := access_bind_eq_ok.mp (run_eq_next.mp ht)
  have e1 : ∀ s', Alike (some k) s s' → fr.lengthAgrees s' = .ok b1 := fun s' a =>
    (h.lengthAgrees s s' a.toSameBuffer).trans h1
  cases b1 with
  | false =>
    exact ⟨_, .finding _, (Except.ok.inj ht).symm, fun s' a => by simp only [e1 s' a, access_ok_bind]; rfl⟩
  | true =>
    simp only [if_true] at ht
    obtain ⟨v, h2, ht⟩ := access_bind_eq_ok.mp ht
    obtain ⟨c, h3, ht⟩ := access_bind_eq_ok.mp ht
    have e2 : ∀ s', Alike (some k) s s' → memRead s' fr.crcAt fr.crcBytes = .ok v := fun s' a =>
      (readsBuffer_memRead _ _ s s' a.toSameBuffer).trans h2
    have e3 : ∀ s', Alike (some k) s s' → fr.crc s' = .ok c := fun s' a => (h.crc s s' a.toSameBuffer).trans h3
    by_cases hv : v = c
    · simp only [hv, if_true] at ht
      obtain ⟨b2, h4, ht⟩ := access_bind_eq_ok.mp ht
      have e4 : ∀ s', Alike (some k) s s' → fr.idAgrees s' = .ok b2 := fun s' a =>
        (h.idAgrees s s' a.toSameBuffer).trans h4
      cases b2 with
      | false =>
        refine ⟨_, .finding _, (Except.ok.inj ht).symm, fun s' a => ?_⟩
        simp only [e1 s' a, e2 s' a, e3 s' a, e4 s' a, access_ok_bind, hv, if_true]
        rfl
      | true =>
        simp only [if_true] at ht
        obtain ⟨r, h5, ht⟩ := access_bind_eq_ok.mp ht
        have e5 : ∀ s', Alike (some k) s s' → fr.counter s' = .ok r := fun s' a =>
          (h.counter s s' a.toSameBuffer).trans h5
        refine ⟨_, .counted k _ _ rfl, (Except.ok.inj ht).symm, fun s' a => ?_⟩
        simp only [e1 s' a, e2 s' a, e3 s' a, e4 s' a, e5 s' a, access_ok_bind, hv, if_true]
        rfl
    · simp only [if_neg hv] at ht
      refine ⟨_, .finding _, (Except.ok.inj ht).symm, fun s' a => ?_⟩
      simp only [e1 s' a, e2 s' a, e3 s' a, access_ok_bind, if_neg hv, if_true]
      rfl

/-- Every command that answers a next state answers alike states with one update. -/
theorem exec_uniform (i : Instr) : Uniform i.slot? (exec i) := by
  cases i with
  | crc8jCalc => exact uniform_crcCommand _
  | crc8h2fCalc => exact uniform_crcCommand _
  | crc16Calc => exact uniform_crcCommand _
  | crc32p4Calc => exact uniform_crcCommand _
  | crc64Calc => exact uniform_crcCommand _
  | rd8 => exact uniform_readField _
  | rd16 => exact uniform_readField _
  | rd32 => exact uniform_readField _
  | rd64 => exact uniform_readField _
  | rdnib => exact uniform_execRdnib
  | wr8 => exact uniform_writeField _
  | wr16 => exact uniform_writeField _
  | wr32 => exact uniform_writeField _
  | wr64 => exact uniform_writeField _
  | wrnib => exact uniform_execWrnib
  | cval4 => exact uniform_cvalCommand _
  | cval8 => exact uniform_cvalCommand _
  | cval16 => exact uniform_cvalCommand _
  | cval32 => exact uniform_cvalCommand _
  | constructP4 k => exact uniform_construct (tests := testsP4) (fresh := fun g => .p4 (freshInst (varCfgOf g)))
  | constructP4M k => exact uniform_construct (tests := testsP4M) (fresh := fun g => .p4m (freshInst (metaCfgOf g)))
  | constructP5 k => exact uniform_construct (tests := testsP5) (fresh := fun g => .p5 (freshInst (fixCfgOf g)))
  | constructP6 k => exact uniform_construct (tests := testsP6) (fresh := fun g => .p6 (freshInst (varCfg16Of g)))
  | constructP7 k => exact uniform_construct (tests := testsP7) (fresh := fun g => .p7 (freshInst (varCfgOf g)))
  | constructP7M k => exact uniform_construct (tests := testsP7M) (fresh := fun g => .p7m (freshInst (metaCfgOf g)))
  | constructP8 k => exact uniform_construct (tests := testsP8) (fresh := fun g => .p8 (freshInst (varCfgOf g)))
  | constructP11 k => exact uniform_construct (tests := testsP11) (fresh := fun g => .p11 (freshInst (p11CfgOf g)))
  | constructP22 k => exact uniform_construct (tests := testsP22) (fresh := fun g => .p22 (freshInst (p22CfgOf g)))
  | protectP4 k =>
    refine uniform_withSlot fun x => ?_
    cases x with
    | p4 x => exact uniform_protect (onBuffer_p4 _) _ _ _
    | _ => exact uniform_raise _ _
  | protectP4M k =>
    refine uniform_withSlot fun x => ?_
    cases x with
    | p4m x => exact uniform_protect (onBuffer_p4m _) _ _ _
    | _ => exact uniform_raise _ _
  | protectP5 k =>
    refine uniform_withSlot fun x => ?_
    cases x with
    | p5 x => exact uniform_protect (onBuffer_p5 _) _ _ _
    | _ => exact uniform_raise _ _
  | protectP6 k =>
    refine uniform_withSlot fun x => ?_
    cases x with
    | p6 x => exact uniform_protect (onBuffer_p6 _) _ _ _
    | _ => exact uniform_raise _ _
  | protectP7 k =>
    refine uniform_withSlot fun x => ?_
    cases x with
    | p7 x => exact uniform_protect (onBuffer_p7 _) _ _ _
    | _ => exact uniform_raise _ _
  | protectP7M k =>
    refine uniform_withSlot fun x => ?_
    cases x with
    | p7m x => exact uniform_protect (onBuffer_p7m _) _ _ _
    | _ => exact uniform_raise _ _
  | protectP8 k =>
    refine uniform_withSlot fun x => ?_
    cases x with
    | p8 x => exact uniform_protect (onBuffer_p8 _) _ _ _
    | _ => exact uniform_raise _ _
  | protectP11 k =>
    refine uniform_withSlot fun x => ?_
    cases x with
    | p11 x => exact uniform_protect (onBuffer_p11 _) _ _ _
    | _ => exact uniform_raise _ _
  | protectP22 k =>
    refine uniform_withSlot fun x => ?_
    cases x with
    | p22 x => exact uniform_protect (onBuffer_p22 _) _ _ _
    | _ => exact uniform_raise _ _
  | checkP4 k =>
    refine uniform_withSlot fun x => ?_
    cases x with
    | p4 x => exact uniform_check (onBuffer_p4 _) _ _ _
    | _ => exact uniform_raise _ _
  | checkP4M k =>
    refine uniform_withSlot fun x => ?_
    cases x with
    | p4m x => exact uniform_check (onBuffer_p4m _) _ _ _
    | _ => exact uniform_raise _ _
  | checkP5 k =>
    refine uniform_withSlot fun x => ?_
    cases x with
    | p5 x => exact uniform_check (onBuffer_p5 _) _ _ _
    | _ => exact uniform_raise _ _
  | checkP6 k =>
    refine uniform_withSlot fun x => ?_
    cases x with
    | p6 x => exact uniform_check (onBuffer_p6 _) _ _ _
    | _ => exact uniform_raise _ _
  | checkP7 k =>
    refine uniform_withSlot fun x => ?_
    cases x with
    | p7 x => exact uniform_check (onBuffer_p7 _) _ _ _
    | _ => exact uniform_raise _ _
  | checkP7M k =>
    refine uniform_withSlot fun x => ?_
    cases x with
    | p7m x => exact uniform_check (onBuffer_p7m _) _ _ _
    | _ => exact uniform_raise _ _
  | checkP8 k =>
    refine uniform_withSlot fun x => ?_
    cases x with
    | p8 x => exact uniform_check (onBuffer_p8 _) _ _ _
    | _ => exact uniform_raise _ _
  | checkP11 k =>
    refine uniform_withSlot fun x => ?_
    cases x with
    | p11 x => exact uniform_check (onBuffer_p11 _) _ _ _
    | _ => exact uniform_raise _ _
  | checkP22 k =>
    refine uniform_withSlot fun x => ?_
    cases x with
    | p22 x => exact uniform_check (onBuffer_p22 _) _ _ _
    | _ => exact uniform_raise _ _

end Sys2Proof.Machine
end

