-- ==== Sys2Proof/Laws/Crc.lean ====
section
/-! SUPPORT. The algebra of the CRC engines (R131, R140 (b)): the register moves linearly, and without loss where Poly
is odd. -/

namespace Sys2Proof.Machine

/-! ### One shift -/

@[simp] theorem crcShift_zero {w : Nat} (e : Engine w) : crcShift e 0 = 0 := by simp [crcShift]

/-- A shift is linear. -/
theorem crcShift_xor {w : Nat} (e : Engine w) (a b : BitVec w) :
    crcShift e (a ^^^ b) = crcShift e a ^^^ crcShift e b := by
  simp only [crcShift, BitVec.msb_xor, BitVec.shiftLeft_xor_distrib]
  have h : (a <<< 1 ^^^ e.poly) ^^^ (b <<< 1 ^^^ e.poly) = (a <<< 1 ^^^ b <<< 1) ^^^ (e.poly ^^^ e.poly) := by ac_rfl
  cases a.msb <;> cases b.msb <;> simp [h] <;> ac_rfl

/-- A shift loses nothing where Poly is odd. -/
theorem crcShift_eq_zero {w : Nat} {e : Engine w} (ho : e.poly.getLsbD 0 = true) {a : BitVec w}
    (h : crcShift e a = 0) : a = 0 := by
  unfold crcShift at h
  split at h
  · have h0 := congrArg (BitVec.getLsbD · 0) h
    simp [ho] at h0
  · rename_i hm
    apply BitVec.eq_of_getLsbD_eq
    intro i hi
    by_cases hi' : i + 1 < w
    · have := congrArg (BitVec.getLsbD · (i + 1)) h
      simp only [BitVec.getLsbD_shiftLeft, hi', decide_true, Bool.true_and, Nat.add_sub_cancel,
        show ¬i + 1 < 1 by omega, decide_false, Bool.not_false] at this
      rw [this]
      simp
    · have hw : i = w - 1 := by omega
      subst hw
      simpa [BitVec.msb_eq_getLsbD_last] using hm

/-! ### A linear map repeated -/

theorem repeatTimes_xor {w : Nat} {f : BitVec w → BitVec w} (hf : ∀ a b, f (a ^^^ b) = f a ^^^ f b) :
    ∀ n a b, repeatTimes f n (a ^^^ b) = repeatTimes f n a ^^^ repeatTimes f n b
  | 0, _, _ => rfl
  | n + 1, a, b => by simp only [repeatTimes, hf, repeatTimes_xor hf n]

theorem repeatTimes_eq_zero {w : Nat} {f : BitVec w → BitVec w} (hf : ∀ a, f a = 0 → a = 0) :
    ∀ n a, repeatTimes f n a = 0 → a = 0
  | 0, _, h => h
  | n + 1, a, h => hf a (repeatTimes_eq_zero hf n _ h)

/-! ### Bytes -/

/-- A byte as it is added to the register: reflected if RefIn, at the top 8 bits (R131). -/
def crcEnter {w : Nat} (e : Engine w) (b : Byte) : BitVec w :=
  (if e.refIn then reflect b else b).setWidth w <<< (w - 8)

theorem crcByte_eq {w : Nat} (e : Engine w) (r : BitVec w) (b : Byte) :
    crcByte e r b = repeatTimes (crcShift e) 8 (r ^^^ crcEnter e b) := rfl

theorem reflect_xor {n : Nat} (a b : BitVec n) : reflect (a ^^^ b) = reflect a ^^^ reflect b := by
  apply BitVec.eq_of_getLsbD_eq
  intro i hi
  simp [reflect, BitVec.getLsbD_reverse, BitVec.getMsbD_xor]

@[simp] theorem reflect_reflect {n : Nat} (a : BitVec n) : reflect (reflect a) = a := BitVec.reverse_reverse_eq

theorem crcEnter_xor {w : Nat} (e : Engine w) (a b : Byte) : crcEnter e (a ^^^ b) = crcEnter e a ^^^ crcEnter e b := by
  unfold crcEnter
  cases e.refIn <;> simp [reflect_xor, BitVec.setWidth_xor, BitVec.shiftLeft_xor_distrib]

@[simp] theorem crcEnter_zero {w : Nat} (e : Engine w) : crcEnter e 0 = 0 := by
  have := crcEnter_xor e 0 0
  simpa using this

/-- A byte that is not 0 leaves a mark in a register of at least 8 bits. -/
theorem crcEnter_eq_zero {w : Nat} (e : Engine w) (hw : 8 ≤ w) {b : Byte} (h : crcEnter e b = 0) : b = 0 := by
  have key : ∀ c : Byte, (c.setWidth w <<< (w - 8) : BitVec w) = 0 → c = 0 := by
    intro c hc
    apply BitVec.eq_of_getLsbD_eq
    intro i hi
    have := congrArg (BitVec.getLsbD · (w - 8 + i)) hc
    simp only [BitVec.getLsbD_shiftLeft, BitVec.getLsbD_setWidth] at this
    simpa [show w - 8 + i < w by omega, show i < w by omega] using this
  unfold crcEnter at h
  cases hr : e.refIn with
  | false => simp only [hr] at h; exact key b h
  | true =>
    simp only [hr] at h
    have := congrArg reflect (key _ h)
    rw [if_pos trivial, reflect_reflect] at this
    exact this.trans (by decide)

theorem crcByte_xor {w : Nat} (e : Engine w) (r r' : BitVec w) (b b' : Byte) :
    crcByte e (r ^^^ r') (b ^^^ b') = crcByte e r b ^^^ crcByte e r' b' := by
  rw [crcByte_eq, crcByte_eq, crcByte_eq, ← repeatTimes_xor (crcShift_xor e), crcEnter_xor]
  congr 1
  ac_rfl

/-! ### Byte sequences -/

@[simp] theorem crcFeed_nil {w : Nat} (e : Engine w) (r : BitVec w) : crcFeed e r [] = r := rfl

@[simp] theorem crcFeed_cons {w : Nat} (e : Engine w) (r : BitVec w) (b : Byte) (bs : List Byte) :
    crcFeed e r (b :: bs) = crcFeed e (crcByte e r b) bs := rfl

/-- Feeding a concatenation is feeding its parts one after the other (R133). -/
theorem crcFeed_append {w : Nat} (e : Engine w) (r : BitVec w) (s t : List Byte) :
    crcFeed e r (s ++ t) = crcFeed e (crcFeed e r s) t := by simp [crcFeed]

/-- The register is linear in its start and the bytes together. -/
theorem crcFeed_xor {w : Nat} (e : Engine w) : ∀ (s t : List Byte) (r r' : BitVec w), s.length = t.length →
    crcFeed e (r ^^^ r') (List.zipWith (· ^^^ ·) s t) = crcFeed e r s ^^^ crcFeed e r' t
  | [], [], _, _, _ => rfl
  | [], _ :: _, _, _, h => by simp at h
  | _ :: _, [], _, _, h => by simp at h
  | a :: s, b :: t, r, r', h => by
    simp only [List.zipWith_cons_cons, crcFeed_cons, crcByte_xor]
    exact crcFeed_xor e s t _ _ (by simpa using h)

/-- From two different registers the same bytes lead to two different registers, where Poly is odd. -/
theorem crcFeed_injective {w : Nat} {e : Engine w} (ho : e.poly.getLsbD 0 = true) (bs : List Byte) {r r' : BitVec w}
    (h : crcFeed e r bs = crcFeed e r' bs) : r = r' := by
  induction bs generalizing r r' with
  | nil => exact h
  | cons b bs ih =>
    have h1 := ih (by simpa using h)
    rw [crcByte_eq, crcByte_eq] at h1
    have h2 : repeatTimes (crcShift e) 8 ((r ^^^ crcEnter e b) ^^^ (r' ^^^ crcEnter e b)) = 0 := by
      rw [repeatTimes_xor (crcShift_xor e), h1, BitVec.xor_self]; rfl
    have h3 := repeatTimes_eq_zero (fun a => crcShift_eq_zero ho) 8 _ h2
    have h4 : r ^^^ r' = 0 := by
      rw [← h3, show (r ^^^ crcEnter e b) ^^^ (r' ^^^ crcEnter e b) = (r ^^^ r') ^^^ (crcEnter e b ^^^ crcEnter e b) by
        ac_rfl, BitVec.xor_self, BitVec.xor_zero]
    exact BitVec.xor_eq_zero_iff.mp h4

theorem crcFinish_injective {w : Nat} (e : Engine w) {r r' : BitVec w} (h : crcFinish e r = crcFinish e r') : r = r' := by
  unfold crcFinish at h
  have h1 := congrArg (· ^^^ e.xorOut) h
  simp only [BitVec.xor_assoc, BitVec.xor_self, BitVec.xor_zero] at h1
  cases hr : e.refOut with
  | false => simpa [hr] using h1
  | true =>
    have := congrArg reflect (show reflect r = reflect r' by simpa [hr] using h1)
    simpa using this

end Sys2Proof.Machine
end

