-- ==== Sys2Proof/Laws/Encoding.lean ====
section
/-! SUPPORT. The three fields of a command word, as numbers (R90, R91). -/

namespace Sys2Proof

theorem opcField_eq (w : Word32) : opcField w = w.toNat / 2 ^ 24 := by
  simp only [opcField, BitVec.extractLsb'_toNat, Nat.shiftRight_eq_div_pow]
  exact Nat.mod_eq_of_lt (by have := w.isLt; omega)

theorem slotField_eq (w : Word32) : slotField w = w.toNat / 2 ^ 16 % 2 ^ 8 := by
  simp only [slotField, BitVec.extractLsb'_toNat, Nat.shiftRight_eq_div_pow]

theorem zeroField_eq (w : Word32) : zeroField w = w.toNat % 2 ^ 16 := by
  simp only [zeroField, BitVec.extractLsb'_toNat, Nat.shiftRight_zero]

theorem slotField_lt (w : Word32) : slotField w < 256 := BitVec.isLt _

/-- The number a command word is. -/
theorem commandWord_toNat {o k : Nat} (ho : o < 256) (hk : k < 256) :
    (commandWord o k).toNat = o * 2 ^ 24 + k * 2 ^ 16 := by
  have h1 : (BitVec.ofNat 8 o ++ BitVec.ofNat 8 k : BitVec 16).toNat = o * 2 ^ 8 + k := by
    rw [BitVec.toNat_append, ← Nat.shiftLeft_add_eq_or_of_lt (BitVec.isLt _), Nat.shiftLeft_eq, BitVec.toNat_ofNat,
      BitVec.toNat_ofNat]
    omega
  have h2 : (commandWord o k).toNat = (BitVec.ofNat 8 o ++ BitVec.ofNat 8 k : BitVec 16).toNat <<< 16 ||| 0 :=
    BitVec.toNat_append _ _
  rw [h2, h1, Nat.or_zero, Nat.shiftLeft_eq]
  omega

/-- The fields of a command word. -/
theorem commandWord_fields {o k : Nat} (ho : o < 256) (hk : k < 256) :
    opcField (commandWord o k) = o ∧ slotField (commandWord o k) = k ∧ zeroField (commandWord o k) = 0 := by
  rw [opcField_eq, slotField_eq, zeroField_eq, commandWord_toNat ho hk]
  omega

/-- A word with a zero ZERO field is the command word of its other two fields. -/
theorem eq_commandWord {w : Word32} (h : zeroField w = 0) : w = commandWord (opcField w) (slotField w) := by
  apply BitVec.eq_of_toNat_eq
  have ho : opcField w < 256 := BitVec.isLt _
  rw [commandWord_toNat ho (slotField_lt w), opcField_eq, slotField_eq]
  rw [zeroField_eq] at h
  have := w.isLt
  omega

/-- What a lookup finds is a row. -/
theorem mem_of_lookupOpc {o : Nat} {i : Instr} : ∀ {l : List (Nat × Instr)}, lookupOpc o l = some i → (o, i) ∈ l
  | [], h => by simp [lookupOpc] at h
  | (k, j) :: l, h => by
    unfold lookupOpc at h
    split at h
    · simp_all
    · exact List.mem_cons_of_mem _ (mem_of_lookupOpc h)

theorem lookupOpc_append (o : Nat) (l m : List (Nat × Instr)) :
    lookupOpc o (l ++ m) = (lookupOpc o l).or (lookupOpc o m) := by
  induction l with
  | nil => simp [lookupOpc]
  | cons r l ih =>
    obtain ⟨k, i⟩ := r
    simp only [List.cons_append, lookupOpc, ih]
    split <;> rfl

theorem opcOf_lt (i : Instr) : opcOf i < 256 := by cases i <;> simp [opcOf]

/-- The slot index of a well-formed command fits the SLOT field. -/
theorem slot_lt {i : Instr} (h : WellFormed i) : i.slot?.getD 0 < 256 := by
  unfold WellFormed wellFormed at h
  cases hi : i.slot? <;> simp_all

end Sys2Proof
end

