-- ==== Sys2Proof/Laws/Local.lean ====
section
/-! SUPPORT. Where a command looks: inside the message only (R30, R67, R219), and what a missing byte does. -/

namespace Sys2Proof.Machine

/-- Two states with one LEN and one BUF_BYTES whose buffers agree below `n`. -/
structure AgreeBelow (n : Nat) (s s' : State) : Prop where
  len : s'.len = s.len
  bufBytes : s'.bufBytes = s.bufBytes
  fits : n ≤ s.bufBytes
  agree : ∀ a, a < n → s'.buf.get? a = s.buf.get? a

theorem AgreeBelow.refl {n : Nat} {s : State} (h : n ≤ s.bufBytes) : AgreeBelow n s s := ⟨rfl, rfl, h, fun _ _ => rfl⟩

/-- The stop of an access below `n` to a byte without a value. -/
def MissingBelow (n : Nat) (s : State) (e : Stop) : Prop :=
  ∃ a, e = .refused (.byteWithoutValue a) ∧ a < n ∧ s.buf.get? a = none

/-- A computation that reads bytes below `n` and no others, of states with LEN `len`. -/
def ReadsBelow {α : Type} (n : Nat) (len : Word32) (f : State → Access α) : Prop :=
  ∀ s s', s.len = len → AgreeBelow n s s' → f s' = f s ∧ ∀ e, f s = .error e → MissingBelow n s e

/-- A computation that reads and writes bytes below `n` and no others, and takes no value from a byte. -/
def StoresBelow (n : Nat) (len : Word32) (g : State → Access State) : Prop :=
  ∀ s s', s.len = len → AgreeBelow n s s' →
    (∃ e, g s = .error e ∧ g s' = .error e ∧ MissingBelow n s e) ∨
    ∃ m m', g s = .ok (s.setBuf m) ∧ g s' = .ok (s'.setBuf m') ∧ (∀ a, a < n → m'.get? a = m.get? a) ∧
      (∀ a, n ≤ a → m.get? a = s.buf.get? a ∧ m'.get? a = s'.buf.get? a) ∧
      ∀ a, m.get? a = none → s.buf.get? a = none

theorem readsBelow_pure {α : Type} (n : Nat) (len : Word32) (v : α) : ReadsBelow n len fun _ => (.ok v : Access α) :=
  fun _ _ _ _ => ⟨rfl, fun _ h => by cases h⟩

theorem ReadsBelow.bind {α β : Type} {n : Nat} {len : Word32} {f : State → Access α} {g : α → State → Access β}
    (hf : ReadsBelow n len f) (hg : ∀ v, ReadsBelow n len (g v)) : ReadsBelow n len fun s => f s >>= fun v => g v s := by
  intro s s' hl h
  obtain ⟨h1, h2⟩ := hf s s' hl h
  simp only [h1]
  cases hv : f s with
  | error e => exact ⟨rfl, fun e' he => by cases he; exact h2 e hv⟩
  | ok v => exact hg v s s' hl h

theorem readsBelow_readByte {n a : Nat} {len : Word32} (ha : a < n) : ReadsBelow n len fun s => readByte s a := by
  intro s s' _ h
  have hb : a < s.bufBytes := lt_of_lt_of_le ha h.fits
  simp only [readByte, h.bufBytes, h.agree a ha, if_pos hb, true_and]
  intro e he
  split at he
  · cases he
  · rename_i hn
    cases he
    exact ⟨a, rfl, ha, hn⟩

theorem readsBelow_readBytes {n : Nat} {len : Word32} : ∀ {k a : Nat}, a + k ≤ n ∨ k = 0 →
    ReadsBelow n len fun s => readBytes s a k
  | 0, _, _ => readsBelow_pure n len []
  | k + 1, a, h =>
    (readsBelow_readByte (by omega)).bind fun _ =>
      (readsBelow_readBytes (k := k) (by omega)).bind fun _ => readsBelow_pure n len _

theorem readsBelow_memRead {n a k : Nat} {len : Word32} (h : a + k ≤ n) : ReadsBelow n len fun s => memRead s a k :=
  (readsBelow_readBytes (.inl h)).bind fun _ => readsBelow_pure n len _

theorem readsBelow_fieldIs {n a k v : Nat} {len : Word32} (h : a + k ≤ n) : ReadsBelow n len (fieldIs a k v) :=
  (readsBelow_memRead h).bind fun _ => readsBelow_pure n len _

theorem readsBelow_lengthFieldIs {n a k : Nat} {len : Word32} (h : a + k ≤ n) : ReadsBelow n len (lengthFieldIs a k) := by
  intro s s' hl hs
  have := readsBelow_fieldIs (v := len.toNat) (len := len) h s s' hl hs
  simpa only [lengthFieldIs, hs.len, hl] using this

theorem readsBelow_nibRead {n o : Nat} {len : Word32} (h : o / 8 < n) : ReadsBelow n len fun s => nibRead s o :=
  (readsBelow_readByte h).bind fun _ => readsBelow_pure n len _

theorem readsBelow_coverBytes {n c0 cn : Nat} {len : Word32} (h0 : c0 ≤ n) (hn : len.toNat ≤ n) :
    ReadsBelow n len fun s => coverBytes s c0 cn := by
  have h : ReadsBelow n len fun s => readBytes s 0 c0 >>= fun before =>
      readBytes s (c0 + cn) (len.toNat - (c0 + cn)) >>= fun after => (.ok (before ++ after) : Access (List Byte)) :=
    (readsBelow_readBytes (by omega)).bind fun _ => (readsBelow_readBytes (by omega)).bind fun _ =>
      readsBelow_pure n len _
  intro s s' hl hs
  have := h s s' hl hs
  simpa only [coverBytes, hs.len, hl] using this

/-! ### Stores -/

theorem storesBelow_id (n : Nat) (len : Word32) : StoresBelow n len fun s => .ok s := by
  intro s s' _ h
  exact .inr ⟨s.buf, s'.buf, rfl, rfl, h.agree, fun _ _ => ⟨rfl, rfl⟩, fun _ => id⟩

theorem StoresBelow.bind {n : Nat} {len : Word32} {f g : State → Access State} (hf : StoresBelow n len f)
    (hg : StoresBelow n len g) : StoresBelow n len fun s => f s >>= g := by
  intro s s' hl h
  rcases hf s s' hl h with ⟨e, h1, h2, h3⟩ | ⟨m, m', h1, h2, h3, h4, h5⟩
  · exact .inl ⟨e, by simp only [h1]; rfl, by simp only [h2]; rfl, h3⟩
  · simp only [h1, h2, access_ok_bind]
    rcases hg (s.setBuf m) (s'.setBuf m') hl ⟨h.len, h.bufBytes, h.fits, h3⟩ with
      ⟨e, k1, k2, a, k3, k4, k5⟩ | ⟨u, u', k1, k2, k3, k4, k5⟩
    · exact .inl ⟨e, k1, k2, a, k3, k4, h5 a k5⟩
    · exact .inr ⟨u, u', k1, k2, k3,
        fun a ha => ⟨(k4 a ha).1.trans (h4 a ha).1, (k4 a ha).2.trans (h4 a ha).2⟩, fun a ha => h5 a (k5 a ha)⟩

theorem storesBelow_writeByte {n a : Nat} {len : Word32} (b : Byte) (ha : a < n) :
    StoresBelow n len fun s => writeByte s a b := by
  intro s s' _ h
  have hb : a < s.bufBytes := lt_of_lt_of_le ha h.fits
  refine .inr ⟨s.buf.set a b, s'.buf.set a b, ?_, ?_, fun x hx => ?_, fun x hx => ?_, fun x hx => ?_⟩
  · simp only [writeByte, if_pos hb]
  · simp only [writeByte, h.bufBytes, if_pos hb]
  · rw [Memory.get?_set, Memory.get?_set, h.agree x hx]
  · exact ⟨Memory.get?_set_other _ _ (by omega), Memory.get?_set_other _ _ (by omega)⟩
  · rw [Memory.get?_set] at hx
    split at hx
    · cases hx
    · exact hx

theorem storesBelow_writeBytes {n : Nat} {len : Word32} : ∀ {bs : List Byte} {a : Nat}, a + bs.length ≤ n →
    StoresBelow n len fun s => writeBytes s a bs
  | [], _, _ => storesBelow_id n len
  | b :: bs, a, h => by
    simp only [List.length_cons] at h
    exact (storesBelow_writeByte b (by omega)).bind (storesBelow_writeBytes (bs := bs) (by omega))

theorem storesBelow_memWrite {n a k v : Nat} {len : Word32} (h : a + k ≤ n) :
    StoresBelow n len fun s => memWrite s a k v := storesBelow_writeBytes (by simpa using h)

theorem storesBelow_lenWrite {n a k : Nat} {len : Word32} (h : a + k ≤ n) :
    StoresBelow n len fun s => memWrite s a k s.len.toNat := by
  intro s s' hl hs
  have := storesBelow_memWrite (v := len.toNat) (len := len) h s s' hl hs
  simpa only [hs.len, hl] using this

theorem storesBelow_nibWrite {n o v : Nat} {len : Word32} (h : o / 8 < n) :
    StoresBelow n len fun s => nibWrite s o v := by
  intro s s' hl hs
  obtain ⟨h1, h2⟩ := readsBelow_readByte (len := len) h s s' hl hs
  simp only [nibWrite, h1]
  cases hb : readByte s (o / 8) with
  | error e => exact .inl ⟨e, rfl, rfl, h2 e hb⟩
  | ok b => exact storesBelow_writeByte (withNibble o b v) h s s' hl hs

/-- A store whose value is computed from the message. -/
theorem ReadsBelow.bindStore {α : Type} {n : Nat} {len : Word32} {f : State → Access α} {g : α → State → Access State}
    (hf : ReadsBelow n len f) (hg : ∀ v, StoresBelow n len (g v)) :
    StoresBelow n len fun s => f s >>= fun v => g v s := by
  intro s s' hl h
  obtain ⟨h1, h2⟩ := hf s s' hl h
  simp only [h1]
  cases hv : f s with
  | error e => exact .inl ⟨e, rfl, rfl, h2 e hv⟩
  | ok v => exact hg v s s' hl h

/-! ### Frames -/

/-- A frame whose accesses are all below `n`, for messages of length `len`. -/
structure Frame.Local {w : Nat} (fr : Frame w) (n : Nat) (len : Word32) : Prop where
  stamp : ∀ tx, StoresBelow n len (fr.stamp tx)
  crcField : fr.crcAt + fr.crcBytes ≤ n
  crc : ReadsBelow n len fr.crc
  lengthAgrees : ReadsBelow n len fr.lengthAgrees
  idAgrees : ReadsBelow n len fr.idAgrees
  counter : ReadsBelow n len fr.counter

theorem local_p4 {c : VarCfg 32} {len : Word32} (hc : c.Ok .p4) (hl : lenOkRange c.minLen c.maxLen len.toNat = true) :
    (frameP4 c).Local len.toNat len := by
  have h1 := hc.inside
  have h2 := lenOkRange_iff.mp hl
  simp only [headerBytes] at h1
  have h : c.ob + 12 ≤ len.toNat := by simp only [VarCfg.ob]; omega
  exact ⟨fun tx => (storesBelow_lenWrite (by omega)).bind ((storesBelow_memWrite (by omega)).bind (storesBelow_memWrite (by omega))),
    by simp only [frameP4]; omega,
    ((readsBelow_coverBytes (by omega) le_rfl).bind fun _ => readsBelow_pure _ _ _),
    readsBelow_lengthFieldIs (by omega), readsBelow_fieldIs (by omega), readsBelow_memRead (by omega)⟩

theorem local_p4m {c : MetaCfg} {len : Word32} (hc : c.toVarCfg.Ok .p4m) (hl : lenOkRange c.minLen c.maxLen len.toNat = true) :
    (frameP4M c).Local len.toNat len := by
  have h1 := hc.inside
  have h2 := lenOkRange_iff.mp hl
  simp only [headerBytes] at h1
  have h : c.ob + 16 ≤ len.toNat := by simp only [VarCfg.ob]; omega
  exact ⟨fun tx => (storesBelow_lenWrite (by omega)).bind ((storesBelow_memWrite (by omega)).bind ((storesBelow_memWrite (by omega)).bind (storesBelow_memWrite (by omega)))),
    by simp only [frameP4M]; omega,
    ((readsBelow_coverBytes (by omega) le_rfl).bind fun _ => readsBelow_pure _ _ _),
    readsBelow_lengthFieldIs (by omega), (readsBelow_fieldIs (by omega)).bind fun _ => (readsBelow_fieldIs (by omega)).bind fun _ =>
      readsBelow_pure _ _ _, readsBelow_memRead (by omega)⟩

theorem local_p5 {c : FixCfg} {len : Word32} (hc : c.Ok) (hl : lenOkFixed c.dataLen len.toNat = true) :
    (frameP5 c).Local len.toNat len := by
  have h1 := hc.inside
  have h2 := lenOkFixed_iff.mp hl
  simp only [headerBytes] at h1
  have h : c.ob + 3 ≤ len.toNat := by simp only [FixCfg.ob]; omega
  exact ⟨fun tx => storesBelow_memWrite (by omega),
    by simp only [frameP5]; omega,
    ((readsBelow_coverBytes (by omega) le_rfl).bind fun _ => readsBelow_pure _ _ _).bind fun _ => readsBelow_pure _ _ _,
    readsBelow_pure _ _ _, readsBelow_pure _ _ _, readsBelow_memRead (by omega)⟩

theorem local_p6 {c : VarCfg 16} {len : Word32} (hc : c.Ok .p6) (hl : lenOkRange c.minLen c.maxLen len.toNat = true) :
    (frameP6 c).Local len.toNat len := by
  have h1 := hc.inside
  have h2 := lenOkRange_iff.mp hl
  simp only [headerBytes] at h1
  have h : c.ob + 5 ≤ len.toNat := by simp only [VarCfg.ob]; omega
  exact ⟨fun tx => (storesBelow_lenWrite (by omega)).bind (storesBelow_memWrite (by omega)),
    by simp only [frameP6]; omega,
    ((readsBelow_coverBytes (by omega) le_rfl).bind fun _ => readsBelow_pure _ _ _).bind fun _ => readsBelow_pure _ _ _,
    readsBelow_lengthFieldIs (by omega), readsBelow_pure _ _ _, readsBelow_memRead (by omega)⟩

theorem local_p7 {c : VarCfg 32} {len : Word32} (hc : c.Ok .p7) (hl : lenOkRange c.minLen c.maxLen len.toNat = true) :
    (frameP7 c).Local len.toNat len := by
  have h1 := hc.inside
  have h2 := lenOkRange_iff.mp hl
  simp only [headerBytes] at h1
  have h : c.ob + 20 ≤ len.toNat := by simp only [VarCfg.ob]; omega
  exact ⟨fun tx => (storesBelow_lenWrite (by omega)).bind ((storesBelow_memWrite (by omega)).bind (storesBelow_memWrite (by omega))),
    by simp only [frameP7]; omega,
    ((readsBelow_coverBytes (by omega) le_rfl).bind fun _ => readsBelow_pure _ _ _),
    readsBelow_lengthFieldIs (by omega), readsBelow_fieldIs (by omega), readsBelow_memRead (by omega)⟩

theorem local_p7m {c : MetaCfg} {len : Word32} (hc : c.toVarCfg.Ok .p7m) (hl : lenOkRange c.minLen c.maxLen len.toNat = true) :
    (frameP7M c).Local len.toNat len := by
  have h1 := hc.inside
  have h2 := lenOkRange_iff.mp hl
  simp only [headerBytes] at h1
  have h : c.ob + 24 ≤ len.toNat := by simp only [VarCfg.ob]; omega
  exact ⟨fun tx => (storesBelow_lenWrite (by omega)).bind ((storesBelow_memWrite (by omega)).bind ((storesBelow_memWrite (by omega)).bind (storesBelow_memWrite (by omega)))),
    by simp only [frameP7M]; omega,
    ((readsBelow_coverBytes (by omega) le_rfl).bind fun _ => readsBelow_pure _ _ _),
    readsBelow_lengthFieldIs (by omega), (readsBelow_fieldIs (by omega)).bind fun _ => (readsBelow_fieldIs (by omega)).bind fun _ =>
      readsBelow_pure _ _ _, readsBelow_memRead (by omega)⟩

theorem local_p8 {c : VarCfg 32} {len : Word32} (hc : c.Ok .p8) (hl : lenOkRange c.minLen c.maxLen len.toNat = true) :
    (frameP8 c).Local len.toNat len := by
  have h1 := hc.inside
  have h2 := lenOkRange_iff.mp hl
  simp only [headerBytes] at h1
  have h : c.ob + 16 ≤ len.toNat := by simp only [VarCfg.ob]; omega
  exact ⟨fun tx => (storesBelow_lenWrite (by omega)).bind ((storesBelow_memWrite (by omega)).bind (storesBelow_memWrite (by omega))),
    by simp only [frameP8]; omega,
    ((readsBelow_coverBytes (by omega) le_rfl).bind fun _ => readsBelow_pure _ _ _),
    readsBelow_lengthFieldIs (by omega), readsBelow_fieldIs (by omega), readsBelow_memRead (by omega)⟩

theorem local_p11 {c : P11Cfg} {len : Word32} (hc : c.Ok) (hl : lenOkFixed c.dataLen len.toNat = true) :
    (frameP11 c).Local len.toNat len := by
  have h1 := hc.crcInside
  have h2 := hc.counterInside
  have h3 := lenOkFixed_iff.mp hl
  have h : c.cb + 1 ≤ len.toNat := by simp only [P11Cfg.cb]; omega
  refine ⟨fun tx => (storesBelow_nibWrite (by omega)).bind ?_, by simp only [frameP11]; omega,
    ((readsBelow_coverBytes (by omega) le_rfl).bind fun _ => readsBelow_pure _ _ _).bind fun _ => readsBelow_pure _ _ _,
    readsBelow_pure _ _ _, ?_, readsBelow_nibRead (by omega)⟩
  · cases hm : c.mode with
    | both => exact storesBelow_id _ _
    | nibble o => exact storesBelow_nibWrite (by have := hc.nibbleOk o hm; omega)
  · simp only [frameP11]
    cases hm : c.mode with
    | both => exact readsBelow_pure _ _ _
    | nibble o => exact (readsBelow_nibRead (by have := hc.nibbleOk o hm; omega)).bind fun _ => readsBelow_pure _ _ _

theorem local_p22 {c : P22Cfg} {len : Word32} (hc : c.Ok) (hl : lenOkFixed c.dataLen len.toNat = true) :
    (frameP22 c).Local len.toNat len := by
  have h1 := hc.inside
  have h3 := lenOkFixed_iff.mp hl
  simp only [headerBytes] at h1
  have h : c.ob + 2 ≤ len.toNat := by simp only [P22Cfg.ob]; omega
  exact ⟨fun tx => storesBelow_nibWrite (by omega), by simp only [frameP22]; omega,
    ((readsBelow_nibRead (by omega)).bind fun _ => (readsBelow_coverBytes (by omega) le_rfl).bind fun _ =>
      readsBelow_pure _ _ _).bind fun _ => readsBelow_pure _ _ _,
    readsBelow_pure _ _ _, readsBelow_pure _ _ _, readsBelow_nibRead (by omega)⟩

end Sys2Proof.Machine
end

