-- ==== Sys2Proof/Laws/Message.lean ====
section
/-! SUPPORT. Stores inside a message: what the message is afterwards, and what the CRC input of a stamped message is. -/

namespace Sys2Proof.Machine

/-! ### Patches side by side -/

/-- Two patches side by side are one patch. -/
theorem patch_patch_right {bs u v : List Byte} {a : Nat} (h : a + u.length ≤ bs.length) :
    patch (patch bs a u) (a + u.length) v = patch bs a (u ++ v) := by
  have h1 : (bs.take a ++ u).length = a + u.length := by simp; omega
  unfold patch
  rw [List.take_append_of_le_length (by simp; omega), List.take_of_length_le (by simp), List.drop_append,
    List.drop_of_length_le (by simp; omega), h1, List.drop_drop, List.length_append, List.nil_append,
    ← List.append_assoc, show a + u.length + (a + u.length + v.length - (a + u.length)) = a + (u.length + v.length) by omega]

/-- The same with the later patch before the earlier one. -/
theorem patch_patch_left {bs u v : List Byte} {a : Nat} (h : a + u.length ≤ bs.length) :
    patch (patch bs (a + u.length) v) a u = patch bs a (u ++ v) := by
  unfold patch
  have h1 : (bs.take (a + u.length)).length = a + u.length := by simp; omega
  rw [List.append_assoc (bs.take _), List.take_append_of_le_length (by omega), List.take_take,
    List.drop_append, List.drop_of_length_le (by omega), h1, List.length_append]
  simp only [Nat.sub_self, List.drop_zero, List.nil_append, List.append_assoc]
  rw [Nat.min_eq_left (by omega)]
  congr 3
  congr 1
  omega

/-- The bytes outside a field right behind a patch. -/
theorem coverOf_patch_right {bs u : List Byte} {a n : Nat} (h : a + u.length ≤ bs.length) :
    coverOf (patch bs a u) (a + u.length) n = bs.take a ++ u ++ bs.drop (a + u.length + n) := by
  have h1 : (bs.take a ++ u).length = a + u.length := by simp; omega
  unfold coverOf patch
  rw [List.take_append_of_le_length (by omega), List.take_of_length_le (by omega), List.drop_append,
    List.drop_of_length_le (by omega), h1, List.drop_drop]
  simp only [List.nil_append]
  congr 2
  omega

/-- The bytes outside a field right before a patch. -/
theorem coverOf_patch_left {bs u : List Byte} {a n : Nat} (h : a + n ≤ bs.length) :
    coverOf (patch bs (a + n) u) a n = bs.take a ++ u ++ bs.drop (a + n + u.length) := by
  have h1 : (bs.take (a + n)).length = a + n := by simp; omega
  unfold coverOf patch
  rw [List.append_assoc (bs.take _), List.take_append_of_le_length (by omega), List.take_take,
    Nat.min_eq_left (by omega), List.drop_append, List.drop_of_length_le (by omega), h1]
  simp

theorem patch_singleton {bs : List Byte} {a : Nat} {b : Byte} (h : a < bs.length) : patch bs a [b] = bs.set a b := by
  rw [List.set_eq_take_append_cons_drop, if_pos h]
  simp [patch]

/-! ### Reading a message back -/

/-- A field that is the middle of three parts. -/
theorem field_mid {l A B C : List Byte} {a n : Nat} (hl : l = A ++ (B ++ C)) (ha : A.length = a) (hn : B.length = n) :
    field l a n = beValue B := by
  subst hl ha hn
  simp [field, slice]

/-- The bytes outside the middle of three parts. -/
theorem take_drop_mid {l A B C : List Byte} {a b : Nat} (hl : l = A ++ (B ++ C)) (ha : A.length = a)
    (hb : a + B.length = b) : l.take a ++ l.drop b = A ++ C := by
  subst hl ha hb
  simp [List.drop_append]

/-- The bytes outside a byte that is replaced. -/
theorem take_drop_set (l : List Byte) (a : Nat) (b : Byte) :
    (l.set a b).take a ++ (l.set a b).drop (a + 1) = l.take a ++ l.drop (a + 1) := by
  rw [List.take_set_of_le (le_refl a), List.drop_set_of_lt (by omega)]

theorem byteOf_set (l : List Byte) (a c : Nat) (b : Byte) (h : a < l.length) :
    byteOf (l.set a b) c = if c = a then b else byteOf l c := by
  simp only [byteOf, List.getD_eq_getElem?_getD, List.getElem?_set]
  by_cases hc : a = c
  · subst hc
    simp [h]
  · simp [hc, Ne.symm hc]

theorem field_one (l : List Byte) (a : Nat) (h : a < l.length) : field l a 1 = (byteOf l a).toNat := by
  have : slice l a 1 = [byteOf l a] := by
    simp [slice, List.take_one, byteOf, List.head?_drop, List.getElem?_eq_getElem h]
  simp [field, this, beValue]

/-- With `COVER_ORDER` ascending the CRC input is every byte outside the CRC field (R224). -/
theorem headerCover_eq (s : State) (ob h c0 cn : Nat) : headerCover coverOrder s ob h c0 cn = coverBytes s c0 cn := rfl

/-! ### Stores inside a message -/

/-- `t` is `s` with the message `bs'` in the buffer, where the bytes in `blank` need hold no value yet, and with other
bytes at addresses in `P` at most. -/
def Stamped (P blank : Nat → Prop) (s : State) (bs' : List Byte) (t : State) : Prop :=
  ∃ m, t = s.setBuf m ∧ MessageBut blank (s.setBuf m) bs' ∧ ∀ a, ¬P a → m.get? a = s.buf.get? a

theorem Stamped.message {P blank : Nat → Prop} {s t : State} {bs : List Byte} (h : Stamped P blank s bs t) :
    MessageBut blank t bs := by
  obtain ⟨m, rfl, hm, -⟩ := h
  exact hm

theorem Stamped.len {P blank : Nat → Prop} {s t : State} {bs : List Byte} (h : Stamped P blank s bs t) :
    t.len = s.len := by
  obtain ⟨m, rfl, -, -⟩ := h
  rfl

theorem Stamped.trans {P blank blank' : Nat → Prop} {s t u : State} {bs bs' : List Byte} (h1 : Stamped P blank s bs t)
    (h2 : Stamped P blank' t bs' u) : Stamped P blank' s bs' u := by
  obtain ⟨m, rfl, -, hf⟩ := h1
  obtain ⟨n, rfl, hn, hg⟩ := h2
  exact ⟨n, rfl, hn, fun a ha => (hg a ha).trans (hf a ha)⟩

/-- `MemWrite` inside a message. -/
theorem memWrite_stamped {P blank blank' : Nat → Prop} {s : State} {bs : List Byte} (hm : MessageBut blank s bs)
    {a n : Nat} (v : Nat) (h : a + n ≤ s.len.toNat) (hP : ∀ x, a ≤ x → x < a + n → P x)
    (hb : ∀ x, blank x → blank' x ∨ (a ≤ x ∧ x < a + n)) :
    ∃ t, memWrite s a n v = .ok t ∧ Stamped P blank' s (patch bs a (beBytes n v)) t := by
  obtain ⟨m, h1, h2, h3⟩ := memWrite_messageBut hm v h hb
  exact ⟨_, h1, m, rfl, h2, fun x hx => by rw [h3, if_neg fun hc => hx (hP x hc.1 hc.2)]⟩

/-- `NibWrite` inside a message, in a byte that holds a value. -/
theorem nibWrite_stamped {P blank : Nat → Prop} {s : State} {bs : List Byte} (hm : MessageBut blank s bs) {o : Nat}
    (v : Nat) (h : o / 8 < s.len.toNat) (hP : P (o / 8)) (hb : ¬blank (o / 8)) :
    ∃ t, nibWrite s o v = .ok t ∧ Stamped P blank s (bs.set (o / 8) (withNibble o (byteOf bs (o / 8)) v)) t := by
  obtain ⟨m, h1, h2, h3⟩ := nibWrite_messageBut hm v h hb
  have hl := hm.length_eq
  rw [patch_singleton (by omega)] at h2
  exact ⟨_, h1, m, rfl, h2, fun x hx => by rw [h3, if_neg fun hc : x = o / 8 => hx (hc ▸ hP)]⟩

/-- A message, seen as itself with nothing patched at `a`. -/
theorem stamped_nil {P blank : Nat → Prop} {s : State} {bs : List Byte} (hm : MessageBut blank s bs) (a : Nat) :
    Stamped P blank s (patch bs a []) s :=
  ⟨s.buf, rfl, by simp only [patch, List.append_nil, List.length_nil, Nat.add_zero, List.take_append_drop]; exact hm,
    fun _ _ => rfl⟩

/-- A `MemWrite` right behind what was stamped before. -/
theorem stamped_next {P blank blank' : Nat → Prop} {s t : State} {bs u : List Byte} {a a' n : Nat} (v : Nat)
    (hs : Stamped P blank s (patch bs a u) t) (hl : bs.length = s.len.toNat) (ha : a' = a + u.length)
    (h : a' + n ≤ s.len.toNat) (hP : ∀ x, a ≤ x → x < a' + n → P x)
    (hb : ∀ x, blank x → blank' x ∨ (a' ≤ x ∧ x < a' + n)) :
    ∃ t', memWrite t a' n v = .ok t' ∧ Stamped P blank' s (patch bs a (u ++ beBytes n v)) t' := by
  subst ha
  obtain ⟨t', h1, h2⟩ := memWrite_stamped hs.message v (by rw [hs.len]; exact h) (fun x h1 h2 => hP x (by omega) h2) hb
  rw [patch_patch_right (by omega)] at h2
  exact ⟨t', h1, hs.trans h2⟩

/-! ### Protect and check on a message -/

/-- A protect on a message: its fields, the CRC of the stamped message, and the CRC field. Before the last store the
bytes of the CRC field need hold no value. -/
theorem protect_message {C : Type} {w : Nat} {fr : Frame w} {P blank : Nat → Prop} {put : Inst C w → Slot}
    {x : Inst C w} {i : Nat} {s s1 : State} {bs1 : List Byte} {v : Nat} (hl : fr.lenOk s.len.toNat = true)
    (h1 : fr.stamp x.tx s = .ok s1) (hs1 : Stamped P blank s bs1 s1) (hv : fr.crc s1 = .ok v)
    (hc : fr.crcAt + fr.crcBytes ≤ s.len.toNat) (hP : ∀ a, fr.crcAt ≤ a → a < fr.crcAt + fr.crcBytes → P a)
    (hb : ∀ a, blank a → fr.crcAt ≤ a ∧ a < fr.crcAt + fr.crcBytes) :
    ∃ m, protect fr put x i s = .next (((s.setBuf m).setSlot i (put { x with tx := x.tx + 1 })).setErr noError) ∧
      Message (s.setBuf m) (patch bs1 fr.crcAt (beBytes fr.crcBytes v)) ∧ ∀ a, ¬P a → m.get? a = s.buf.get? a := by
  obtain ⟨t, ht, hs⟩ := memWrite_stamped (blank' := fun _ => False) hs1.message v (by rw [hs1.len]; exact hc) hP
    fun a ha => .inr (hb a ha)
  obtain ⟨m, rfl, hm, hf⟩ := hs1.trans hs
  refine ⟨m, ?_, hm.message fun _ => id, hf⟩
  simp only [protect, if_pos hl, h1, hv, ht, access_ok_bind, run_ok]

/-- A check on a message: the four tests in order of precedence (R231), then the counter stage. -/
theorem check_message {C : Type} {w : Nat} {fr : Frame w} {put : Inst C w → Slot} {x : Inst C w} {i : Nat} {s : State}
    {lengthOk idOk : Bool} {stored computed r : Nat} (h1 : fr.lenOk s.len.toNat = true → fr.lengthAgrees s = .ok lengthOk)
    (h2 : fr.lenOk s.len.toNat = true → memRead s fr.crcAt fr.crcBytes = .ok stored)
    (h3 : fr.lenOk s.len.toNat = true → fr.crc s = .ok computed)
    (h4 : fr.lenOk s.len.toNat = true → fr.idAgrees s = .ok idOk)
    (h5 : fr.lenOk s.len.toNat = true → fr.counter s = .ok r) :
    check fr put x i s = .next (
      if fr.lenOk s.len.toNat = false then finding s .dataLengthError
      else if lengthOk = false then finding s .dataLengthError
      else if stored ≠ computed then finding s .crcError
      else if idOk = false then finding s .dataIdError
      else counterStage fr.delta put x i r s) := by
  unfold check
  cases hl : fr.lenOk s.len.toNat with
  | false => rfl
  | true =>
    simp only [h1 hl, h2 hl, h3 hl, h4 hl, h5 hl, access_ok_bind, if_true]
    cases lengthOk
    · rfl
    · by_cases hc : stored = computed
      · cases idOk <;> simp [hc]
      · simp [hc]

end Sys2Proof.Machine
end

