-- ==== Sys2Proof/Laws/PerInstr.lean ====
section
/-! SUPPORT. Statements for all commands, made per command. -/

namespace Sys2Proof.Laws

/-- The word of a well-formed command has the command's OPC in bits 31..24, its slot index (0 in format N) in bits
23..16 and zeros in bits 15..0 (R90, R91, R93). -/
def EncodedFields.Statement (i : Instr) : Prop :=
  WellFormed i → opcField (encode i) = opcOf i ∧ slotField (encode i) = i.slot?.getD 0 ∧ zeroField (encode i) = 0

theorem encodedFields (i : Instr) : EncodedFields.Statement i := fun h => commandWord_fields (opcOf_lt i) (slot_lt h)

theorem EncodedFields.crc8jCalc : EncodedFields.Statement .crc8jCalc := encodedFields _
theorem EncodedFields.crc8h2fCalc : EncodedFields.Statement .crc8h2fCalc := encodedFields _
theorem EncodedFields.crc16Calc : EncodedFields.Statement .crc16Calc := encodedFields _
theorem EncodedFields.crc32p4Calc : EncodedFields.Statement .crc32p4Calc := encodedFields _
theorem EncodedFields.crc64Calc : EncodedFields.Statement .crc64Calc := encodedFields _
theorem EncodedFields.rd8 : EncodedFields.Statement .rd8 := encodedFields _
theorem EncodedFields.rd16 : EncodedFields.Statement .rd16 := encodedFields _
theorem EncodedFields.rd32 : EncodedFields.Statement .rd32 := encodedFields _
theorem EncodedFields.rd64 : EncodedFields.Statement .rd64 := encodedFields _
theorem EncodedFields.rdnib : EncodedFields.Statement .rdnib := encodedFields _
theorem EncodedFields.wr8 : EncodedFields.Statement .wr8 := encodedFields _
theorem EncodedFields.wr16 : EncodedFields.Statement .wr16 := encodedFields _
theorem EncodedFields.wr32 : EncodedFields.Statement .wr32 := encodedFields _
theorem EncodedFields.wr64 : EncodedFields.Statement .wr64 := encodedFields _
theorem EncodedFields.wrnib : EncodedFields.Statement .wrnib := encodedFields _
theorem EncodedFields.cval4 : EncodedFields.Statement .cval4 := encodedFields _
theorem EncodedFields.cval8 : EncodedFields.Statement .cval8 := encodedFields _
theorem EncodedFields.cval16 : EncodedFields.Statement .cval16 := encodedFields _
theorem EncodedFields.cval32 : EncodedFields.Statement .cval32 := encodedFields _
theorem EncodedFields.constructP4 (k : Nat) : EncodedFields.Statement (.constructP4 k) := encodedFields _
theorem EncodedFields.constructP4M (k : Nat) : EncodedFields.Statement (.constructP4M k) := encodedFields _
theorem EncodedFields.constructP5 (k : Nat) : EncodedFields.Statement (.constructP5 k) := encodedFields _
theorem EncodedFields.constructP6 (k : Nat) : EncodedFields.Statement (.constructP6 k) := encodedFields _
theorem EncodedFields.constructP7 (k : Nat) : EncodedFields.Statement (.constructP7 k) := encodedFields _
theorem EncodedFields.constructP7M (k : Nat) : EncodedFields.Statement (.constructP7M k) := encodedFields _
theorem EncodedFields.constructP8 (k : Nat) : EncodedFields.Statement (.constructP8 k) := encodedFields _
theorem EncodedFields.constructP11 (k : Nat) : EncodedFields.Statement (.constructP11 k) := encodedFields _
theorem EncodedFields.constructP22 (k : Nat) : EncodedFields.Statement (.constructP22 k) := encodedFields _
theorem EncodedFields.protectP4 (k : Nat) : EncodedFields.Statement (.protectP4 k) := encodedFields _
theorem EncodedFields.protectP4M (k : Nat) : EncodedFields.Statement (.protectP4M k) := encodedFields _
theorem EncodedFields.protectP5 (k : Nat) : EncodedFields.Statement (.protectP5 k) := encodedFields _
theorem EncodedFields.protectP6 (k : Nat) : EncodedFields.Statement (.protectP6 k) := encodedFields _
theorem EncodedFields.protectP7 (k : Nat) : EncodedFields.Statement (.protectP7 k) := encodedFields _
theorem EncodedFields.protectP7M (k : Nat) : EncodedFields.Statement (.protectP7M k) := encodedFields _
theorem EncodedFields.protectP8 (k : Nat) : EncodedFields.Statement (.protectP8 k) := encodedFields _
theorem EncodedFields.protectP11 (k : Nat) : EncodedFields.Statement (.protectP11 k) := encodedFields _
theorem EncodedFields.protectP22 (k : Nat) : EncodedFields.Statement (.protectP22 k) := encodedFields _
theorem EncodedFields.checkP4 (k : Nat) : EncodedFields.Statement (.checkP4 k) := encodedFields _
theorem EncodedFields.checkP4M (k : Nat) : EncodedFields.Statement (.checkP4M k) := encodedFields _
theorem EncodedFields.checkP5 (k : Nat) : EncodedFields.Statement (.checkP5 k) := encodedFields _
theorem EncodedFields.checkP6 (k : Nat) : EncodedFields.Statement (.checkP6 k) := encodedFields _
theorem EncodedFields.checkP7 (k : Nat) : EncodedFields.Statement (.checkP7 k) := encodedFields _
theorem EncodedFields.checkP7M (k : Nat) : EncodedFields.Statement (.checkP7M k) := encodedFields _
theorem EncodedFields.checkP8 (k : Nat) : EncodedFields.Statement (.checkP8 k) := encodedFields _
theorem EncodedFields.checkP11 (k : Nat) : EncodedFields.Statement (.checkP11 k) := encodedFields _
theorem EncodedFields.checkP22 (k : Nat) : EncodedFields.Statement (.checkP22 k) := encodedFields _

end Sys2Proof.Laws
end

