-- ==== Sys2Proof/Tests/Slice0.lean ====
section
/-! SUPPORT. Tests of one step each, with expected results from spec/95_test_vectors.md and the rules' own examples, and
a witness for the hypotheses of every obligation that has any. -/

namespace Sys2Proof.Tests

open Sys2Proof.Machine

set_option Elab.async false

/-! ### Well-formed commands and the reset memory -/

/-- A slot index of more than 8 bits cannot be encoded (R90). -/
theorem test_wellFormed_refuses_slot_256 : ¬WellFormed (.checkP7 256) := by decide

theorem test_wellFormed_accepts_slot_255 : WellFormed (.checkP7 255) := by decide

/-- The words of three families, bit by bit: OPC, SLOT, ZERO (R90, R93). -/
theorem test_decode_bits :
    decode 0b00010010000000000000000000000000#32 = .ok .crc16Calc ∧
    decode 0b00101001000000000000000000000000#32 = .ok .wr16 ∧
    decode 0b00110011000000000000000000000000#32 = .ok .cval32 ∧
    decode 0b01000101000000110000000000000000#32 = .ok (.constructP7M 3) ∧
    decode 0b01010011100000000000000000000000#32 = .ok (.protectP6 128) ∧
    decode 0b01101000111111110000000000000000#32 = .ok (.checkP22 255) := by decide

theorem test_reset_memory_wf : State.reset.buf.wf = true := rfl

/-! ### Small states -/

/-- The buffer that holds a list of bytes from an address on. -/
def cells (a : Nat) : List Byte → Memory
  | [] => []
  | b :: bs => (a, b) :: cells (a + 1) bs

/-- A machine just reset with `cap` buffer bytes, then given a message and slots. -/
def machine (cap : Nat) (bs : List Byte) (slots : List Slot) : State :=
  { State.afterReset cap 1 [] with buf := cells 0 bs, len := BitVec.ofNat 32 bs.length, slots := slots }

/-- The same with ARG0 to ARG3. -/
def withArgs (s : State) (a0 a1 a2 a3 : Word64) : State := { s with arg0 := a0, arg1 := a1, arg2 := a2, arg3 := a3 }

/-- What a command's next state says of itself; false where the command stops. -/
def after (r : Result) (f : State → Bool) : Bool :=
  match r with
  | .next t => f t
  | _ => false

/-- The nine bytes of the codec vectors and of "123456789". -/
def codecBytes : List Byte := [0x12, 0x34, 0x56, 0x78, 0x9A, 0xBC, 0xDE, 0xF0, 0xA5]

def digits : List Byte := [0x31, 0x32, 0x33, 0x34, 0x35, 0x36, 0x37, 0x38, 0x39]

/-! ### CRC generators (spec/95 V-CRC) -/

/-- V-CRC-11 -/
theorem test_crc8jCalc : after (exec .crc8jCalc
    (withArgs (machine 64 digits []) 0 9 0xFF 0))
    (fun t => t.res0 == 0x4B && t.err == 0) = true := by decide +kernel

/-- V-CRC-12 -/
theorem test_crc8jCalc_initial : after (exec .crc8jCalc
    (withArgs (machine 64 digits []) 0 9 0 0))
    (fun t => t.res0 == 0xC8 && t.err == 0) = true := by decide +kernel

/-- V-CRC-11 -/
theorem test_crc8h2fCalc : after (exec .crc8h2fCalc
    (withArgs (machine 64 digits []) 0 9 0xFF 0))
    (fun t => t.res0 == 0xDF && t.err == 0) = true := by decide +kernel

/-- V-CRC-12 -/
theorem test_crc8h2fCalc_initial : after (exec .crc8h2fCalc
    (withArgs (machine 64 digits []) 0 9 0 0))
    (fun t => t.res0 == 0xC1 && t.err == 0) = true := by decide +kernel

/-- V-CRC-11 -/
theorem test_crc16Calc : after (exec .crc16Calc
    (withArgs (machine 64 digits []) 0 9 0xFFFF 0))
    (fun t => t.res0 == 0x29B1 && t.err == 0) = true := by decide +kernel

/-- V-CRC-12 -/
theorem test_crc16Calc_initial : after (exec .crc16Calc
    (withArgs (machine 64 digits []) 0 9 0 0))
    (fun t => t.res0 == 0x31C3 && t.err == 0) = true := by decide +kernel

/-- V-CRC-11 -/
theorem test_crc32p4Calc : after (exec .crc32p4Calc
    (withArgs (machine 64 digits []) 0 9 0xFFFFFFFF 0))
    (fun t => t.res0 == 0x1697D06A && t.err == 0) = true := by decide +kernel

/-- V-CRC-12 -/
theorem test_crc32p4Calc_initial : after (exec .crc32p4Calc
    (withArgs (machine 64 digits []) 0 9 0 0))
    (fun t => t.res0 == 0xA42BE83F && t.err == 0) = true := by decide +kernel

/-- V-CRC-11 -/
theorem test_crc64Calc : after (exec .crc64Calc
    (withArgs (machine 64 digits []) 0 9 0xFFFFFFFFFFFFFFFF 0))
    (fun t => t.res0 == 0x995DC9BBDF1939FA && t.err == 0) = true := by decide +kernel

/-- V-CRC-12 -/
theorem test_crc64Calc_initial : after (exec .crc64Calc
    (withArgs (machine 64 digits []) 0 9 0 0))
    (fun t => t.res0 == 0xD463811B1D87F375 && t.err == 0) = true := by decide +kernel

/-! ### Field codec (spec/95 V-CD) -/

/-- V-CD-1 -/
theorem test_rd8 : after (exec .rd8
    (withArgs (machine 9 codecBytes []) 64 0 0 0))
    (fun t => t.res0 == 0xA5 && t.err == 0) = true := by decide +kernel

/-- V-CD-1 -/
theorem test_rd8_error : after (exec .rd8
    (withArgs (machine 9 codecBytes []) 72 0 0 0))
    (fun t => t.res0 == 0 && t.err == 5) = true := by decide +kernel

/-- V-CD-1 -/
theorem test_rd16 : after (exec .rd16
    (withArgs (machine 9 codecBytes []) 8 0 0 0))
    (fun t => t.res0 == 0x3456 && t.err == 0) = true := by decide +kernel

/-- V-CD-1 -/
theorem test_rd16_error : after (exec .rd16
    (withArgs (machine 9 codecBytes []) 4 0 0 0))
    (fun t => t.res0 == 0 && t.err == 2) = true := by decide +kernel

/-- V-CD-1 -/
theorem test_rd32 : after (exec .rd32
    (withArgs (machine 9 codecBytes []) 40 0 0 0))
    (fun t => t.res0 == 0xBCDEF0A5 && t.err == 0) = true := by decide +kernel

/-- V-CD-1 -/
theorem test_rd32_error : after (exec .rd32
    (withArgs (machine 9 codecBytes []) 48 0 0 0))
    (fun t => t.res0 == 0 && t.err == 5) = true := by decide +kernel

/-- V-CD-1 -/
theorem test_rd64 : after (exec .rd64
    (withArgs (machine 9 codecBytes []) 8 0 0 0))
    (fun t => t.res0 == 0x3456789ABCDEF0A5 && t.err == 0) = true := by decide +kernel

/-- V-CD-1 -/
theorem test_rd64_error : after (exec .rd64
    (withArgs (machine 9 codecBytes []) 16 0 0 0))
    (fun t => t.res0 == 0 && t.err == 5) = true := by decide +kernel

/-- V-CD-1 -/
theorem test_rdnib : after (exec .rdnib
    (withArgs (machine 9 codecBytes []) 68 0 0 0))
    (fun t => t.res0 == 0xA && t.err == 0) = true := by decide +kernel

/-- V-CD-1 -/
theorem test_rdnib_error : after (exec .rdnib
    (withArgs (machine 9 codecBytes []) 2 0 0 0))
    (fun t => t.res0 == 0 && t.err == 2) = true := by decide +kernel

/-- V-CD-2 -/
theorem test_wr8 : after (exec .wr8
    (withArgs (machine 9 codecBytes []) 8 0xFF 0 0))
    (fun t => t.buf == cells 0 [0x12, 0xFF, 0x56, 0x78, 0x9A, 0xBC, 0xDE, 0xF0, 0xA5] && t.err == 0) = true := by decide +kernel

/-- V-CD-2 -/
theorem test_wr8_error : after (exec .wr8
    (withArgs (machine 9 codecBytes []) 0 0x100 0 0))
    (fun t => t.buf == cells 0 codecBytes && t.err == 1) = true := by decide +kernel

/-- V-CD-2 -/
theorem test_wr16 : after (exec .wr16
    (withArgs (machine 9 codecBytes []) 0 0xBEEF 0 0))
    (fun t => t.buf == cells 0 [0xBE, 0xEF, 0x56, 0x78, 0x9A, 0xBC, 0xDE, 0xF0, 0xA5] && t.err == 0) = true := by decide +kernel

/-- V-CD-2 -/
theorem test_wr16_error : after (exec .wr16
    (withArgs (machine 9 codecBytes []) 64 0x1 0 0))
    (fun t => t.buf == cells 0 codecBytes && t.err == 5) = true := by decide +kernel

/-- V-CD-2 -/
theorem test_wr32 : after (exec .wr32
    (withArgs (machine 9 codecBytes []) 16 0x1020304 0 0))
    (fun t => t.buf == cells 0 [0x12, 0x34, 0x01, 0x02, 0x03, 0x04, 0xDE, 0xF0, 0xA5] && t.err == 0) = true := by decide +kernel

/-- V-CD-2 -/
theorem test_wr32_error : after (exec .wr32
    (withArgs (machine 9 codecBytes []) 4 0x1 0 0))
    (fun t => t.buf == cells 0 codecBytes && t.err == 2) = true := by decide +kernel

/-- V-CD-2 -/
theorem test_wr64 : after (exec .wr64
    (withArgs (machine 9 codecBytes []) 8 0x1122334455667788 0 0))
    (fun t => t.buf == cells 0 [0x12, 0x11, 0x22, 0x33, 0x44, 0x55, 0x66, 0x77, 0x88] && t.err == 0) = true := by decide +kernel

/-- V-CD-2 -/
theorem test_wr64_error : after (exec .wr64
    (withArgs (machine 9 codecBytes []) 16 0x1 0 0))
    (fun t => t.buf == cells 0 codecBytes && t.err == 5) = true := by decide +kernel

/-- V-CD-2 -/
theorem test_wrnib : after (exec .wrnib
    (withArgs (machine 9 codecBytes []) 4 0x7 0 0))
    (fun t => t.buf == cells 0 [0x72, 0x34, 0x56, 0x78, 0x9A, 0xBC, 0xDE, 0xF0, 0xA5] && t.err == 0) = true := by decide +kernel

/-- V-CD-2 -/
theorem test_wrnib_error : after (exec .wrnib
    (withArgs (machine 9 codecBytes []) 0 0x10 0 0))
    (fun t => t.buf == cells 0 codecBytes && t.err == 1) = true := by decide +kernel

/-! ### Counter validator (spec/95 V-CV) -/

/-- V-CV-15 -/
theorem test_cval4_row_15 : after (exec .cval4
    (withArgs (machine 1 [] []) 0x3 0x2 0xF 1))
    (fun t => t.status == 1 && t.res0 == 0x2 && t.res1 == 1 && t.err == 0) = true := by decide +kernel

/-- V-CV-1 -/
theorem test_cval4_row_1 : after (exec .cval4
    (withArgs (machine 1 [] []) 0xF 0x0 0x1 1))
    (fun t => t.status == 0 && t.res0 == 0x0 && t.res1 == 1 && t.err == 0) = true := by decide +kernel

/-- V-CV-12 -/
theorem test_cval8_row_12 : after (exec .cval8
    (withArgs (machine 1 [] []) 0xA 0x9 0xFE 1))
    (fun t => t.status == 3 && t.res0 == 0xA && t.res1 == 1 && t.err == 0) = true := by decide +kernel

/-- V-CV-19 -/
theorem test_cval8_row_19 : after (exec .cval8
    (withArgs (machine 1 [] []) 0x100 0x1 0x1 0))
    (fun t => t.status == 0 && t.res0 == 0x1 && t.res1 == 1 && t.err == 0) = true := by decide +kernel

/-- V-CV-4 -/
theorem test_cval16_row_4 : after (exec .cval16
    (withArgs (machine 1 [] []) 0xFFFF 0x1 0x2 1))
    (fun t => t.status == 1 && t.res0 == 0x1 && t.res1 == 1 && t.err == 0) = true := by decide +kernel

/-- V-CV-17 -/
theorem test_cval16_row_17 : after (exec .cval16
    (withArgs (machine 1 [] []) 0x0 0xFFFF 0xFFFE 1))
    (fun t => t.status == 3 && t.res0 == 0x0 && t.res1 == 1 && t.err == 0) = true := by decide +kernel

/-- V-CV-5 -/
theorem test_cval32_row_5 : after (exec .cval32
    (withArgs (machine 1 [] []) 0x5 0x5 0xFFFFFFFE 1))
    (fun t => t.status == 2 && t.res0 == 0x5 && t.res1 == 1 && t.err == 0) = true := by decide +kernel

/-- V-CV-6 -/
theorem test_cval32_row_6 : after (exec .cval32
    (withArgs (machine 1 [] []) 0x5 0x4 0xFFFFFFFE 1))
    (fun t => t.status == 3 && t.res0 == 0x5 && t.res1 == 1 && t.err == 0) = true := by decide +kernel

/-! ### Configurations of the framer vectors -/

def cfgP4 : VarCfg 32 := ⟨0, 0x12345678, 96, 4096, 1⟩
def cfgP4M : MetaCfg := ⟨⟨0, 0x12345678, 128, 4096, 1⟩, 0x4000ABCD⟩
def cfgP5 : FixCfg := ⟨0, 0x1234, 64, 1⟩
def cfgP6 : VarCfg 16 := ⟨0, 0x1234, 40, 64, 1⟩
def cfgP7 : VarCfg 32 := ⟨0, 0x0A0B0C0D, 160, 32768, 1⟩
def cfgP7M : MetaCfg := ⟨⟨0, 0x0A0B0C0D, 192, 32768, 1⟩, 0x80000001⟩
def cfgP8 : VarCfg 32 := ⟨0, 0x0A0B0C0D, 128, 32768, 1⟩
def cfgP11 : P11Cfg := ⟨.nibble 12, 0, 8, 0x0123, 64, 1⟩
def cfgP22 : P22Cfg := ⟨0, (Vector.range 16).map fun k => BitVec.ofNat 8 (0x10 + k), 80, 1⟩

/-! ### Construct (spec/95 V-CN) -/

/-- A machine of one slot that holds `x`, with staging registers. -/
def staged (x : Slot) (g : Staging) : State := { machine 1 [] [x] with staging := g }

theorem test_constructP4 : after (exec (.constructP4 0)
    (staged .none { Staging.reset with dataId := 0x12345678, minLen := 96, maxLen := 4096, maxDelta := 1 }))
    (fun t => t.slots == [.p4 ⟨cfgP4, 0, none⟩] && t.err == 0) = true := by decide +kernel

theorem test_constructP4_error : after (exec (.constructP4 0)
    (staged .none { Staging.reset with dataId := 0x12345678, minLen := 88, maxLen := 4096, maxDelta := 0, offset := 4 }))
    (fun t => t.slots == [.none] && t.err == 2) = true := by decide +kernel

theorem test_constructP4M : after (exec (.constructP4M 0)
    (staged .none { Staging.reset with dataId := 0x12345678, metaWord := 0x4000ABCD, minLen := 128, maxLen := 4096, maxDelta := 1 }))
    (fun t => t.slots == [.p4m ⟨cfgP4M, 0, none⟩] && t.err == 0) = true := by decide +kernel

theorem test_constructP4M_error : after (exec (.constructP4M 0)
    (staged .none { Staging.reset with dataId := 0x12345678, metaWord := 0x4000ABCD, minLen := 120, maxLen := 4096, maxDelta := 1 }))
    (fun t => t.slots == [.none] && t.err == 1) = true := by decide +kernel

theorem test_constructP5 : after (exec (.constructP5 0)
    (staged .none { Staging.reset with dataId := 0x1234, dataLen := 64, maxDelta := 1 }))
    (fun t => t.slots == [.p5 ⟨cfgP5, 0, none⟩] && t.err == 0) = true := by decide +kernel

theorem test_constructP5_error : after (exec (.constructP5 0)
    (staged .none { Staging.reset with dataId := 0x10000, dataLen := 64, maxDelta := 1 }))
    (fun t => t.slots == [.none] && t.err == 1) = true := by decide +kernel

theorem test_constructP6 : after (exec (.constructP6 0)
    (staged .none { Staging.reset with dataId := 0x1234, minLen := 40, maxLen := 64, maxDelta := 1 }))
    (fun t => t.slots == [.p6 ⟨cfgP6, 0, none⟩] && t.err == 0) = true := by decide +kernel

theorem test_constructP6_error : after (exec (.constructP6 0)
    (staged .none { Staging.reset with dataId := 0x1234, minLen := 40, maxLen := 64, maxDelta := 0xFF }))
    (fun t => t.slots == [.none] && t.err == 4) = true := by decide +kernel

theorem test_constructP7 : after (exec (.constructP7 0)
    (staged .none { Staging.reset with dataId := 0x0A0B0C0D, minLen := 160, maxLen := 32768, maxDelta := 1 }))
    (fun t => t.slots == [.p7 ⟨cfgP7, 0, none⟩] && t.err == 0) = true := by decide +kernel

theorem test_constructP7_error : after (exec (.constructP7 0)
    (staged .none { Staging.reset with dataId := 0x0A0B0C0D, minLen := 160, maxLen := 32768, maxDelta := 0xFFFFFFFF }))
    (fun t => t.slots == [.none] && t.err == 4) = true := by decide +kernel

theorem test_constructP7M : after (exec (.constructP7M 0)
    (staged .none { Staging.reset with dataId := 0x0A0B0C0D, metaWord := 0x80000001, minLen := 192, maxLen := 32768, maxDelta := 1 }))
    (fun t => t.slots == [.p7m ⟨cfgP7M, 0, none⟩] && t.err == 0) = true := by decide +kernel

theorem test_constructP7M_error : after (exec (.constructP7M 0)
    (staged .none { Staging.reset with dataId := 0x0A0B0C0D, metaWord := 0x80000001, minLen := 184, maxLen := 32768, maxDelta := 1 }))
    (fun t => t.slots == [.none] && t.err == 1) = true := by decide +kernel

theorem test_constructP8 : after (exec (.constructP8 0)
    (staged .none { Staging.reset with dataId := 0x0A0B0C0D, minLen := 128, maxLen := 32768, maxDelta := 1 }))
    (fun t => t.slots == [.p8 ⟨cfgP8, 0, none⟩] && t.err == 0) = true := by decide +kernel

theorem test_constructP8_error : after (exec (.constructP8 0)
    (staged .none { Staging.reset with dataId := 0x0A0B0C0D, minLen := 120, maxLen := 32768, maxDelta := 1 }))
    (fun t => t.slots == [.none] && t.err == 1) = true := by decide +kernel

theorem test_constructP11 : after (exec (.constructP11 0)
    (staged .none { Staging.reset with mode := 1, counterOffset := 8, nibbleOffset := 12, dataId := 0x0123, dataLen := 64, maxDelta := 1 }))
    (fun t => t.slots == [.p11 ⟨cfgP11, 0, none⟩] && t.err == 0) = true := by decide +kernel

theorem test_constructP11_error : after (exec (.constructP11 0)
    (staged .none { Staging.reset with mode := 1, counterOffset := 4, nibbleOffset := 12, dataId := 0x0123, dataLen := 64, maxDelta := 1 }))
    (fun t => t.slots == [.none] && t.err == 3) = true := by decide +kernel

theorem test_constructP22 : after (exec (.constructP22 0)
    (staged .none { Staging.reset with idList := cfgP22.idList, dataLen := 80, maxDelta := 1 }))
    (fun t => t.slots == [.p22 ⟨cfgP22, 0, none⟩] && t.err == 0) = true := by decide +kernel

theorem test_constructP22_error : after (exec (.constructP22 0)
    (staged .none { Staging.reset with idList := cfgP22.idList, dataLen := 80, maxDelta := 16 }))
    (fun t => t.slots == [.none] && t.err == 4) = true := by decide +kernel

/-! ### Protect and check (spec/95 S1, S2, S6, S7 and V-FR) -/

theorem test_protectP4 : after (exec (.protectP4 0)
    (machine 64 [0x00, 0x00, 0x00, 0x00, 0x00, 0x00, 0x00, 0x00, 0x00, 0x00, 0x00, 0x00, 0x00, 0x00, 0x00, 0x00] [.p4 ⟨cfgP4, 0, none⟩]))
    (fun t => t.buf == cells 0 [0x00, 0x10, 0x00, 0x00, 0x12, 0x34, 0x56, 0x78, 0x05, 0x6A, 0x0C, 0xC5, 0x00, 0x00, 0x00, 0x00] && t.slots == [.p4 ⟨cfgP4, 1, none⟩] && t.err == 0) = true := by decide +kernel

theorem test_protectP4_again : after (exec (.protectP4 0)
    (machine 64 [0x00, 0x00, 0x00, 0x00, 0x00, 0x00, 0x00, 0x00, 0x00, 0x00, 0x00, 0x00] [.p4 ⟨cfgP4, 0xFFFF, none⟩]))
    (fun t => t.buf == cells 0 [0x00, 0x0C, 0xFF, 0xFF, 0x12, 0x34, 0x56, 0x78, 0x20, 0x32, 0xAF, 0x9B] && t.slots == [.p4 ⟨cfgP4, 0, none⟩] && t.err == 0) = true := by decide +kernel

theorem test_protectP4M : after (exec (.protectP4M 0)
    (machine 64 [0x00, 0x00, 0x00, 0x00, 0x00, 0x00, 0x00, 0x00, 0x00, 0x00, 0x00, 0x00, 0x00, 0x00, 0x00, 0x00, 0x00, 0x00, 0x00, 0x00] [.p4m ⟨cfgP4M, 0, none⟩]))
    (fun t => t.buf == cells 0 [0x00, 0x14, 0x00, 0x00, 0x12, 0x34, 0x56, 0x78, 0x40, 0x00, 0xAB, 0xCD, 0xAB, 0x91, 0xE3, 0xF2, 0x00, 0x00, 0x00, 0x00] && t.slots == [.p4m ⟨cfgP4M, 1, none⟩] && t.err == 0) = true := by decide +kernel

theorem test_protectP5 : after (exec (.protectP5 0)
    (machine 64 [0x00, 0x00, 0x00, 0xAA, 0xBB, 0xCC, 0xDD, 0xEE] [.p5 ⟨cfgP5, 0, none⟩]))
    (fun t => t.buf == cells 0 [0xBE, 0x91, 0x00, 0xAA, 0xBB, 0xCC, 0xDD, 0xEE] && t.slots == [.p5 ⟨cfgP5, 1, none⟩] && t.err == 0) = true := by decide +kernel

theorem test_protectP5_again : after (exec (.protectP5 0)
    (machine 64 [0x00, 0x00, 0x00, 0xAA, 0xBB, 0xCC, 0xDD, 0xEE] [.p5 ⟨cfgP5, 0xFF, none⟩]))
    (fun t => t.buf == cells 0 [0x2A, 0xDE, 0xFF, 0xAA, 0xBB, 0xCC, 0xDD, 0xEE] && t.slots == [.p5 ⟨cfgP5, 0, none⟩] && t.err == 0) = true := by decide +kernel

theorem test_protectP6 : after (exec (.protectP6 0)
    (machine 64 [0x00, 0x00, 0x00, 0x00, 0x00, 0xAA, 0xBB, 0xCC] [.p6 ⟨cfgP6, 0, none⟩]))
    (fun t => t.buf == cells 0 [0x61, 0xC7, 0x00, 0x08, 0x00, 0xAA, 0xBB, 0xCC] && t.slots == [.p6 ⟨cfgP6, 1, none⟩] && t.err == 0) = true := by decide +kernel

theorem test_protectP6_again : after (exec (.protectP6 0)
    (machine 64 [0x09, 0x09, 0x09, 0x09, 0x09] [.p6 ⟨cfgP6, 1, none⟩]))
    (fun t => t.buf == cells 0 [0x89, 0xBF, 0x00, 0x05, 0x01] && t.slots == [.p6 ⟨cfgP6, 2, none⟩] && t.err == 0) = true := by decide +kernel

theorem test_protectP7 : after (exec (.protectP7 0)
    (machine 64 [0x00, 0x00, 0x00, 0x00, 0x00, 0x00, 0x00, 0x00, 0x00, 0x00, 0x00, 0x00, 0x00, 0x00, 0x00, 0x00, 0x00, 0x00, 0x00, 0x00, 0xDE, 0xAD, 0xBE, 0xEF] [.p7 ⟨cfgP7, 0, none⟩]))
    (fun t => t.buf == cells 0 [0xE3, 0x91, 0xCB, 0x2F, 0x7C, 0x85, 0xCD, 0x76, 0x00, 0x00, 0x00, 0x18, 0x00, 0x00, 0x00, 0x00, 0x0A, 0x0B, 0x0C, 0x0D, 0xDE, 0xAD, 0xBE, 0xEF] && t.slots == [.p7 ⟨cfgP7, 1, none⟩] && t.err == 0) = true := by decide +kernel

theorem test_protectP7M : after (exec (.protectP7M 0)
    (machine 64 [0x00, 0x00, 0x00, 0x00, 0x00, 0x00, 0x00, 0x00, 0x00, 0x00, 0x00, 0x00, 0x00, 0x00, 0x00, 0x00, 0x00, 0x00, 0x00, 0x00, 0x00, 0x00, 0x00, 0x00, 0xDE, 0xAD, 0xBE, 0xEF] [.p7m ⟨cfgP7M, 0, none⟩]))
    (fun t => t.buf == cells 0 [0xD3, 0x5B, 0x2F, 0xE3, 0xCA, 0xB9, 0x0C, 0x4D, 0x00, 0x00, 0x00, 0x1C, 0x00, 0x00, 0x00, 0x00, 0x0A, 0x0B, 0x0C, 0x0D, 0x80, 0x00, 0x00, 0x01, 0xDE, 0xAD, 0xBE, 0xEF] && t.slots == [.p7m ⟨cfgP7M, 1, none⟩] && t.err == 0) = true := by decide +kernel

theorem test_protectP8 : after (exec (.protectP8 0)
    (machine 64 [0x00, 0x00, 0x00, 0x00, 0x00, 0x00, 0x00, 0x00, 0x00, 0x00, 0x00, 0x00, 0x00, 0x00, 0x00, 0x00, 0xDE, 0xAD, 0xBE, 0xEF] [.p8 ⟨cfgP8, 0, none⟩]))
    (fun t => t.buf == cells 0 [0x25, 0x47, 0x12, 0x08, 0x00, 0x00, 0x00, 0x14, 0x00, 0x00, 0x00, 0x00, 0x0A, 0x0B, 0x0C, 0x0D, 0xDE, 0xAD, 0xBE, 0xEF] && t.slots == [.p8 ⟨cfgP8, 1, none⟩] && t.err == 0) = true := by decide +kernel

theorem test_protectP8_again : after (exec (.protectP8 0)
    (machine 64 [0xCA, 0xFE, 0x00, 0x00, 0x00, 0x00, 0x00, 0x00, 0x00, 0x00, 0x00, 0x00, 0x00, 0x00, 0x00, 0x00, 0x00, 0x00, 0x01] [.p8 ⟨{ cfgP8 with offset := 16, minLen := 144 }, 0, none⟩]))
    (fun t => t.buf == cells 0 [0xCA, 0xFE, 0xBC, 0xCC, 0x5D, 0xA4, 0x00, 0x00, 0x00, 0x13, 0x00, 0x00, 0x00, 0x00, 0x0A, 0x0B, 0x0C, 0x0D, 0x01] && t.slots == [.p8 ⟨{ cfgP8 with offset := 16, minLen := 144 }, 1, none⟩] && t.err == 0) = true := by decide +kernel

theorem test_protectP11 : after (exec (.protectP11 0)
    (machine 64 [0x00, 0x00, 0x12, 0x34, 0x56, 0x78, 0x9A, 0xBC] [.p11 ⟨cfgP11, 0, none⟩]))
    (fun t => t.buf == cells 0 [0x0D, 0x10, 0x12, 0x34, 0x56, 0x78, 0x9A, 0xBC] && t.slots == [.p11 ⟨cfgP11, 1, none⟩] && t.err == 0) = true := by decide +kernel

theorem test_protectP11_again : after (exec (.protectP11 0)
    (machine 64 [0xFF, 0x01, 0x02, 0x03, 0x04, 0x05, 0x06, 0x00] [.p11 ⟨⟨.nibble 0, 56, 4, 0x0A5C, 64, 2⟩, 0, none⟩]))
    (fun t => t.buf == cells 0 [0x0A, 0x01, 0x02, 0x03, 0x04, 0x05, 0x06, 0xA1] && t.slots == [.p11 ⟨⟨.nibble 0, 56, 4, 0x0A5C, 64, 2⟩, 1, none⟩] && t.err == 0) = true := by decide +kernel

theorem test_protectP22 : after (exec (.protectP22 0)
    (machine 64 [0x00, 0xA0, 0x01, 0x02, 0x03, 0x04, 0x05, 0x06, 0x07, 0x08] [.p22 ⟨cfgP22, 0, none⟩]))
    (fun t => t.buf == cells 0 [0x04, 0xA0, 0x01, 0x02, 0x03, 0x04, 0x05, 0x06, 0x07, 0x08] && t.slots == [.p22 ⟨cfgP22, 1, none⟩] && t.err == 0) = true := by decide +kernel

theorem test_protectP22_again : after (exec (.protectP22 0)
    (machine 64 [0x00, 0xA0, 0x01, 0x02, 0x03, 0x04, 0x05, 0x06, 0x07, 0x08] [.p22 ⟨cfgP22, 15, none⟩]))
    (fun t => t.buf == cells 0 [0x5F, 0xAF, 0x01, 0x02, 0x03, 0x04, 0x05, 0x06, 0x07, 0x08] && t.slots == [.p22 ⟨cfgP22, 0, none⟩] && t.err == 0) = true := by decide +kernel

theorem test_checkP4 : after (exec (.checkP4 0)
    (machine 64 [0x00, 0x10, 0x00, 0x00, 0x12, 0x34, 0x56, 0x78, 0x05, 0x6A, 0x0C, 0xC5, 0x00, 0x00, 0x00, 0x00] [.p4 ⟨cfgP4, 0, none⟩]))
    (fun t => t.status == 0 && t.slots == [.p4 ⟨cfgP4, 0, some 0⟩] && t.err == 0) = true := by decide +kernel

theorem test_checkP4_other : after (exec (.checkP4 0)
    (machine 64 [0x00, 0x10, 0x00, 0x00, 0x12, 0x34, 0x56, 0x79, 0x60, 0xB5, 0x43, 0x34, 0x00, 0x00, 0x00, 0x00] [.p4 ⟨cfgP4, 0, none⟩]))
    (fun t => t.status == 5 && t.slots == [.p4 ⟨cfgP4, 0, none⟩] && t.err == 0) = true := by decide +kernel

theorem test_checkP4M : after (exec (.checkP4M 0)
    (machine 64 [0x00, 0x14, 0x00, 0x00, 0x12, 0x34, 0x56, 0x78, 0x40, 0x00, 0xAB, 0xCD, 0xAB, 0x91, 0xE3, 0xF2, 0x00, 0x00, 0x00, 0x00] [.p4m ⟨cfgP4M, 0, none⟩]))
    (fun t => t.status == 0 && t.slots == [.p4m ⟨cfgP4M, 0, some 0⟩] && t.err == 0) = true := by decide +kernel

theorem test_checkP4M_other : after (exec (.checkP4M 0)
    (machine 64 [0x00, 0x14, 0x00, 0x00, 0x12, 0x34, 0x56, 0x78, 0x40, 0x00, 0xAB, 0xCD, 0xAB, 0x91, 0xE3, 0xF2, 0x00, 0x00, 0x00, 0x00] [.p4m ⟨{ cfgP4M with metaWord := 0x4000ABCE }, 0, none⟩]))
    (fun t => t.status == 5 && t.slots == [.p4m ⟨{ cfgP4M with metaWord := 0x4000ABCE }, 0, none⟩] && t.err == 0) = true := by decide +kernel

theorem test_checkP5 : after (exec (.checkP5 0)
    (machine 64 [0xBE, 0x91, 0x00, 0xAA, 0xBB, 0xCC, 0xDD, 0xEE] [.p5 ⟨cfgP5, 0, none⟩]))
    (fun t => t.status == 0 && t.slots == [.p5 ⟨cfgP5, 0, some 0⟩] && t.err == 0) = true := by decide +kernel

theorem test_checkP5_other : after (exec (.checkP5 0)
    (machine 64 [0x31, 0x37, 0x02, 0xAA, 0xBB, 0xCC, 0xDD, 0xEE] [.p5 ⟨{ cfgP5 with delta := 3 }, 0, some 0⟩]))
    (fun t => t.status == 1 && t.slots == [.p5 ⟨{ cfgP5 with delta := 3 }, 0, some 2⟩] && t.err == 0) = true := by decide +kernel

theorem test_checkP6 : after (exec (.checkP6 0)
    (machine 64 [0x61, 0xC7, 0x00, 0x08, 0x00, 0xAA, 0xBB, 0xCC] [.p6 ⟨cfgP6, 0, none⟩]))
    (fun t => t.status == 0 && t.slots == [.p6 ⟨cfgP6, 0, some 0⟩] && t.err == 0) = true := by decide +kernel

theorem test_checkP6_other : after (exec (.checkP6 0)
    (machine 64 [0x61, 0xC7, 0x00, 0x08, 0x00, 0xAA, 0xBB] [.p6 ⟨cfgP6, 0, none⟩]))
    (fun t => t.status == 6 && t.slots == [.p6 ⟨cfgP6, 0, none⟩] && t.err == 0) = true := by decide +kernel

theorem test_checkP7 : after (exec (.checkP7 0)
    (machine 64 [0xE3, 0x91, 0xCB, 0x2F, 0x7C, 0x85, 0xCD, 0x76, 0x00, 0x00, 0x00, 0x18, 0x00, 0x00, 0x00, 0x00, 0x0A, 0x0B, 0x0C, 0x0D, 0xDE, 0xAD, 0xBE, 0xEF] [.p7 ⟨cfgP7, 0, none⟩]))
    (fun t => t.status == 0 && t.slots == [.p7 ⟨cfgP7, 0, some 0⟩] && t.err == 0) = true := by decide +kernel

theorem test_checkP7_other : after (exec (.checkP7 0)
    (machine 64 [0xE3, 0x91, 0xCB, 0x2F, 0x7C, 0x85, 0xCD, 0x76, 0x00, 0x00, 0x00, 0x18, 0x00, 0x00, 0x00, 0x00, 0x0A, 0x0B, 0x0C, 0x0D, 0xDE, 0xAD, 0xBE, 0xEF] [.p7 ⟨{ cfgP7 with dataId := 7 }, 0, none⟩]))
    (fun t => t.status == 5 && t.slots == [.p7 ⟨{ cfgP7 with dataId := 7 }, 0, none⟩] && t.err == 0) = true := by decide +kernel

theorem test_checkP7M : after (exec (.checkP7M 0)
    (machine 64 [0xD3, 0x5B, 0x2F, 0xE3, 0xCA, 0xB9, 0x0C, 0x4D, 0x00, 0x00, 0x00, 0x1C, 0x00, 0x00, 0x00, 0x00, 0x0A, 0x0B, 0x0C, 0x0D, 0x80, 0x00, 0x00, 0x01, 0xDE, 0xAD, 0xBE, 0xEF] [.p7m ⟨cfgP7M, 0, none⟩]))
    (fun t => t.status == 0 && t.slots == [.p7m ⟨cfgP7M, 0, some 0⟩] && t.err == 0) = true := by decide +kernel

theorem test_checkP7M_other : after (exec (.checkP7M 0)
    (machine 64 [0xD3, 0x5B, 0x2F, 0xE3, 0xCA, 0xB9, 0x0C, 0x4D, 0x00, 0x00, 0x00, 0x1C, 0x00, 0x00, 0x00, 0x00, 0x0A, 0x0B, 0x0C, 0x0D, 0x80, 0x00, 0x00, 0x01, 0xDE, 0xAD, 0xBE, 0xEF] [.p7m ⟨cfgP7M, 0, some 0⟩]))
    (fun t => t.status == 2 && t.slots == [.p7m ⟨cfgP7M, 0, some 0⟩] && t.err == 0) = true := by decide +kernel

theorem test_checkP8 : after (exec (.checkP8 0)
    (machine 64 [0x25, 0x47, 0x12, 0x08, 0x00, 0x00, 0x00, 0x14, 0x00, 0x00, 0x00, 0x00, 0x0A, 0x0B, 0x0C, 0x0D, 0xDE, 0xAD, 0xBE, 0xEF] [.p8 ⟨cfgP8, 0, none⟩]))
    (fun t => t.status == 0 && t.slots == [.p8 ⟨cfgP8, 0, some 0⟩] && t.err == 0) = true := by decide +kernel

theorem test_checkP8_other : after (exec (.checkP8 0)
    (machine 64 [0x25, 0x47, 0x12, 0x08, 0x00, 0x00, 0x00, 0x14, 0x00, 0x00, 0x00, 0x00, 0x0A, 0x0B, 0x0C, 0x0D, 0xDE, 0xAD, 0xBE, 0xEF] [.p8 ⟨cfgP8, 0, some 1⟩]))
    (fun t => t.status == 3 && t.slots == [.p8 ⟨cfgP8, 0, some 1⟩] && t.err == 0) = true := by decide +kernel

theorem test_checkP11 : after (exec (.checkP11 0)
    (machine 64 [0x0D, 0x10, 0x12, 0x34, 0x56, 0x78, 0x9A, 0xBC] [.p11 ⟨cfgP11, 0, none⟩]))
    (fun t => t.status == 0 && t.slots == [.p11 ⟨cfgP11, 0, some 0⟩] && t.err == 0) = true := by decide +kernel

theorem test_checkP11_other : after (exec (.checkP11 0)
    (machine 64 [0x0D, 0x10, 0x12, 0x34, 0x56, 0x78, 0x9A, 0xBC] [.p11 ⟨{ cfgP11 with dataId := 0x0124 }, 0, none⟩]))
    (fun t => t.status == 4 && t.slots == [.p11 ⟨{ cfgP11 with dataId := 0x0124 }, 0, none⟩] && t.err == 0) = true := by decide +kernel

theorem test_checkP22 : after (exec (.checkP22 0)
    (machine 64 [0x04, 0xA0, 0x01, 0x02, 0x03, 0x04, 0x05, 0x06, 0x07, 0x08] [.p22 ⟨cfgP22, 0, none⟩]))
    (fun t => t.status == 0 && t.slots == [.p22 ⟨cfgP22, 0, some 0⟩] && t.err == 0) = true := by decide +kernel

theorem test_checkP22_other : after (exec (.checkP22 0)
    (machine 64 [0x04, 0xA0, 0x01, 0x02, 0x03, 0x04, 0x05, 0x06, 0x07, 0x08] [.p22 ⟨cfgP22, 0, some 15⟩]))
    (fun t => t.status == 0 && t.slots == [.p22 ⟨cfgP22, 0, some 0⟩] && t.err == 0) = true := by decide +kernel

/-! ### Witnesses: states that meet the hypotheses of the obligations

One machine: 32 buffer bytes, a 30-byte message, in slots 0 to 8 a sender of every profile, slot 9 empty, in slot 10 a
profile 11 sender in Both mode, from slot 11 on receivers. LEN is `max_len` or `data_len` of every configuration. -/

theorem get?_cells : ∀ (bs : List Byte) (a x : Nat), (cells a bs).get? x = if a ≤ x then bs[x - a]? else none
  | [], _, _ => by simp [cells]
  | b :: bs, a, x => by
    simp only [cells, Memory.get?, get?_cells bs]
    by_cases h : x = a
    · subst h
      simp
    · rw [if_neg h]
      by_cases hx : a + 1 ≤ x
      · rw [if_pos hx, if_pos (by omega), show x - a = (x - (a + 1)) + 1 by omega, List.getElem?_cons_succ]
      · rw [if_neg hx, if_neg (by omega)]

theorem message_machine {cap : Nat} {bs : List Byte} {slots : List Slot} (h : bs.length ≤ cap) (h' : bs.length < 2 ^ 32) :
    Message (machine cap bs slots) bs := by
  have hl : (machine cap bs slots).len.toNat = bs.length := by
    show (BitVec.ofNat 32 bs.length).toNat = bs.length
    rw [BitVec.toNat_ofNat]
    exact Nat.mod_eq_of_lt h'
  refine ⟨hl.symm, ?_, fun a _ => ?_⟩
  · rw [hl]
    exact h
  · show (cells 0 bs).get? a = bs[a]?
    rw [get?_cells]
    simp

def labBytes : List Byte := List.replicate 30 0
def i4 : Inst (VarCfg 32) 16 := ⟨⟨8, 0x12345678, 104, 240, 3⟩, 0, none⟩
def i4m : Inst MetaCfg 16 := ⟨⟨⟨8, 0x12345678, 136, 240, 3⟩, 0x4000ABCD⟩, 0, none⟩
def i5 : Inst FixCfg 8 := ⟨⟨8, 0x1234, 240, 3⟩, 0, none⟩
def i6 : Inst (VarCfg 16) 8 := ⟨⟨8, 0x1234, 48, 240, 3⟩, 0, none⟩
def i7 : Inst (VarCfg 32) 32 := ⟨⟨8, 0x0A0B0C0D, 168, 240, 3⟩, 0, none⟩
def i7m : Inst MetaCfg 32 := ⟨⟨⟨8, 0x0A0B0C0D, 200, 240, 3⟩, 1⟩, 0, none⟩
def i8 : Inst (VarCfg 32) 32 := ⟨⟨8, 0x0A0B0C0D, 136, 240, 3⟩, 0, none⟩
def i11 : Inst P11Cfg 4 := ⟨⟨.nibble 12, 0, 8, 0x0123, 240, 3⟩, 0, none⟩
def i11b : Inst P11Cfg 4 := ⟨⟨.both, 0, 8, 0x0123, 240, 3⟩, 0, none⟩
def i22 : Inst P22Cfg 4 := ⟨⟨8, cfgP22.idList, 240, 3⟩, 0, none⟩

/-- The senders, in the order of the profile index. -/
def labSenders : List Slot := [.p4 i4, .p4m i4m, .p5 i5, .p6 i6, .p7 i7, .p7m i7m, .p8 i8, .p11 i11, .p22 i22]

/-- The machine with chosen receivers behind the senders, an empty slot and a Both-mode sender. -/
def labWith (receivers : List Slot) : State :=
  machine 32 labBytes (labSenders ++ [.none, .p11 i11b] ++ receivers)

def lab : State := labWith labSenders

theorem message_lab (rs : List Slot) : Message (labWith rs) labBytes := message_machine (by decide) (by decide)

theorem ok_i4 : i4.cfg.Ok .p4 :=
  ⟨by decide, by decide, by decide, by decide, fun _ => (by decide), by decide, by decide⟩
theorem ok_i4m : i4m.cfg.toVarCfg.Ok .p4m :=
  ⟨by decide, by decide, by decide, by decide, fun _ => (by decide), by decide, by decide⟩
theorem ok_i5 : i5.cfg.Ok := ⟨by decide, by decide, by decide, by decide⟩
theorem ok_i6 : i6.cfg.Ok .p6 :=
  ⟨by decide, by decide, by decide, by decide, fun _ => (by decide), by decide, by decide⟩
theorem ok_i7 : i7.cfg.Ok .p7 :=
  ⟨by decide, by decide, by decide, by decide, fun h => (by cases h), by decide, by decide⟩
theorem ok_i7m : i7m.cfg.toVarCfg.Ok .p7m :=
  ⟨by decide, by decide, by decide, by decide, fun h => (by cases h), by decide, by decide⟩
theorem ok_i8 : i8.cfg.Ok .p8 :=
  ⟨by decide, by decide, by decide, by decide, fun h => (by cases h), by decide, by decide⟩
theorem ok_i11 : i11.cfg.Ok :=
  ⟨by decide, by decide, by decide, by decide, by decide, by decide, by decide,
    fun o h => (by cases h; decide), by decide⟩
theorem ok_i11b : i11b.cfg.Ok :=
  ⟨by decide, by decide, by decide, by decide, by decide, by decide, by decide, fun o h => (by cases h), by decide⟩
theorem ok_i22 : i22.cfg.Ok := ⟨by decide, by decide, by decide, by decide⟩

theorem ok_senders : ∀ x ∈ labSenders, x.Ok := by
  simp only [labSenders, List.forall_mem_cons]
  exact ⟨ok_i4, ok_i4m, ok_i5, ok_i6, ok_i7, ok_i7m, ok_i8, ok_i11, ok_i22, by simp⟩

theorem inv_labWith {rs : List Slot} (h : ∀ x ∈ rs, x.Ok) (hn : rs.length ≤ 200) : (labWith rs).Inv where
  bufWf := by
    show (cells 0 labBytes).wf = true
    decide +kernel
  bufBound := by
    show ∀ c ∈ cells 0 labBytes, c.1 < 32
    decide +kernel
  capacity := by
    show 1 ≤ 32 ∧ 32 ≤ 2 ^ 29 - 1
    decide
  lenLegal := by
    show (BitVec.ofNat 32 labBytes.length).toNat ≤ 32
    decide
  slotCount := by
    show 1 ≤ (labSenders ++ [Slot.none, Slot.p11 i11b] ++ rs).length ∧
      (labSenders ++ [Slot.none, Slot.p11 i11b] ++ rs).length ≤ 256
    simp only [labSenders, List.length_append, List.length_cons, List.length_nil]
    omega
  statusLegal := by
    show (0 : BitVec 3) ≠ 7
    decide
  errLegal := by
    show (0 : BitVec 8).toNat ≤ 7
    decide
  slotsOk := by
    intro x hx
    simp only [labWith, machine, List.mem_append, List.mem_cons, List.not_mem_nil, or_false] at hx
    rcases hx with (hx | rfl | rfl) | hx
    · exact ok_senders x hx
    · exact trivial
    · exact ok_i11b
    · exact h x hx

theorem inv_lab : lab.Inv := inv_labWith ok_senders (by decide)

theorem lab_message : Message lab labBytes := message_lab _

/-- Whether a command answers a next state; for the hypotheses `exec i s = .next t`. -/
theorem next_of_after {r : Result} {f : State → Bool} (h : after r f = true) : ∃ t, r = .next t ∧ f t = true := by
  cases r with
  | next t => exact ⟨t, rfl, h⟩
  | fault _ => cases h
  | refused _ => cases h

/-! #### Encoding and the step -/

theorem witness_DecodeEncodeRoundTrip : WellFormed .rd8 ∧ WellFormed (.checkP22 255) ∧ WellFormed (.constructP4 0) := by
  decide

theorem witness_EncodeDecodeRoundTrip :
    decode 0x68FF0000#32 = .ok (.checkP22 255) ∧ decode 0x10000000#32 = .ok .crc8jCalc := by decide

/-- A machine of 2 slots whose host will write `w` to CMD. -/
def toldTo (w : Word32) : State := { machine 4 [] [.none, .none] with host := [.writeCmd w] }

/-- Each cause of R95, slot 2 and slot 1 of two, and the words around the opcode groups. -/
theorem witness_IllegalWordsOnlyRaise :
    (∀ w, (toldTo w).host = .writeCmd w :: []) ∧
    Claims.IsIllegal (toldTo 0).slots.length 0x15000000#32 ∧ Claims.IsIllegal 2 0x69000000#32 ∧
    Claims.IsIllegal 2 0x10000001#32 ∧ Claims.IsIllegal 2 0x10010000#32 ∧ Claims.IsIllegal 2 0x68020000#32 ∧
    ¬Claims.IsIllegal (toldTo 0).slots.length 0x68010000#32 ∧ ¬Claims.IsIllegal 2 0x14000000#32 := by
  unfold Claims.IsIllegal Claims.IsOpcN Claims.IsOpcS
  dsimp only
  exact ⟨fun _ => rfl, by decide, by decide, by decide, by decide, by decide, by decide, by decide⟩

theorem witness_StepRunsDecodedCommand :
    (toldTo 0x60010000#32).host = .writeCmd 0x60010000#32 :: [] ∧ decode 0x60010000#32 = .ok (.checkP4 1) ∧
    WellFormed (.checkP4 255) ∧ (machine 4 [] []).host = [] := by decide

/-! #### Host actions and reset -/

/-- A machine of 4 buffer bytes whose host will do `a`. -/
def about (a : HostAction) : State := { machine 4 [] [.none] with host := [a] }

theorem witness_HostWritesTakeEffect :
    (∀ a, (about a).host = a :: []) ∧ (4#32).toNat ≤ (about (.setLen 4)).bufBytes ∧ 3 < (about (.poke 3 1)).bufBytes ∧
    [1, 2, 3, (4 : Byte)].length ≤ (about (.buf [1, 2, 3, 4])).bufBytes ∧ [1, 2, 3, (4 : Byte)].length < 2 ^ 32 := by
  refine ⟨fun _ => rfl, ?_⟩
  decide

theorem witness_HostActionsRefused :
    (∀ a, (about a).host = a :: []) ∧ (about (.setLen 5)).bufBytes < (5#32).toNat ∧
    (about (.buf [1, 2, 3, 4, 5])).bufBytes < [1, 2, 3, 4, (5 : Byte)].length := by
  refine ⟨fun _ => rfl, ?_⟩
  decide

theorem witness_BlockResetValues : (about .blockReset).host = .blockReset :: [] := rfl

/-! #### Invariants and rules of the whole machine -/

/-- A step of a machine that meets the invariant: the host has `CHECK.P4 0` performed. -/
theorem witness_StepKeepsInvariant :
    ({ lab with host := [.writeCmd 0x60000000#32] } : State).Inv ∧
    ∃ t, step { lab with host := [.writeCmd 0x60000000#32] } = .next t := by
  refine ⟨⟨inv_lab.bufWf, inv_lab.bufBound, inv_lab.capacity, inv_lab.lenLegal, inv_lab.slotCount, inv_lab.statusLegal,
    inv_lab.errLegal, inv_lab.slotsOk⟩, ?_⟩
  obtain ⟨t, h, -⟩ := next_of_after (r := step { lab with host := [.writeCmd 0x60000000#32] }) (f := fun _ => true)
    (by decide +kernel)
  exact ⟨t, h⟩

theorem witness_CommandsAlwaysAnswer : lab.Inv ∧ Message lab labBytes := ⟨inv_lab, lab_message⟩

/-- The laboratory machine with LEN one byte beyond the bytes that hold a value. -/
def labLonger : State := { lab with len := 31, arg0 := 240 }

theorem witness_CommandsStopOnlyOnMissingBytes :
    labLonger.Inv ∧ exec .rd8 labLonger = .refused (.byteWithoutValue 30) :=
  ⟨⟨inv_lab.bufWf, inv_lab.bufBound, inv_lab.capacity, by decide, inv_lab.slotCount, inv_lab.statusLegal,
    inv_lab.errLegal, inv_lab.slotsOk⟩, rfl⟩

/-- A command that ends with an error, one that completes, and what they wrote. -/
theorem witness_ErrorsChangeOnlyErr : ∃ t, exec .rdnib { lab with arg0 := 2 } = .next t ∧ t.err ≠ 0 := by
  obtain ⟨t, h, hf⟩ := next_of_after (r := exec .rdnib { lab with arg0 := 2 }) (f := fun t => decide (t.err ≠ 0))
    (by decide +kernel)
  exact ⟨t, h, by simpa using hf⟩

theorem witness_CommandsKeepHostRegisters : ∃ t, exec .wr64 lab = .next t ∧ t.err = 0 := by
  obtain ⟨t, h, hf⟩ := next_of_after (r := exec .wr64 lab) (f := fun t => t.err == 0) (by decide +kernel)
  exact ⟨t, h, by simpa using hf⟩

theorem witness_StatusWrittenByChecksAndValidator :
    (∃ t, exec (.checkP5 2) lab = .next t ∧ Claims.WritesStatus (.checkP5 2) ∧ t.err = 0) ∧
    (∃ t, exec (.checkP5 9) lab = .next t ∧ t.err ≠ 0) ∧ ∃ t, exec .rd8 lab = .next t ∧ ¬Claims.WritesStatus .rd8 := by
  obtain ⟨t, h, hf⟩ := next_of_after (r := exec (.checkP5 2) lab) (f := fun t => t.err == 0) (by decide +kernel)
  obtain ⟨u, hu, hg⟩ := next_of_after (r := exec (.checkP5 9) lab) (f := fun t => t.err == 7) (by decide +kernel)
  obtain ⟨v, hv, -⟩ := next_of_after (r := exec .rd8 lab) (f := fun _ => true) (by decide +kernel)
  refine ⟨⟨t, h, .inr (.inr (.inr (.inr ⟨.p5, 2, rfl⟩))), by simpa using hf⟩, ⟨u, hu, ?_⟩, v, hv, ?_⟩
  · rw [show u.err = 7 by simpa using hg]
    decide
  · rintro (h | h | h | h | ⟨p, k, h⟩)
    all_goals first | cases h | (cases p <;> cases h)

theorem witness_ResultRegistersFrame :
    (∃ t, exec (.protectP22 8) lab = .next t ∧ t.err = 0) ∧ (∃ t, exec .rd16 lab = .next t ∧ t.err = 0) ∧
    ∃ t, exec .cval8 { lab with arg3 := 2 } = .next t ∧ t.err ≠ 0 := by
  obtain ⟨t, h, hf⟩ := next_of_after (r := exec (.protectP22 8) lab) (f := fun t => t.err == 0) (by decide +kernel)
  obtain ⟨u, hu, hg⟩ := next_of_after (r := exec .rd16 lab) (f := fun t => t.err == 0) (by decide +kernel)
  obtain ⟨v, hv, hh⟩ := next_of_after (r := exec .cval8 { lab with arg3 := 2 }) (f := fun t => t.err == 1)
    (by decide +kernel)
  refine ⟨⟨t, h, by simpa using hf⟩, ⟨u, hu, by simpa using hg⟩, v, hv, ?_⟩
  rw [show v.err = 1 by simpa using hh]
  decide

/-- A check that completes, one that ends with an error, and a command that writes no STATUS. -/
theorem witness_ErrAndStatusReadByNoCommand :
    ((∃ t, exec (checkOf .p11 7) lab = .next t ∧ t.err = 0) ∧ Claims.WritesStatus (checkOf .p11 7)) ∧
    (∃ t, exec (checkOf .p11 9) lab = .next t ∧ t.err ≠ 0) ∧ ∃ t, exec .rd8 lab = .next t ∧ ¬Claims.WritesStatus .rd8 := by
  obtain ⟨t, h, hf⟩ := next_of_after (r := exec (checkOf .p11 7) lab) (f := fun t => t.err == 0) (by decide +kernel)
  obtain ⟨u, hu, hg⟩ := next_of_after (r := exec (checkOf .p11 9) lab) (f := fun t => t.err == 7) (by decide +kernel)
  obtain ⟨v, hv, -⟩ := next_of_after (r := exec .rd8 lab) (f := fun _ => true) (by decide +kernel)
  refine ⟨⟨⟨t, h, by simpa using hf⟩, .inr (.inr (.inr (.inr ⟨.p11, 7, rfl⟩)))⟩, ⟨u, hu, ?_⟩, v, hv, ?_⟩
  · rw [show u.err = 7 by simpa using hg]
    decide
  · rintro (h | h | h | h | ⟨p, k, h⟩)
    all_goals first | cases h | (cases p <;> cases h)

theorem witness_OtherSlotsUntouchedAndUnread :
    (∃ t, exec (.protectP4 0) lab = .next t) ∧ (Instr.protectP4 0).slot? ≠ some 11 ∧
    (∃ t, exec .rd8 lab = .next t) ∧ Instr.rd8.slot? ≠ some 0 := by
  obtain ⟨t, h, -⟩ := next_of_after (r := exec (.protectP4 0) lab) (f := fun _ => true) (by decide +kernel)
  obtain ⟨u, hu, -⟩ := next_of_after (r := exec .rd8 lab) (f := fun _ => true) (by decide +kernel)
  exact ⟨⟨t, h⟩, by decide, ⟨u, hu⟩, by decide⟩

/-- LEN is 30: address 30 is the first at or above it. -/
theorem witness_BufferFrame :
    lab.Inv ∧ (∃ t, exec (.protectP7M 5) lab = .next t) ∧ lab.len.toNat ≤ 30 ∧ (∃ t, exec .rd8 lab = .next t) ∧
    ¬Claims.WritesBuffer .rd8 := by
  obtain ⟨t, h, -⟩ := next_of_after (r := exec (.protectP7M 5) lab) (f := fun _ => true) (by decide +kernel)
  obtain ⟨u, hu, -⟩ := next_of_after (r := exec .rd8 lab) (f := fun _ => true) (by decide +kernel)
  refine ⟨inv_lab, ⟨t, h⟩, by decide, ⟨u, hu⟩, ?_⟩
  rintro (h | h | h | h | h | ⟨p, k, h⟩)
  all_goals first | cases h | (cases p <;> cases h)

/-- A buffer that differs at the two addresses at and above LEN only. -/
theorem witness_BytesBeyondLenUnread :
    lab.Inv ∧ (∀ a, a < lab.len.toNat → (cells 0 (labBytes ++ [7, 9])).get? a = lab.buf.get? a) ∧
    ∃ t, exec (.checkP7 4) lab = .next t := by
  obtain ⟨t, h, -⟩ := next_of_after (r := exec (.checkP7 4) lab) (f := fun _ => true) (by decide +kernel)
  exact ⟨inv_lab, by decide +kernel, t, h⟩

theorem witness_TxCounterRule :
    (∃ t, exec (constructOf .p22 0) { lab with staging := { Staging.reset with dataLen := 16, maxDelta := 15 } } = .next t ∧
      t.err = 0) ∧
    (∃ t, exec (protectOf .p4 0) lab = .next t ∧ t.err = 0) ∧ (∃ t, exec (protectOf .p4 9) lab = .next t ∧ t.err ≠ 0) ∧
    ∀ p, checkOf .p4 0 ≠ constructOf p 0 ∧ checkOf .p4 0 ≠ protectOf p 0 := by
  obtain ⟨t, h, hf⟩ := next_of_after
    (r := exec (constructOf .p22 0) { lab with staging := { Staging.reset with dataLen := 16, maxDelta := 15 } })
    (f := fun t => t.err == 0) (by decide +kernel)
  obtain ⟨u, hu, hg⟩ := next_of_after (r := exec (protectOf .p4 0) lab) (f := fun t => t.err == 0) (by decide +kernel)
  obtain ⟨v, hv, hh⟩ := next_of_after (r := exec (protectOf .p4 9) lab) (f := fun t => t.err == 7) (by decide +kernel)
  refine ⟨⟨t, h, by simpa using hf⟩, ⟨u, hu, by simpa using hg⟩, ⟨v, hv, ?_⟩, fun p => by cases p <;> simp [checkOf, constructOf, protectOf]⟩
  rw [show v.err = 7 by simpa using hh]
  decide

/-- The P4 message of V-FR-1 and a receiver of its configuration. -/
def received (rx : Option (BitVec 16)) : State :=
  machine 16 [0x00, 0x10, 0x00, 0x00, 0x12, 0x34, 0x56, 0x78, 0x05, 0x6A, 0x0C, 0xC5, 0x00, 0x00, 0x00, 0x00]
    [.p4 ⟨cfgP4, 0, rx⟩]

theorem message_received (rx : Option (BitVec 16)) : Message (received rx)
    [0x00, 0x10, 0x00, 0x00, 0x12, 0x34, 0x56, 0x78, 0x05, 0x6A, 0x0C, 0xC5, 0x00, 0x00, 0x00, 0x00] :=
  message_machine (by decide) (by decide)

theorem inv_received : (received none).Inv := by
  refine ⟨by decide +kernel, ?_, ⟨by decide, by decide⟩, by decide, ⟨by decide, by decide⟩, by decide, by decide, ?_⟩
  · show ∀ c ∈ (received none).buf, c.1 < 16
    decide +kernel
  · intro x hx
    have : x = .p4 ⟨cfgP4, 0, none⟩ := by simpa [received, machine] using hx
    subst this
    exact ⟨by decide, by decide, by decide, by decide, fun _ => (by decide), by decide, by decide⟩

theorem witness_ReceiverRule :
    ((received none).Inv ∧ (received none).slots[0]? = some (.p4 ⟨cfgP4, 0, none⟩) ∧ Message (received none)
      [0x00, 0x10, 0x00, 0x00, 0x12, 0x34, 0x56, 0x78, 0x05, 0x6A, 0x0C, 0xC5, 0x00, 0x00, 0x00, 0x00]) ∧
    (∃ t, exec (checkOf .p4 0) (received none) = .next t ∧ t.err = 0 ∧ t.status.toNat ≤ 1) ∧
    (∃ t, exec (checkOf .p4 0) (received (some 0)) = .next t ∧ t.err = 0 ∧ t.status.toNat = 2) ∧
    ∃ t, exec (constructOf .p4 0)
      { received none with staging := { Staging.reset with minLen := 96, maxLen := 96, maxDelta := 1 } } = .next t ∧
      t.err = 0 := by
  obtain ⟨t, h, hf⟩ := next_of_after (r := exec (checkOf .p4 0) (received none))
    (f := fun t => t.err == 0 && decide (t.status.toNat ≤ 1)) (by decide +kernel)
  obtain ⟨u, hu, hg⟩ := next_of_after (r := exec (checkOf .p4 0) (received (some 0)))
    (f := fun t => t.err == 0 && decide (t.status.toNat = 2)) (by decide +kernel)
  obtain ⟨v, hv, hh⟩ := next_of_after (r := exec (constructOf .p4 0)
    { received none with staging := { Staging.reset with minLen := 96, maxLen := 96, maxDelta := 1 } })
    (f := fun t => t.err == 0) (by decide +kernel)
  simp only [Bool.and_eq_true, beq_iff_eq, decide_eq_true_eq] at hf hg hh
  exact ⟨⟨inv_received, rfl, message_received none⟩, ⟨t, h, hf⟩, ⟨u, hu, hg⟩, v, hv, hh⟩

theorem witness_FirstReceptionIsOk :
    (received none).slots[0]? = some (.p4 ⟨cfgP4, 0, none⟩) ∧ Slot.kind (.p4 ⟨cfgP4, 0, none⟩) = some .p4 ∧
    rxOf (.p4 ⟨cfgP4, 0, none⟩) = none ∧ ∃ t, exec (checkOf .p4 0) (received none) = .next t := by
  obtain ⟨t, h, -⟩ := next_of_after (r := exec (checkOf .p4 0) (received none)) (f := fun _ => true) (by decide +kernel)
  exact ⟨rfl, rfl, rfl, t, h⟩

/-! #### CRC generators -/

theorem witness_CrcIsAffine :
    8 ≤ 64 ∧ digits.length = codecBytes.length ∧ codecBytes.length = (List.replicate 9 (0xFF : Byte)).length := by decide

theorem witness_CrcDetectsSingleBit : 8 < digits.length ∧ 7 < 8 := by decide

/-- Completion: the range is the whole message, and the empty range at its end, with ARG2 the largest value of the
smallest and of the largest width. Errors: each operand one step too wide, and a range one byte too long. -/
theorem witness_CrcCommandsFollowRules :
    (let s := withArgs (machine 9 digits []) 0 9 0xFF 0
     s.arg0.toNat < 2 ^ 32 ∧ s.arg1.toNat < 2 ^ 32 ∧ s.arg2.toNat < 2 ^ 8 ∧ s.arg0.toNat + s.arg1.toNat ≤ s.len.toNat ∧
       digits.length = s.arg1.toNat ∧ Holds s s.arg0.toNat digits) ∧
    (let s := withArgs (machine 9 digits []) 9 0 0xFFFFFFFFFFFFFFFF 0
     s.arg2.toNat < 2 ^ 64 ∧ s.arg0.toNat + s.arg1.toNat ≤ s.len.toNat ∧ Holds s s.arg0.toNat []) ∧
    2 ^ 32 ≤ (withArgs lab 0x100000000 0 0 0).arg0.toNat ∧ 2 ^ 32 ≤ (withArgs lab 0 0x100000000 0 0).arg1.toNat ∧
    2 ^ 8 ≤ (withArgs lab 0 0 0x100 0).arg2.toNat ∧
    (let s := withArgs lab 31 0 0xFF 0
     s.arg0.toNat < 2 ^ 32 ∧ s.arg1.toNat < 2 ^ 32 ∧ s.arg2.toNat < 2 ^ 8 ∧
       s.len.toNat < s.arg0.toNat + s.arg1.toNat) := by
  unfold Holds
  decide +kernel

/-! #### Field codec -/

/-- One state per error of a codec command, each at the boundary of its test, and where the earlier tests hold. -/
theorem codecErrors_met :
    2 ^ 32 ≤ (withArgs lab 0x100000000 0 0 0).arg0.toNat ∧
    (8 ≠ 0 ∧ 2 ^ 8 ≤ (withArgs lab 0 0x100 0 0).arg1.toNat) ∧
    (let s := withArgs lab 0xFFFFFFFF 0xF 0 0
     s.arg0.toNat < 2 ^ 32 ∧ s.arg1.toNat < 2 ^ 4 ∧ s.arg0.toNat % 8 ≠ 0 ∧ s.arg0.toNat % 4 ≠ 0) ∧
    (let s := withArgs lab 240 0xF 0 0
     s.arg0.toNat < 2 ^ 32 ∧ s.arg1.toNat < 2 ^ 4 ∧ s.arg0.toNat % 8 = 0 ∧ 8 * s.len.toNat < s.arg0.toNat + 4 ∧
       8 * s.len.toNat < s.arg0.toNat + 8) := by decide

/-- Fields that end with the message: `RD64` at byte 1 of nine, `RD8` of the last byte, `RDNIB` of its high nibble. -/
theorem witness_ReadCommandsFollowRules :
    2 ^ 32 ≤ (withArgs lab 0x100000000 0 0 0).arg0.toNat ∧
    (let s := withArgs (machine 9 codecBytes []) 8 0 0 0
     s.arg0.toNat < 2 ^ 32 ∧ s.arg0.toNat % 8 = 0 ∧ s.arg0.toNat / 8 + 8 ≤ s.len.toNat ∧
       (codecBytes.drop 1).length = 8 ∧ Holds s (s.arg0.toNat / 8) (codecBytes.drop 1)) ∧
    (let s := withArgs (machine 9 codecBytes []) 64 0 0 0
     s.arg0.toNat < 2 ^ 32 ∧ s.arg0.toNat % 8 = 0 ∧ s.arg0.toNat / 8 + 1 ≤ s.len.toNat ∧
       [(0xA5 : Byte)].length = 1 ∧ Holds s (s.arg0.toNat / 8) [0xA5]) ∧
    (let s := withArgs (machine 9 codecBytes []) 68 0 0 0
     s.arg0.toNat < 2 ^ 32 ∧ s.arg0.toNat % 4 = 0 ∧ s.arg0.toNat / 8 < s.len.toNat ∧ s.len.toNat ≤ s.bufBytes ∧
       s.buf.get? (s.arg0.toNat / 8) = some 0xA5) := by
  refine ⟨codecErrors_met.1, ?_⟩
  unfold Holds
  decide +kernel

theorem witness_WriteCommandsFollowRules :
    (8 ≠ 0 ∧ 2 ^ 8 ≤ (withArgs lab 0 0x100 0 0).arg1.toNat) ∧
    (let s := withArgs (machine 9 codecBytes []) 8 0xFFFFFFFFFFFFFFFF 0 0
     s.len.toNat ≤ s.bufBytes ∧ s.arg0.toNat < 2 ^ 32 ∧ s.arg1.toNat < 2 ^ (8 * 8) ∧ s.arg0.toNat % 8 = 0 ∧
       s.arg0.toNat / 8 + 8 ≤ s.len.toNat) ∧
    (let s := withArgs (machine 9 codecBytes []) 68 15 0 0
     s.len.toNat ≤ s.bufBytes ∧ s.arg0.toNat < 2 ^ 32 ∧ s.arg1.toNat < 16 ∧ s.arg0.toNat % 4 = 0 ∧
       s.arg0.toNat / 8 < s.len.toNat ∧ s.buf.get? (s.arg0.toNat / 8) = some 0xA5 ∧ s.arg0.toNat % 8 = 4) := by
  refine ⟨codecErrors_met.2.1, ?_⟩
  decide +kernel

theorem witness_ReadAfterWrite : ∃ t, exec .wr32 (withArgs lab 208 0xFFFFFFFF 0 0) = .next t ∧ t.err = 0 := by
  obtain ⟨t, h, hf⟩ := next_of_after (r := exec .wr32 (withArgs lab 208 0xFFFFFFFF 0 0)) (f := fun t => t.err == 0)
    (by decide +kernel)
  exact ⟨t, h, by simpa using hf⟩

theorem inv_withArgs {s : State} (h : s.Inv) (a0 a1 a2 a3 : Word64) : (withArgs s a0 a1 a2 a3).Inv :=
  ⟨h.bufWf, h.bufBound, h.capacity, h.lenLegal, h.slotCount, h.statusLegal, h.errLegal, h.slotsOk⟩

/-- The wide reads that end with the message. -/
theorem witness_WideFieldsAreNarrowFields :
    (∀ a, (withArgs lab a 0 0 0).Inv) ∧ (∃ t, exec .rd16 (withArgs lab 224 0 0 0) = .next t ∧ t.err = 0) ∧
    (∃ t, exec .rd32 (withArgs lab 208 0 0 0) = .next t ∧ t.err = 0) ∧
    (∃ t, exec .rd64 (withArgs lab 176 0 0 0) = .next t ∧ t.err = 0) ∧
    (∃ t, exec .rd8 (withArgs lab 232 0 0 0) = .next t ∧ t.err = 0) ∧
    1 + 2 * 4 ≤ codecBytes.length ∧ 8 < codecBytes.length := by
  obtain ⟨t, h, hf⟩ := next_of_after (r := exec .rd16 (withArgs lab 224 0 0 0)) (f := fun t => t.err == 0)
    (by decide +kernel)
  obtain ⟨u, hu, hg⟩ := next_of_after (r := exec .rd32 (withArgs lab 208 0 0 0)) (f := fun t => t.err == 0)
    (by decide +kernel)
  obtain ⟨v, hv, hh⟩ := next_of_after (r := exec .rd64 (withArgs lab 176 0 0 0)) (f := fun t => t.err == 0)
    (by decide +kernel)
  obtain ⟨w, hw, hk⟩ := next_of_after (r := exec .rd8 (withArgs lab 232 0 0 0)) (f := fun t => t.err == 0)
    (by decide +kernel)
  simp only [beq_iff_eq] at hf hg hh hk
  exact ⟨fun _ => inv_withArgs inv_lab _ _ _ _, ⟨t, h, hf⟩, ⟨u, hu, hg⟩, ⟨v, hv, hh⟩, ⟨w, hw, hk⟩, by decide, by decide⟩

theorem witness_FieldIsBigEndianSum : memRead (machine 9 codecBytes []) 1 8 = .ok 0x3456789ABCDEF0A5 := by
  decide +kernel

/-! #### Counter validator -/

/-- The four distances where the clauses meet, for tolerance 3: 0, 1, 2 and 3, 4. -/
theorem witness_CounterClassification :
    255 < 2 ^ 8 ∧ (255 + 0) % 2 ^ 8 = 255 ∧ (255 + 1) % 2 ^ 8 = 0 ∧ (255 + 2) % 2 ^ 8 = 1 ∧ (255 + 3) % 2 ^ 8 = 2 ∧
    (255 + 4) % 2 ^ 8 = 3 ∧ 3 < 4 := by decide

theorem cvalErrors_met :
    2 ^ 8 ≤ (withArgs lab 0 0x100 0 0).arg1.toNat ∧ 2 ^ 32 ≤ (withArgs lab 0 0 0x100000000 0).arg2.toNat ∧
    2 ≤ (withArgs lab 0 0 0 2).arg3.toNat ∧
    ((withArgs lab 0x100 0 0 1).arg3 = 1 ∧ 2 ^ 8 ≤ (withArgs lab 0x100 0 0 1).arg0.toNat) := by decide

/-- The distances 0 to 4 for tolerance 3; the errors are those of `cvalErrors_met`. -/
theorem witness_CvalCommandsFollowRules :
    2 ^ 8 ≤ (withArgs lab 0 0x100 0 0).arg1.toNat ∧
    (let s := withArgs lab 0x100 0xFF 0xFFFFFFFF 0
     s.arg1.toNat < 2 ^ 8 ∧ s.arg2.toNat < 2 ^ 32 ∧ s.arg3 = 0) ∧
    (∀ r ∈ [(255, 0), (0, 1), (1, 2), (2, 3), (3, 4)],
      let s := withArgs lab 0xFF (BitVec.ofNat 64 r.1) 3 1
      s.arg1.toNat < 2 ^ 8 ∧ s.arg2.toNat < 2 ^ 32 ∧ s.arg3 = 1 ∧ s.arg0.toNat < 2 ^ 8 ∧ r.2 < 2 ^ 8 ∧
        (s.arg0.toNat + r.2) % 2 ^ 8 = s.arg1.toNat) := by
  refine ⟨cvalErrors_met.1, ?_⟩
  decide

/-! #### Construct -/

/-- The base configurations of V-CN at their boundaries, for a header profile and for profile 11 in Nibble mode. -/
def stagedP4 : Staging := { Staging.reset with offset := 8, minLen := 104, maxLen := 0x7FFF8, maxDelta := 0xFFFFE }
def stagedP11 : Staging :=
  { Staging.reset with mode := 1, crcOffset := 8, counterOffset := 0, nibbleOffset := 4, dataLen := 240, maxDelta := 14 }

theorem noOverlap {a n b m : Nat} (h : a + n ≤ b ∨ b + m ≤ a) : ¬Claims.Overlap a n b m := by
  rintro ⟨x, h1, h2, h3, h4⟩
  omega

theorem witness_ConstructCompletes :
    0 < lab.slots.length ∧
    (¬Claims.BadAlignment .p4 stagedP4 ∧ ¬Claims.BadRange .p4 stagedP4 ∧ ¬Claims.BadOverlap .p4 stagedP4 ∧
      ¬Claims.BadDelta .p4 stagedP4) ∧
    (¬Claims.BadAlignment .p11 stagedP11 ∧ ¬Claims.BadRange .p11 stagedP11 ∧ ¬Claims.BadOverlap .p11 stagedP11 ∧
      ¬Claims.BadDelta .p11 stagedP11) := by
  refine ⟨by decide, ⟨?_, ?_, fun h => (by cases h.1), ?_⟩, ⟨?_, ?_, ?_, ?_⟩⟩
  · unfold Claims.BadAlignment; decide
  · unfold Claims.BadRange Claims.FixedLength Claims.dataBits; decide
  · unfold Claims.BadDelta; decide
  · unfold Claims.BadAlignment; decide
  · unfold Claims.BadRange Claims.FixedLength Claims.dataBits; decide
  · rintro ⟨-, h | ⟨-, h | h⟩⟩
    · exact noOverlap (by decide) h
    · exact noOverlap (by decide) h
    · exact noOverlap (by decide) h
  · unfold Claims.BadDelta; decide

/-- One staging per violated group, each one step outside its boundary, with the earlier groups holding. -/
theorem witness_ConstructErrorsInOrder :
    Claims.BadAlignment .p4 { stagedP4 with offset := 12 } ∧
    (¬Claims.BadAlignment .p4 { stagedP4 with minLen := 96 } ∧ Claims.BadRange .p4 { stagedP4 with minLen := 96 }) ∧
    (¬Claims.BadAlignment .p11 { stagedP11 with nibbleOffset := 0 } ∧
      ¬Claims.BadRange .p11 { stagedP11 with nibbleOffset := 0 } ∧
      Claims.BadOverlap .p11 { stagedP11 with nibbleOffset := 0 }) ∧
    (¬Claims.BadAlignment .p4 { stagedP4 with maxDelta := 0xFFFFF } ∧
      ¬Claims.BadRange .p4 { stagedP4 with maxDelta := 0xFFFFF } ∧
      ¬Claims.BadOverlap .p4 { stagedP4 with maxDelta := 0xFFFFF } ∧
      Claims.BadDelta .p4 { stagedP4 with maxDelta := 0xFFFFF }) := by
  refine ⟨?_, ⟨?_, ?_⟩, ⟨?_, ?_, ⟨rfl, .inr ⟨rfl, .inr ⟨0, by decide, by decide, by decide, by decide⟩⟩⟩⟩,
    ⟨?_, ?_, fun h => (by cases h.1), ?_⟩⟩
  · unfold Claims.BadAlignment; decide
  · unfold Claims.BadAlignment; decide
  · unfold Claims.BadRange Claims.FixedLength Claims.dataBits; decide
  · unfold Claims.BadAlignment; decide
  · unfold Claims.BadRange Claims.FixedLength Claims.dataBits; decide
  · unfold Claims.BadAlignment; decide
  · unfold Claims.BadRange Claims.FixedLength Claims.dataBits; decide
  · unfold Claims.BadDelta; decide

/-! #### Protect and check -/

theorem len_labWith (rs : List Slot) : (labWith rs).len.toNat = 30 := by
  show (BitVec.ofNat 32 labBytes.length).toNat = 30
  decide

theorem len_i4 (rs : List Slot) : LenOk (.p4 i4) (labWith rs).len.toNat := by
  show i4.cfg.minLen.toNat ≤ 8 * (labWith rs).len.toNat ∧ 8 * (labWith rs).len.toNat ≤ i4.cfg.maxLen.toNat
  rw [len_labWith]
  decide
theorem len_i4m (rs : List Slot) : LenOk (.p4m i4m) (labWith rs).len.toNat := by
  show i4m.cfg.minLen.toNat ≤ 8 * (labWith rs).len.toNat ∧ 8 * (labWith rs).len.toNat ≤ i4m.cfg.maxLen.toNat
  rw [len_labWith]
  decide
theorem len_i5 (rs : List Slot) : LenOk (.p5 i5) (labWith rs).len.toNat := by
  show 8 * (labWith rs).len.toNat = i5.cfg.dataLen.toNat
  rw [len_labWith]
  decide
theorem len_i6 (rs : List Slot) : LenOk (.p6 i6) (labWith rs).len.toNat := by
  show i6.cfg.minLen.toNat ≤ 8 * (labWith rs).len.toNat ∧ 8 * (labWith rs).len.toNat ≤ i6.cfg.maxLen.toNat
  rw [len_labWith]
  decide
theorem len_i7 (rs : List Slot) : LenOk (.p7 i7) (labWith rs).len.toNat := by
  show i7.cfg.minLen.toNat ≤ 8 * (labWith rs).len.toNat ∧ 8 * (labWith rs).len.toNat ≤ i7.cfg.maxLen.toNat
  rw [len_labWith]
  decide
theorem len_i7m (rs : List Slot) : LenOk (.p7m i7m) (labWith rs).len.toNat := by
  show i7m.cfg.minLen.toNat ≤ 8 * (labWith rs).len.toNat ∧ 8 * (labWith rs).len.toNat ≤ i7m.cfg.maxLen.toNat
  rw [len_labWith]
  decide
theorem len_i8 (rs : List Slot) : LenOk (.p8 i8) (labWith rs).len.toNat := by
  show i8.cfg.minLen.toNat ≤ 8 * (labWith rs).len.toNat ∧ 8 * (labWith rs).len.toNat ≤ i8.cfg.maxLen.toNat
  rw [len_labWith]
  decide
theorem len_i11 (rs : List Slot) : LenOk (.p11 i11) (labWith rs).len.toNat := by
  show 8 * (labWith rs).len.toNat = i11.cfg.dataLen.toNat
  rw [len_labWith]
  decide
theorem len_i11b (rs : List Slot) : LenOk (.p11 i11b) (labWith rs).len.toNat := by
  show 8 * (labWith rs).len.toNat = i11b.cfg.dataLen.toNat
  rw [len_labWith]
  decide
theorem len_i22 (rs : List Slot) : LenOk (.p22 i22) (labWith rs).len.toNat := by
  show 8 * (labWith rs).len.toNat = i22.cfg.dataLen.toNat
  rw [len_labWith]
  decide

theorem witness_FieldsInsideMessage :
    (Slot.p4 i4).Ok ∧ LenOk (.p4 i4) 13 ∧ InFields (.p4 i4) 12 ∧ (Slot.p4 i4).kind = some .p4 ∧ (Slot.p11 i11).Ok ∧
    LenOk (.p11 i11) 30 :=
  ⟨ok_i4, ⟨by decide, by decide⟩, ⟨by decide, by decide⟩, rfl, ok_i11, by unfold LenOk; decide⟩

/-- The error clauses of every protect and check: an empty slot, a slot of another kind, and LEN one byte above what the
configuration admits. -/
theorem framerErrors_met :
    (lab.slots[9]? = some Slot.none ∧ ∀ p, Slot.none.kind ≠ some p) ∧
    (lab.slots[0]? = some (Slot.p4 i4) ∧ (Slot.p4 i4).kind ≠ some .p4m) ∧
    ¬LenOk (.p4 i4) labLonger.len.toNat ∧ ¬LenOk (.p4m i4m) labLonger.len.toNat ∧
    ¬LenOk (.p5 i5) labLonger.len.toNat ∧ ¬LenOk (.p6 i6) labLonger.len.toNat ∧
    ¬LenOk (.p7 i7) labLonger.len.toNat ∧ ¬LenOk (.p7m i7m) labLonger.len.toNat ∧
    ¬LenOk (.p8 i8) labLonger.len.toNat ∧ ¬LenOk (.p11 i11) labLonger.len.toNat ∧
    ¬LenOk (.p22 i22) labLonger.len.toNat ∧ labLonger.slots = lab.slots := by
  refine ⟨⟨rfl, fun p => by cases p <;> decide⟩, ⟨rfl, by decide⟩, ?_⟩
  unfold LenOk
  exact ⟨by decide, by decide, by decide, by decide, by decide, by decide, by decide, by decide, by decide, rfl⟩

theorem get?_filter (f : Nat → Bool) (x : Nat) : ∀ m : Memory,
    Memory.get? (m.filter fun c => f c.1) x = if f x then m.get? x else none
  | [] => by simp [Memory.get?]
  | (k, b) :: m => by
    have ih := get?_filter f x m
    by_cases hx : x = k
    · subst hx
      cases hf : f x <;> simp_all [Memory.get?]
    · cases hf : f k <;> simp_all [Memory.get?]

/-- The laboratory machine with no value at the addresses from `lo` below `hi`: a header not yet written. -/
def labWithout (lo hi : Nat) : State := { lab with buf := lab.buf.filter fun c => !decide (lo ≤ c.1 ∧ c.1 < hi) }

theorem message_without {lo hi : Nat} {blank : Nat → Prop} (h : ∀ a, lo ≤ a → a < hi → blank a) :
    MessageBut blank (labWithout lo hi) labBytes := by
  refine ⟨lab_message.length_eq, lab_message.fits, fun a ha hb => ?_⟩
  show Memory.get? (lab.buf.filter fun c => !decide (lo ≤ c.1 ∧ c.1 < hi)) a = _
  rw [get?_filter (fun k => !decide (lo ≤ k ∧ k < hi)), if_pos]
  · exact lab_message.byte_eq a ha
  · have hn : ¬(lo ≤ a ∧ a < hi) := fun hc => hb (h a hc.1 hc.2)
    simp [hn]

theorem witness_ProtectP4AndP4MFollowRules :
    (lab.slots[9]? = some Slot.none ∧ ∀ p, Slot.none.kind ≠ some p) ∧ MessageBut (InFields (.p4 i4)) (labWithout 1 13) labBytes ∧
    MessageBut (InFields (.p4m i4m)) (labWithout 1 17) labBytes ∧
    (lab.slots[0]? = some (Slot.p4 i4) ∧ i4.cfg.Ok .p4 ∧ LenOk (Slot.p4 i4) lab.len.toNat) ∧
    (lab.slots[1]? = some (Slot.p4m i4m) ∧ i4m.cfg.toVarCfg.Ok .p4m ∧ LenOk (Slot.p4m i4m) lab.len.toNat) :=
  ⟨framerErrors_met.1, message_without fun _ h1 h2 => ⟨h1, h2⟩, message_without fun _ h1 h2 => ⟨h1, h2⟩, ⟨rfl, ok_i4, len_i4 _⟩, ⟨rfl, ok_i4m, len_i4m _⟩⟩

theorem witness_ProtectP5AndP6FollowRules :
    (lab.slots[9]? = some Slot.none ∧ ∀ p, Slot.none.kind ≠ some p) ∧ MessageBut (InFields (.p5 i5)) (labWithout 1 4) labBytes ∧
    MessageBut (InFields (.p6 i6)) (labWithout 1 6) labBytes ∧
    (lab.slots[2]? = some (Slot.p5 i5) ∧ i5.cfg.Ok ∧ LenOk (Slot.p5 i5) lab.len.toNat) ∧
    (lab.slots[3]? = some (Slot.p6 i6) ∧ i6.cfg.Ok .p6 ∧ LenOk (Slot.p6 i6) lab.len.toNat) :=
  ⟨framerErrors_met.1, message_without fun _ h1 h2 => ⟨h1, h2⟩, message_without fun _ h1 h2 => ⟨h1, h2⟩, ⟨rfl, ok_i5, len_i5 _⟩, ⟨rfl, ok_i6, len_i6 _⟩⟩

theorem witness_ProtectP7AndP8FollowRules :
    (lab.slots[9]? = some Slot.none ∧ ∀ p, Slot.none.kind ≠ some p) ∧ MessageBut (InFields (.p7 i7)) (labWithout 1 21) labBytes ∧
    MessageBut (InFields (.p8 i8)) (labWithout 1 17) labBytes ∧
    (lab.slots[4]? = some (Slot.p7 i7) ∧ i7.cfg.Ok .p7 ∧ LenOk (Slot.p7 i7) lab.len.toNat) ∧
    (lab.slots[6]? = some (Slot.p8 i8) ∧ i8.cfg.Ok .p8 ∧ LenOk (Slot.p8 i8) lab.len.toNat) :=
  ⟨framerErrors_met.1, message_without fun _ h1 h2 => ⟨h1, h2⟩, message_without fun _ h1 h2 => ⟨h1, h2⟩, ⟨rfl, ok_i7, len_i7 _⟩, ⟨rfl, ok_i8, len_i8 _⟩⟩

theorem witness_ProtectP7MFollowsRule :
    (lab.slots[9]? = some Slot.none ∧ ∀ p, Slot.none.kind ≠ some p) ∧ MessageBut (InFields (.p7m i7m)) (labWithout 1 25) labBytes ∧
    (lab.slots[5]? = some (Slot.p7m i7m) ∧ i7m.cfg.toVarCfg.Ok .p7m ∧ LenOk (Slot.p7m i7m) lab.len.toNat) :=
  ⟨framerErrors_met.1, message_without fun _ h1 h2 => ⟨h1, h2⟩, ⟨rfl, ok_i7m, len_i7m _⟩⟩

theorem witness_ProtectP11FollowsRule :
    (lab.slots[9]? = some Slot.none ∧ ∀ p, Slot.none.kind ≠ some p) ∧ MessageBut (· = i11.cfg.crcOffset.toNat / 8) (labWithout 0 1) labBytes ∧
    (lab.slots[7]? = some (Slot.p11 i11) ∧ i11.cfg.Ok ∧ LenOk (Slot.p11 i11) lab.len.toNat) ∧
    (lab.slots[10]? = some (Slot.p11 i11b) ∧ i11b.cfg.Ok ∧ LenOk (Slot.p11 i11b) lab.len.toNat) :=
  ⟨framerErrors_met.1, message_without fun a h1 h2 => (by show a = 0; omega), ⟨rfl, ok_i11, len_i11 _⟩, ⟨rfl, ok_i11b, len_i11b _⟩⟩

theorem witness_ProtectP22FollowsRule :
    (lab.slots[9]? = some Slot.none ∧ ∀ p, Slot.none.kind ≠ some p) ∧ MessageBut (· = i22.cfg.offset.toNat / 8) (labWithout 1 2) labBytes ∧
    (lab.slots[8]? = some (Slot.p22 i22) ∧ i22.cfg.Ok ∧ LenOk (Slot.p22 i22) lab.len.toNat) :=
  ⟨framerErrors_met.1, message_without fun a h1 h2 => (by show a = 1; omega), ⟨rfl, ok_i22, len_i22 _⟩⟩

/-- The laboratory machine where the bytes from `lo` below `hi` alone hold a value: 0. -/
def labOnly (lo hi : Nat) : State := { lab with buf := lab.buf.filter fun c => decide (lo ≤ c.1 ∧ c.1 < hi) }

/-- The findings of every check whose length test or whose Length field fails: LEN one byte above what the
configuration admits, where that byte holds no value; a Length field of 0, no other byte with a value. -/
theorem lengthFindings_met :
    labLonger.slots = lab.slots ∧ labLonger.buf.get? 30 = none ∧ (∀ lo hi, (labOnly lo hi).slots = lab.slots) ∧
    (∀ lo hi, (labOnly lo hi).len = lab.len) ∧
    (Claims.lengthField (.p4 i4) = some (1, 2) ∧ Holds (labOnly 1 3) 1 [0, 0]) ∧
    (Claims.lengthField (.p4m i4m) = some (1, 2) ∧ Holds (labOnly 1 3) 1 [0, 0]) ∧
    (Claims.lengthField (.p6 i6) = some (3, 2) ∧ Holds (labOnly 3 5) 3 [0, 0]) ∧
    (Claims.lengthField (.p7 i7) = some (9, 4) ∧ Holds (labOnly 9 13) 9 [0, 0, 0, 0]) ∧
    (Claims.lengthField (.p7m i7m) = some (9, 4) ∧ Holds (labOnly 9 13) 9 [0, 0, 0, 0]) ∧
    (Claims.lengthField (.p8 i8) = some (5, 4) ∧ Holds (labOnly 5 9) 5 [0, 0, 0, 0]) ∧
    beValue [0, 0] ≠ lab.len.toNat ∧ beValue [0, 0, 0, 0] ≠ lab.len.toNat := by
  unfold Holds
  refine ⟨rfl, by decide +kernel, fun _ _ => rfl, fun _ _ => rfl, ?_, ?_, ?_, ?_, ?_, ?_, by decide, by decide⟩
  all_goals exact ⟨rfl, by decide +kernel⟩

theorem witness_CheckP4AndP4MFollowRules :
    (lab.slots[9]? = some Slot.none ∧ ∀ p, Slot.none.kind ≠ some p) ∧ Message lab labBytes ∧
    (¬LenOk (.p4 i4) labLonger.len.toNat ∧ ¬LenOk (.p4m i4m) labLonger.len.toNat) ∧
    (LenOk (.p4 i4) lab.len.toNat ∧ LenOk (.p4m i4m) lab.len.toNat) ∧
    (lab.slots[0]? = some (Slot.p4 i4) ∧ i4.cfg.Ok .p4) ∧
    (lab.slots[1]? = some (Slot.p4m i4m) ∧ i4m.cfg.toVarCfg.Ok .p4m) :=
  ⟨framerErrors_met.1, lab_message, ⟨framerErrors_met.2.2.1, framerErrors_met.2.2.2.1⟩, ⟨len_i4 _, len_i4m _⟩, ⟨rfl, ok_i4⟩, ⟨rfl, ok_i4m⟩⟩

theorem witness_CheckP5AndP6FollowRules :
    (lab.slots[9]? = some Slot.none ∧ ∀ p, Slot.none.kind ≠ some p) ∧ Message lab labBytes ∧
    (¬LenOk (.p5 i5) labLonger.len.toNat ∧ ¬LenOk (.p6 i6) labLonger.len.toNat) ∧
    (LenOk (.p5 i5) lab.len.toNat ∧ LenOk (.p6 i6) lab.len.toNat) ∧
    (lab.slots[2]? = some (Slot.p5 i5) ∧ i5.cfg.Ok) ∧
    (lab.slots[3]? = some (Slot.p6 i6) ∧ i6.cfg.Ok .p6) :=
  ⟨framerErrors_met.1, lab_message, ⟨framerErrors_met.2.2.2.2.1, framerErrors_met.2.2.2.2.2.1⟩, ⟨len_i5 _, len_i6 _⟩, ⟨rfl, ok_i5⟩, ⟨rfl, ok_i6⟩⟩

theorem witness_CheckP7FamilyFollowsRules :
    (lab.slots[9]? = some Slot.none ∧ ∀ p, Slot.none.kind ≠ some p) ∧ Message lab labBytes ∧
    (¬LenOk (.p7 i7) labLonger.len.toNat ∧ ¬LenOk (.p7m i7m) labLonger.len.toNat ∧ ¬LenOk (.p8 i8) labLonger.len.toNat) ∧
    (LenOk (.p7 i7) lab.len.toNat ∧ LenOk (.p7m i7m) lab.len.toNat ∧ LenOk (.p8 i8) lab.len.toNat) ∧
    (lab.slots[4]? = some (Slot.p7 i7) ∧ i7.cfg.Ok .p7) ∧
    (lab.slots[5]? = some (Slot.p7m i7m) ∧ i7m.cfg.toVarCfg.Ok .p7m) ∧
    (lab.slots[6]? = some (Slot.p8 i8) ∧ i8.cfg.Ok .p8) :=
  ⟨framerErrors_met.1, lab_message, ⟨framerErrors_met.2.2.2.2.2.2.1, framerErrors_met.2.2.2.2.2.2.2.1, framerErrors_met.2.2.2.2.2.2.2.2.1⟩, ⟨len_i7 _, len_i7m _, len_i8 _⟩, ⟨rfl, ok_i7⟩, ⟨rfl, ok_i7m⟩, ⟨rfl, ok_i8⟩⟩

theorem witness_CheckP11FollowsRule :
    (lab.slots[9]? = some Slot.none ∧ ∀ p, Slot.none.kind ≠ some p) ∧ Message lab labBytes ∧
    (¬LenOk (.p11 i11) labLonger.len.toNat) ∧
    (LenOk (.p11 i11) lab.len.toNat) ∧
    (lab.slots[7]? = some (Slot.p11 i11) ∧ i11.cfg.Ok) ∧
    (lab.slots[10]? = some (Slot.p11 i11b) ∧ i11b.cfg.Ok) :=
  ⟨framerErrors_met.1, lab_message, framerErrors_met.2.2.2.2.2.2.2.2.2.1, len_i11 _, ⟨rfl, ok_i11⟩, ⟨rfl, ok_i11b⟩⟩

theorem witness_CheckP22FollowsRule :
    (lab.slots[9]? = some Slot.none ∧ ∀ p, Slot.none.kind ≠ some p) ∧ Message lab labBytes ∧
    (¬LenOk (.p22 i22) labLonger.len.toNat) ∧
    (LenOk (.p22 i22) lab.len.toNat) ∧
    (lab.slots[8]? = some (Slot.p22 i22) ∧ i22.cfg.Ok) :=
  ⟨framerErrors_met.1, lab_message, framerErrors_met.2.2.2.2.2.2.2.2.2.2.1, len_i22 _, ⟨rfl, ok_i22⟩⟩

/-! #### Sender and receiver together -/

/-- Slots 0 to 8 send, slots 11 to 19 hold fresh receivers of the same configurations. -/
theorem witness_RoundTripThenRepeated :
    lab.Inv ∧ Message lab labBytes ∧
    (lab.slots[0]? = some (.p4 i4) ∧ lab.slots[11]? = some (.p4 i4) ∧ (Slot.p4 i4).kind = some .p4 ∧
      Claims.SameCfg (.p4 i4) (.p4 i4) ∧ rxOf (.p4 i4) = none ∧ LenOk (.p4 i4) lab.len.toNat) ∧
    (lab.slots[5]? = some (.p7m i7m) ∧ lab.slots[16]? = some (.p7m i7m) ∧ (Slot.p7m i7m).kind = some .p7m ∧
      Claims.SameCfg (.p7m i7m) (.p7m i7m) ∧ rxOf (.p7m i7m) = none ∧ LenOk (.p7m i7m) lab.len.toNat) ∧
    (lab.slots[7]? = some (.p11 i11) ∧ lab.slots[18]? = some (.p11 i11) ∧ (Slot.p11 i11).kind = some .p11 ∧
      Claims.SameCfg (.p11 i11) (.p11 i11) ∧ rxOf (.p11 i11) = none ∧ LenOk (.p11 i11) lab.len.toNat) ∧
    (lab.slots[8]? = some (.p22 i22) ∧ lab.slots[19]? = some (.p22 i22) ∧ (Slot.p22 i22).kind = some .p22 ∧
      Claims.SameCfg (.p22 i22) (.p22 i22) ∧ rxOf (.p22 i22) = none ∧ LenOk (.p22 i22) lab.len.toNat) :=
  ⟨inv_lab, lab_message, ⟨rfl, rfl, rfl, rfl, rfl, len_i4 _⟩, ⟨rfl, rfl, rfl, rfl, rfl, len_i7m _⟩,
    ⟨rfl, rfl, rfl, rfl, rfl, len_i11 _⟩, ⟨rfl, rfl, rfl, rfl, rfl, len_i22 _⟩⟩

/-- A receiver that differs from the profile 4 sender in the Data ID, and has counters of its own. -/
def other4 : Slot := .p4 { i4 with cfg := { i4.cfg with dataId := 0x12345679 }, tx := 5, rx := some 9 }

theorem witness_WrongDataIdIsReported :
    (labWith [other4]).Inv ∧ Message (labWith [other4]) labBytes ∧ (labWith [other4]).slots[0]? = some (.p4 i4) ∧
    (Slot.p4 i4).kind = some .p4 ∧ (labWith [other4]).slots[11]? = some other4 ∧
    Claims.SameCfg (Claims.withOtherId (.p4 i4) 0x12345679) other4 ∧ Claims.withOtherId (.p4 i4) 0x12345679 ≠ .p4 i4 ∧
    LenOk (.p4 i4) (labWith [other4]).len.toNat := by
  refine ⟨inv_labWith ?_ (by decide), message_lab _, rfl, rfl, rfl, rfl, by decide, len_i4 _⟩
  intro x hx
  rw [List.mem_singleton] at hx
  subst hx
  exact ⟨ok_i4.aligned, ok_i4.min8, ok_i4.max8, ok_i4.ordered, ok_i4.short, ok_i4.inside, ok_i4.delta⟩

/-- Receivers that differ in the Data ID, and have counters of their own: profiles 5, 6, 11 (both modes), 22. -/
def o5 : Inst FixCfg 8 := { i5 with cfg := { i5.cfg with dataId := 0x1235 }, rx := some 3 }
def o6 : Inst (VarCfg 16) 8 := { i6 with cfg := { i6.cfg with dataId := 0x1235 }, tx := 7 }
def o11b : Inst P11Cfg 4 := { i11b with cfg := { i11b.cfg with dataId := 0x0124 }, rx := some 3 }
def o11 : Inst P11Cfg 4 := { i11 with cfg := { i11.cfg with dataId := 0x0923 }, rx := some 3 }
def o22 : Inst P22Cfg 4 := { i22 with cfg := { i22.cfg with idList := Vector.replicate 16 7 }, tx := 7 }
def otherIds : List Slot := [.p5 o5, .p6 o6, .p11 o11b, .p11 o11, .p22 o22]
def labOther : State := labWith otherIds

theorem ok_otherIds : ∀ x ∈ otherIds, x.Ok := by
  simp only [otherIds, List.forall_mem_cons]
  exact ⟨⟨ok_i5.aligned, ok_i5.len8, ok_i5.inside, ok_i5.delta⟩,
    ⟨ok_i6.aligned, ok_i6.min8, ok_i6.max8, ok_i6.ordered, ok_i6.short, ok_i6.inside, ok_i6.delta⟩,
    ⟨ok_i11b.crcAligned, ok_i11b.counterAligned, ok_i11b.len8, ok_i11b.lenMax, ok_i11b.crcInside, ok_i11b.counterInside,
      ok_i11b.apart, ok_i11b.nibbleOk, ok_i11b.delta⟩,
    ⟨ok_i11.crcAligned, ok_i11.counterAligned, ok_i11.len8, ok_i11.lenMax, ok_i11.crcInside, ok_i11.counterInside,
      ok_i11.apart, ok_i11.nibbleOk, ok_i11.delta⟩,
    ⟨ok_i22.aligned, ok_i22.len8, ok_i22.inside, ok_i22.delta⟩, by simp⟩

theorem witness_WrongDataIdBreaksCrc :
    labOther.Inv ∧ Message labOther labBytes ∧
    (labOther.slots[2]? = some (Slot.p5 i5) ∧ labOther.slots[11]? = some (Slot.p5 o5) ∧
      (0x1235 : BitVec 16) ≠ i5.cfg.dataId ∧ o5.cfg = { i5.cfg with dataId := 0x1235 } ∧
      LenOk (Slot.p5 i5) labOther.len.toNat) ∧
    (labOther.slots[3]? = some (Slot.p6 i6) ∧ labOther.slots[12]? = some (Slot.p6 o6) ∧
      (0x1235 : BitVec 16) ≠ i6.cfg.dataId ∧ o6.cfg = { i6.cfg with dataId := 0x1235 } ∧
      LenOk (Slot.p6 i6) labOther.len.toNat) ∧
    (labOther.slots[10]? = some (Slot.p11 i11b) ∧ labOther.slots[13]? = some (Slot.p11 o11b) ∧
      i11b.cfg.mode = P11Mode.both ∧ (0x0124 : BitVec 16).toNat % 256 ≠ i11b.cfg.dataId.toNat % 256 ∧
      o11b.cfg = { i11b.cfg with dataId := 0x0124 } ∧ LenOk (Slot.p11 i11b) labOther.len.toNat) ∧
    (labOther.slots[7]? = some (Slot.p11 i11) ∧ labOther.slots[14]? = some (Slot.p11 o11) ∧
      i11.cfg.mode = P11Mode.nibble 12 ∧ (0x0923 : BitVec 16).toNat % 4096 ≠ i11.cfg.dataId.toNat % 4096 ∧
      o11.cfg = { i11.cfg with dataId := 0x0923 } ∧ LenOk (Slot.p11 i11) labOther.len.toNat) ∧
    (labOther.slots[8]? = some (Slot.p22 i22) ∧ labOther.slots[15]? = some (Slot.p22 o22) ∧
      (Vector.replicate 16 (7 : Byte))[i22.tx.toNat]'(i22.tx.isLt) ≠ i22.cfg.idList[i22.tx.toNat]'(i22.tx.isLt) ∧
      o22.cfg = { i22.cfg with idList := Vector.replicate 16 7 } ∧ LenOk (Slot.p22 i22) labOther.len.toNat) :=
  ⟨inv_labWith ok_otherIds (by decide), message_lab _, ⟨rfl, rfl, by decide, rfl, len_i5 _⟩,
    ⟨rfl, rfl, by decide, rfl, len_i6 _⟩, ⟨rfl, rfl, rfl, by decide, rfl, len_i11b _⟩,
    ⟨rfl, rfl, rfl, by decide, rfl, len_i11 _⟩, ⟨rfl, rfl, by decide +kernel, rfl, len_i22 _⟩⟩

/-- A sender about to wrap (profile 5, `tx_counter` 0xFF) with a fresh receiver, and one that expects 0xFF. -/
theorem witness_ConsecutiveProtectsAreOk :
    let s := labWith [.p5 { i5 with tx := 0xFF }, .p5 i5, .p5 { i5 with rx := some 0xFE }]
    s.Inv ∧ Message s labBytes ∧ s.slots[11]? = some (.p5 { i5 with tx := 0xFF }) ∧ s.slots[12]? = some (.p5 i5) ∧
    s.slots[13]? = some (.p5 { i5 with rx := some 0xFE }) ∧ Slot.kind (.p5 { i5 with tx := 0xFF }) = some .p5 ∧
    Claims.SameCfg (.p5 { i5 with tx := 0xFF }) (.p5 { i5 with rx := some 0xFE }) ∧
    txOf (.p5 { i5 with tx := 0xFF }) = some 0xFF ∧ rxOf (.p5 i5) = none ∧
    LenOk (.p5 { i5 with tx := 0xFF }) s.len.toNat := by
  refine ⟨inv_labWith ?_ (by decide), message_lab _, rfl, rfl, rfl, rfl, rfl, rfl, rfl, len_i5 _⟩
  intro x hx
  simp only [List.mem_cons, List.not_mem_nil, or_false] at hx
  rcases hx with rfl | rfl | rfl
  · exact ok_i5
  · exact ok_i5
  · exact ok_i5

/-- The message of V-FR-1 and the same with the last bit of its last byte flipped; both ends of the bytes outside the
CRC field. Profile 22: a flip outside the counter nibble leaves the list entry. -/
theorem witness_SingleBitFlipIsDetected :
    (received none).slots[0]? = some (.p4 ⟨cfgP4, 0, none⟩) ∧ (received none).Inv ∧
    (∃ t, exec (checkOf .p4 0) (received none) = .next t ∧ t.status.toNat ≤ 3) ∧
    (let m : List Byte := [0x00, 0x10, 0x00, 0x00, 0x12, 0x34, 0x56, 0x78, 0x05, 0x6A, 0x0C, 0xC5, 0x00, 0x00, 0x00, 0x00]
     let s' := machine 16 (Claims.flipBit m 15 7) [.p4 ⟨cfgP4, 0, none⟩]
     Message (received none) m ∧ Message s' (Claims.flipBit m 15 7) ∧ s'.slots = (received none).slots ∧
       s'.len = (received none).len ∧ (Claims.crcRange (.p4 ⟨cfgP4, 0, none⟩)).2 ≤ 15 ∧
       7 < (Claims.crcRange (.p4 ⟨cfgP4, 0, none⟩)).1) ∧
    i22.cfg.idList.toList[Claims.counterField (.p22 i22) (Claims.flipBit labBytes 2 4)]? =
      i22.cfg.idList.toList[Claims.counterField (.p22 i22) labBytes]? := by
  obtain ⟨t, h, hf⟩ := next_of_after (r := exec (checkOf .p4 0) (received none))
    (f := fun t => decide (t.status.toNat ≤ 3)) (by decide +kernel)
  exact ⟨rfl, inv_received, ⟨t, h, by simpa using hf⟩, ⟨message_received none,
    message_machine (by decide +kernel) (by decide +kernel), rfl, by decide +kernel, by decide, by decide⟩,
    by decide +kernel⟩

end Sys2Proof.Tests
end

section
/-! The invariant of the block (R8, R26, R30, R33, R120, R121): the state after reset meets it, and every step keeps
it. One lemma per state update says what the update needs; the commands are covered by the inversion lemma
`exec_effect`, the host's own actions by `hostAct_keeps_inv`. -/

namespace Sys2Proof.Machine

/-! ### What a state update needs to keep the invariant -/

theorem State.Inv.setErr {s : State} (h : s.Inv) {v : BitVec 8} (hv : v.toNat ≤ 7) : (s.setErr v).Inv :=
  { h with errLegal := hv }

theorem State.Inv.setErr_noError {s : State} (h : s.Inv) : (s.setErr noError).Inv := h.setErr (by decide)

theorem State.Inv.setErr_code {s : State} (h : s.Inv) (k : ErrKind) : (s.setErr k.code).Inv :=
  h.setErr (errKind_code_le k)

theorem State.Inv.setStatus_code {s : State} (h : s.Inv) (st : Status) : (s.setStatus st.code).Inv :=
  { h with statusLegal := status_code_ne_seven st }

theorem State.Inv.setRes0 {s : State} (h : s.Inv) (v : Word64) : (s.setRes0 v).Inv := { h with }

theorem State.Inv.setRes1 {s : State} (h : s.Inv) (v : Word64) : (s.setRes1 v).Inv := { h with }

theorem State.Inv.setStaging {s : State} (h : s.Inv) (g : Staging) : (s.setStaging g).Inv := { h with }

theorem State.Inv.setHost {s : State} (h : s.Inv) (l : List HostAction) : (s.setHost l).Inv := { h with }

theorem State.Inv.setLen {s : State} (h : s.Inv) {n : Word32} (hn : n.toNat ≤ s.bufBytes) : (s.setLen n).Inv :=
  { h with lenLegal := hn }

theorem State.Inv.setArg {s : State} (h : s.Inv) (k : Fin 4) (v : Word64) : (s.setArg k v).Inv where
  bufWf := by simpa using h.bufWf
  bufBound := by simpa using h.bufBound
  capacity := by simpa using h.capacity
  lenLegal := by simpa using h.lenLegal
  slotCount := by simpa using h.slotCount
  statusLegal := by simpa using h.statusLegal
  errLegal := by simpa using h.errLegal
  slotsOk := by simpa using h.slotsOk

/-- A slot may be given any validated configuration. -/
theorem State.Inv.setSlot {s : State} (h : s.Inv) (i : Nat) {x : Slot} (hx : x.Ok) : (s.setSlot i x).Inv :=
  { h with
    slotCount := by simpa using h.slotCount
    slotsOk := fun y hy => by
      rcases List.mem_or_eq_of_mem_set hy with hy | rfl
      · exact h.slotsOk y hy
      · exact hx }

/-- Stores to existing addresses keep the invariant, wherever they are. -/
theorem StoresOnly.inv {P : Nat → Prop} {s t : State} (hst : StoresOnly P s t) (h : s.Inv) : t.Inv := by
  obtain ⟨m, rfl, -, hwf, hbound⟩ := hst
  exact { h with bufWf := hwf h.bufWf, bufBound := hbound h.bufBound }

/-! ### Reset -/

/-- Block reset meets the invariant for every pair of parameters in the ranges of R8. -/
theorem inv_afterReset {bufBytes nInst : Nat} (hb : 1 ≤ bufBytes ∧ bufBytes ≤ 2 ^ 29 - 1)
    (hn : 1 ≤ nInst ∧ nInst ≤ 256) (host : List HostAction) : (State.afterReset bufBytes nInst host).Inv where
  bufWf := rfl
  bufBound _ hc := absurd hc List.not_mem_nil
  capacity := hb
  lenLegal := Nat.zero_le _
  slotCount := by simpa [State.afterReset] using hn
  statusLegal := show (0 : BitVec 3) ≠ 7 by decide
  errLegal := Nat.zero_le _
  slotsOk x hx := by
    rw [List.eq_of_mem_replicate hx]
    exact trivial

theorem config_bufBytes_range : 1 ≤ Config.bufBytes ∧ Config.bufBytes ≤ 2 ^ 29 - 1 :=
  ⟨Nat.succ_pos _, Config.bufBytesChoice.isLt⟩

theorem config_nInst_range : 1 ≤ Config.nInst ∧ Config.nInst ≤ 256 :=
  ⟨Nat.succ_pos _, Config.nInstChoice.isLt⟩

/-- Settles O10: the free parameters of `Config` are in the ranges of R8. -/
theorem resetSatisfiesInvariant : Obligations.ResetSatisfiesInvariant :=
  inv_afterReset config_bufBytes_range config_nInst_range []

/-! ### Commands -/

/-- A protect leaves the configuration of its slot as it was validated. -/
theorem Slot.Ok.sent {x : Slot} (h : x.Ok) : x.sent.Ok := by cases x <;> exact h

/-- A check leaves the configuration of its slot as it was validated. -/
theorem Slot.Ok.received {x : Slot} (h : x.Ok) (v : Nat) : (x.received v).Ok := by cases x <;> exact h

theorem State.Inv.slot_ok {s : State} (h : s.Inv) {k : Nat} {x : Slot} (hk : s.slots[k]? = some x) : x.Ok :=
  h.slotsOk x (List.mem_of_getElem? hk)

theorem Effect.keeps_inv {s t : State} {i : Instr} (he : Effect s i t) (h : s.Inv) : t.Inv := by
  cases he with
  | error i k hc => exact h.setErr_code k
  | result i v hi => exact (h.setRes0 v).setErr_noError
  | store i u hi hu => exact (hu.inv h).setErr_noError
  | validate i st v hi => exact (((h.setStatus_code st).setRes0 v).setRes1 1).setErr_noError
  | construct p k x hk hx ho htx hrx => exact (h.setSlot k ho).setErr_noError
  | protect p k x u hk hx hl hu => exact ((hu.inv h).setSlot k (h.slot_ok hk).sent).setErr_noError
  | finding p k x st hk hx hst => exact (h.setStatus_code st).setErr_noError
  | counted p k x r hk hx hl => exact ((h.setStatus_code _).setSlot k ((h.slot_ok hk).received _)).setErr_noError

/-- A write of CMD keeps the invariant, whether the word is a command or not (R27, R95). -/
theorem command_keeps_inv {w : Word32} {s t : State} (h : s.Inv) (hc : command w s = .next t) : t.Inv := by
  unfold command at hc
  split at hc
  · exact (exec_effect hc).keeps_inv h
  · obtain rfl : s.setErr ErrKind.illegalCommand.code = t := by simpa using hc
    exact h.setErr_code _

/-! ### The host's own actions -/

theorem storesOnly_writeByte {s t : State} {a : Nat} {b : Byte} (h : writeByte s a b = .ok t) :
    StoresOnly (· = a) s t := by
  obtain ⟨ha, rfl⟩ := writeByte_eq_ok.mp h
  refine ⟨_, rfl, fun x hx => Memory.get?_set_other _ _ hx, Memory.wf_set _ _, fun hb c hc => ?_⟩
  rcases Memory.mem_set hc with rfl | hc
  · exact ha
  · exact hb c hc

/-- A byte range written inside the buffer. -/
theorem storesOnly_writeBytes {s t : State} {a : Nat} {bs : List Byte} (hlen : a + bs.length ≤ s.bufBytes)
    (h : writeBytes s a bs = .ok t) : StoresOnly (fun x => a ≤ x ∧ x < a + bs.length) s t := by
  obtain ⟨-, m, rfl, hget, hwf, hbound⟩ := writeBytes_eq_ok h
  exact ⟨m, rfl, fun x hx => by rw [hget, if_neg hx], hwf, fun hb => hbound _ hb hlen⟩

theorem StoresOnly.bufBytes_eq {P : Nat → Prop} {s t : State} (h : StoresOnly P s t) : t.bufBytes = s.bufBytes := by
  obtain ⟨m, rfl, -, -, -⟩ := h
  rfl

/-- The host's `buf` line: a message no longer than the buffer becomes its content and LEN its length (R97). -/
theorem hostAct_buf_keeps_inv {bytes : List Byte} {s t : State} (h : s.Inv) (ha : hostAct (.buf bytes) s = .next t) :
    t.Inv := by
  simp only [hostAct] at ha
  split at ha
  next hlen =>
    obtain ⟨u, hu, ht⟩ := access_bind_eq_ok.mp (run_eq_next.mp ha)
    obtain rfl := Except.ok.inj ht
    have hst := storesOnly_writeBytes (by simpa using hlen) hu
    refine (hst.inv h).setLen ?_
    rw [hst.bufBytes_eq, BitVec.toNat_ofNat]
    exact (Nat.mod_le _ _).trans hlen
  next => cases ha

theorem hostAct_keeps_inv {a : HostAction} {s t : State} (h : s.Inv) (ha : hostAct a s = .next t) : t.Inv := by
  cases a with
  | setArg k v => cases ha; exact h.setArg k v
  | setLen n =>
    simp only [hostAct] at ha
    split at ha
    next hn => cases ha; exact h.setLen hn
    next => cases ha
  | setCfg r v => cases ha; exact h.setStaging _
  | setCfgMode v => cases ha; exact h.setStaging _
  | setIdList k v => cases ha; exact h.setStaging _
  | poke k b => exact (storesOnly_writeByte (run_eq_next.mp ha)).inv h
  | buf bytes => exact hostAct_buf_keeps_inv h ha
  | writeCmd w => cases ha; exact h
  | writeOut r => cases ha
  | readReg => cases ha; exact h
  | readBuf k =>
    obtain ⟨-, -, ht⟩ := access_bind_eq_ok.mp (run_eq_next.mp ha)
    cases ht
    exact h
  | readCmd => cases ha
  | blockReset => cases ha; exact inv_afterReset h.capacity h.slotCount s.host

/-! ### One step -/

/-- An action is a write of CMD, or one of the host's own. -/
theorem performAction_cases {a : HostAction} {s t : State} (h : performAction a s = .next t) :
    (∃ w, a = .writeCmd w ∧ command w s = .next t) ∨ hostAct a s = .next t := by
  unfold performAction at h
  split at h
  next w => exact .inl ⟨w, rfl, h⟩
  next => exact .inr h

/-- Everything a step that answers a next state can have done: nothing where the host does nothing (R425), else the
host's next action. -/
theorem step_cases {s t : State} (h : step s = .next t) :
    (s.host = [] ∧ t = s) ∨ ∃ a rest, s.host = a :: rest ∧ performAction a (s.setHost rest) = .next t := by
  cases hh : s.host with
  | nil =>
    simp only [step, nextAction, hh] at h
    exact .inl ⟨rfl, (Host.Outcome.next.inj h).symm⟩
  | cons a rest =>
    simp only [step, nextAction, hh] at h
    exact .inr ⟨a, rest, rfl, h⟩

/-- Settles O11: a step does nothing, performs a command or performs one of the host's own actions, and each of the
three keeps the invariant. -/
theorem stepKeepsInvariant : Obligations.StepKeepsInvariant := by
  intro s t h hs
  rcases step_cases hs with ⟨-, rfl⟩ | ⟨a, rest, -, ha⟩
  · exact h
  · rcases performAction_cases ha with ⟨w, -, hc⟩ | ha
    · exact command_keeps_inv (h.setHost rest) hc
    · exact hostAct_keeps_inv (h.setHost rest) ha

end Sys2Proof.Machine
end

section
/-! A wide field is its two halves (R176 (c), (d)): of byte lists, of reads of the buffer, and of the read commands. -/

namespace Sys2Proof.Machine

open Sys2Proof.Claims

/-! ### Fields of a message -/

theorem slice_add (bs : List Byte) (a m n : Nat) : slice bs a (m + n) = slice bs a m ++ slice bs (a + m) n := by
  simp only [slice, List.take_add, List.drop_drop]

/-- The field of `m + n` bytes is that of the first `m`, the more significant, and that of the last `n`. -/
theorem field_add {bs : List Byte} {a m n : Nat} (h : a + m + n ≤ bs.length) :
    field bs a (m + n) = 256 ^ n * field bs a m + field bs (a + m) n := by
  have hlen : (slice bs (a + m) n).length = n := by rw [slice_length]; omega
  rw [field, slice_add, beValue_append, hlen, field, field, Nat.mul_comm]

/-- A byte is its two nibbles, the one at the offset plus 4 the more significant (R62). -/
theorem toNat_eq_nibbles {o : Nat} (ho : o % 8 = 0) (b : Byte) :
    b.toNat = 16 * nibbleOf (o + 4) b + nibbleOf o b := by
  rw [nibbleOf, nibbleOf, if_pos ho, if_neg (by omega)]
  omega

theorem getNibble_eq (bs : List Byte) (o : Nat) : getNibble bs o = nibbleOf o (byteOf bs (o / 8)) := rfl

theorem field_one_eq_nibbles {bs : List Byte} {a : Nat} (h : a < bs.length) :
    field bs a 1 = 16 * getNibble bs (8 * a + 4) + getNibble bs (8 * a) := by
  rw [field_one bs a h, getNibble_eq, getNibble_eq, show (8 * a + 4) / 8 = a by omega, show 8 * a / 8 = a by omega]
  exact toNat_eq_nibbles (by omega) _

/-! ### Reads of the buffer -/

/-- A byte range is read part by part. -/
theorem readBytes_add (s : State) (n : Nat) : ∀ m a : Nat, readBytes s a (m + n) = do
    let xs ← readBytes s a m
    let ys ← readBytes s (a + m) n
    .ok (xs ++ ys)
  | 0, a => by
    simp only [Nat.zero_add, Nat.add_zero, readBytes, access_ok_bind, List.nil_append]
    cases readBytes s a n <;> rfl
  | m + 1, a => by
    rw [Nat.add_right_comm, readBytes, readBytes, readBytes_add s n m (a + 1), Nat.add_right_comm a 1 m,
      Nat.add_assoc a m 1]
    cases readByte s a with
    | error e => rfl
    | ok b =>
      cases readBytes s (a + 1) m with
      | error e => rfl
      | ok xs => cases readBytes s (a + (m + 1)) n <;> rfl

theorem memRead_eq_ok {s : State} {a n v : Nat} :
    memRead s a n = .ok v ↔ ∃ bs, readBytes s a n = .ok bs ∧ beValue bs = v := by
  simp only [memRead, access_bind_eq_ok, Except.ok.injEq]

theorem memRead_lt {s : State} {a n v : Nat} (h : memRead s a n = .ok v) : v < 256 ^ n := by
  obtain ⟨bs, hbs, rfl⟩ := memRead_eq_ok.mp h
  rw [← (readBytes_eq_ok.mp hbs).1]
  exact beValue_lt bs

/-- A wide read that succeeds is the reads of its two parts, the first the more significant. -/
theorem memRead_add {s : State} {a m n v : Nat} (h : memRead s a (m + n) = .ok v) :
    ∃ x y, memRead s a m = .ok x ∧ memRead s (a + m) n = .ok y ∧ v = 256 ^ n * x + y := by
  obtain ⟨bs, hbs, rfl⟩ := memRead_eq_ok.mp h
  rw [readBytes_add] at hbs
  obtain ⟨xs, hxs, hbs⟩ := access_bind_eq_ok.mp hbs
  obtain ⟨ys, hys, hbs⟩ := access_bind_eq_ok.mp hbs
  obtain rfl := Except.ok.inj hbs
  refine ⟨_, _, memRead_eq_ok.mpr ⟨xs, hxs, rfl⟩, memRead_eq_ok.mpr ⟨ys, hys, rfl⟩, ?_⟩
  rw [beValue_append, (readBytes_eq_ok.mp hys).1, Nat.mul_comm]

/-- A byte that is read is its two nibble reads. -/
theorem memRead_one_eq_nibbles {s : State} {o v : Nat} (ho : o % 8 = 0) (h : memRead s (o / 8) 1 = .ok v) :
    ∃ x y, nibRead s (o + 4) = .ok x ∧ nibRead s o = .ok y ∧ v = 16 * x + y := by
  obtain ⟨bs, hbs, rfl⟩ := memRead_eq_ok.mp h
  obtain ⟨b, hb, hbs⟩ := access_bind_eq_ok.mp hbs
  obtain rfl : [b] = bs := Except.ok.inj hbs
  obtain ⟨hlt, hget⟩ := readByte_eq_ok.mp hb
  have hhi : (o + 4) / 8 = o / 8 := by omega
  refine ⟨_, _, nibRead_eq_ok.mpr ⟨b, hhi ▸ hlt, hhi ▸ hget, rfl⟩, nibRead_eq_ok.mpr ⟨b, hlt, hget, rfl⟩, ?_⟩
  simpa [beValue] using toNat_eq_nibbles ho b

/-! ### The read commands -/

/-- The shape the five read commands share: `read` is what is read at the offset in ARG0, a multiple of `align`, from
`n` bytes (R165). -/
def readCommand (align n : Nat) (read : Nat → State → Access Nat) (s : State) : Result :=
  if tooWide s.arg0 32 then raise s .invalidRange
  else if decide (s.arg0.toNat % align ≠ 0) then raise s .misalignedOffset
  else if outsideMessage s (s.arg0.toNat / 8) n then raise s .dataLengthError
  else run do
    let v ← read s.arg0.toNat s
    .ok ((s.setRes0 (BitVec.ofNat 64 v)).setErr noError)

/-- What `RD8 .. RD64` read at a bit offset. -/
def readAt (n o : Nat) (s : State) : Access Nat := memRead s (o / 8) n

/-- What `RDNIB` reads at a bit offset. -/
def nibbleAt (o : Nat) (s : State) : Access Nat := nibRead s o

theorem readField_eq (n : Nat) : readField n = readCommand 8 n (readAt n) := rfl

theorem execRdnib_eq : execRdnib = readCommand 4 1 nibbleAt := rfl

theorem readsBuffer_readAt (n o : Nat) : ReadsBuffer (readAt n o) := readsBuffer_memRead (o / 8) n

theorem readsBuffer_nibbleAt (o : Nat) : ReadsBuffer (nibbleAt o) := readsBuffer_nibRead o

/-- A read command that ends without an error has passed its three tests and read its bytes. -/
theorem readCommand_completed {align n : Nat} {read : Nat → State → Access Nat} {s t : State}
    (h : readCommand align n read s = .next t) (he : t.err = noError) :
    s.arg0.toNat % align = 0 ∧ s.arg0.toNat / 8 + n ≤ s.len.toNat ∧
      ∃ v, read s.arg0.toNat s = .ok v ∧ t = (s.setRes0 (BitVec.ofNat 64 v)).setErr noError := by
  have hraise (k : ErrKind) : raise s k ≠ .next t := by
    intro hk
    obtain rfl : s.setErr k.code = t := by simpa using hk
    exact errKind_code_ne_noError k he
  unfold readCommand at h
  split at h
  next => exact absurd h (hraise _)
  next =>
  split at h
  next => exact absurd h (hraise _)
  next haligned =>
  split at h
  next => exact absurd h (hraise _)
  next hinside =>
    obtain ⟨v, hv, ht⟩ := access_bind_eq_ok.mp (run_eq_next.mp h)
    exact ⟨by simpa using haligned, by simpa [outsideMessage] using hinside, v, hv, (Except.ok.inj ht).symm⟩

/-- A read command that passes its three tests and can read its bytes completes with what it reads. -/
theorem readCommand_completes {align n v : Nat} {read : Nat → State → Access Nat} {s : State}
    (hwide : s.arg0.toNat < 2 ^ 32) (haligned : s.arg0.toNat % align = 0)
    (hinside : s.arg0.toNat / 8 + n ≤ s.len.toNat) (hv : read s.arg0.toNat s = .ok v) :
    readCommand align n read s = .next ((s.setRes0 (BitVec.ofNat 64 v)).setErr noError) := by
  have h1 : ¬tooWide s.arg0 32 = true := by simpa [tooWide] using hwide
  have h2 : ¬decide (s.arg0.toNat % align ≠ 0) = true := by simpa using haligned
  have h3 : ¬outsideMessage s (s.arg0.toNat / 8) n = true := by simpa [outsideMessage] using hinside
  rw [readCommand, if_neg h1, if_neg h2, if_neg h3, hv, access_ok_bind, run_ok]

/-- `k` bits above the offset of a wide field (`n` bytes, offsets multiples of `align`) a narrow one (within `n'` bytes,
offsets multiples of `align'`) is aligned and lies inside it. -/
def FitsAt (align n align' n' k : Nat) : Prop :=
  ∀ o, o % align = 0 → (o + k) % align' = 0 ∧ (o + k) / 8 + n' ≤ o / 8 + n

/-- Inside a message an offset needs no more than 32 bits, so ARG0 can be moved to a narrow field within it (R8). -/
theorem State.Inv.arg0_add {s : State} (h : s.Inv) {k n n' : Nat}
    (hn : (s.arg0.toNat + k) / 8 + n' ≤ s.arg0.toNat / 8 + n)
    (hlen : s.arg0.toNat / 8 + n ≤ s.len.toNat) :
    s.arg0.toNat + k < 2 ^ 32 ∧ (s.arg0 + BitVec.ofNat 64 k).toNat = s.arg0.toNat + k := by
  have hcap := h.capacity.2
  have hlegal := h.lenLegal
  have hlt : s.arg0.toNat + k < 2 ^ 32 := by omega
  refine ⟨hlt, ?_⟩
  rw [BitVec.toNat_add, BitVec.toNat_ofNat]
  omega

/-- ARG0 is not part of the buffer. -/
theorem sameBuffer_arg0 (s : State) (v : Word64) : SameBuffer s { s with arg0 := v } := ⟨rfl, rfl, rfl⟩

/-- Where a wide field is inside the message and a narrow field inside it can be read, the narrow read command
completes with what is read. -/
theorem readCommand_narrow {align n align' n' k x : Nat} {read : Nat → State → Access Nat} {s : State} (h : s.Inv)
    (hread : ∀ o, ReadsBuffer (read o)) (hfits : FitsAt align n align' n' k) (haligned : s.arg0.toNat % align = 0)
    (hinside : s.arg0.toNat / 8 + n ≤ s.len.toNat) (hx : read (s.arg0.toNat + k) s = .ok x) (hlt : x < 2 ^ 64) :
    ∃ u, readCommand align' n' read { s with arg0 := s.arg0 + BitVec.ofNat 64 k } = .next u ∧ u.err = 0 ∧
      u.res0.toNat = x := by
  obtain ⟨haligned', hin⟩ := hfits _ haligned
  obtain ⟨hwide, harg⟩ := h.arg0_add hin hinside
  have hread' : read (s.arg0.toNat + k) { s with arg0 := s.arg0 + BitVec.ofNat 64 k } = .ok x :=
    (hread _ s _ (sameBuffer_arg0 s _)).trans hx
  rw [← harg] at hwide haligned' hin hread'
  exact ⟨_, readCommand_completes hwide haligned' (hin.trans hinside) hread', rfl, by simpa using hlt⟩

/-- What a wide read gives is two narrow reads, the one `hi` bits above the offset the more significant. -/
def SplitsInto (align : Nat) (read read' : Nat → State → Access Nat) (bits hi lo : Nat) : Prop :=
  ∀ s o v, o % align = 0 → read o s = .ok v →
    ∃ x y, read' (o + hi) s = .ok x ∧ read' (o + lo) s = .ok y ∧ v = 2 ^ bits * x + y ∧ v < 2 ^ 64

/-- A read command whose read splits into two of another read command, both inside its own bytes, is two of that
command. -/
theorem readCommand_isTwoReads {c d : Instr} {align n align' n' bits hi lo : Nat}
    {read read' : Nat → State → Access Nat}
    (hc : exec c = readCommand align n read) (hd : exec d = readCommand align' n' read')
    (hread : ∀ o, ReadsBuffer (read' o)) (hhi : FitsAt align n align' n' hi) (hlo : FitsAt align n align' n' lo)
    (hsplit : SplitsInto align read read' bits hi lo) : IsTwoReads c d bits hi lo := by
  intro s t hs ht he
  rw [hc] at ht
  rw [hd]
  obtain ⟨haligned, hinside, v, hv, rfl⟩ := readCommand_completed ht he
  obtain ⟨x, y, hx, hy, hsum, hlt⟩ := hsplit s _ v haligned hv
  have hxv : x ≤ 2 ^ bits * x := Nat.le_mul_of_pos_left x (Nat.two_pow_pos bits)
  obtain ⟨u, hu, hue, hures⟩ := readCommand_narrow hs hread hhi haligned hinside hx (by omega)
  obtain ⟨w, hw, hwe, hwres⟩ := readCommand_narrow hs hread hlo haligned hinside hy (by omega)
  refine ⟨u, w, hu, hue, hw, hwe, ?_⟩
  rw [hures, hwres, ← hsum, State.setErr_res0, State.setRes0_res0, BitVec.toNat_ofNat, Nat.mod_eq_of_lt hlt]

/-- A read of `2 * n` bytes, 8 at most, is two of `n`. -/
theorem readAt_splits {n : Nat} (hn : n ≤ 4) : SplitsInto 8 (readAt (n + n)) (readAt n) (8 * n) 0 (8 * n) := by
  intro s o v ho hv
  obtain ⟨x, y, hx, hy, hsum⟩ := memRead_add hv
  have hlt : v < 2 ^ 64 := (memRead_lt hv).trans_le <| by
    rw [show 256 = 2 ^ 8 from rfl, ← pow_mul]
    exact Nat.pow_le_pow_right Nat.two_pos (by omega)
  refine ⟨x, y, hx, ?_, by rw [hsum, pow_mul]; rfl, hlt⟩
  rw [readAt, show (o + 8 * n) / 8 = o / 8 + n by omega]
  exact hy

theorem readField_isTwoReads {c d : Instr} {n : Nat} (hn : n ≤ 4) (hc : exec c = readField (n + n))
    (hd : exec d = readField n) : IsTwoReads c d (8 * n) 0 (8 * n) :=
  readCommand_isTwoReads (hc.trans (readField_eq _)) (hd.trans (readField_eq _)) (readsBuffer_readAt n)
    (fun o ho => by omega) (fun o ho => by omega) (readAt_splits hn)

/-- A byte is its two nibbles, the high one at the offset plus 4. -/
theorem readAt_one_splits : SplitsInto 8 (readAt 1) nibbleAt 4 4 0 := by
  intro s o v ho hv
  obtain ⟨x, y, hx, hy, hsum⟩ := memRead_one_eq_nibbles ho hv
  exact ⟨x, y, hx, hy, hsum, (memRead_lt hv).trans (by decide)⟩

theorem rd8_isTwoReads : IsTwoReads .rd8 .rdnib 4 4 0 :=
  readCommand_isTwoReads (readField_eq 1) execRdnib_eq readsBuffer_nibbleAt (fun o ho => by omega)
    (fun o ho => by omega) readAt_one_splits

/-- Settles O34: the four commands by the one argument on reads, the fields of a message on the byte list. -/
theorem wideFieldsAreNarrowFields : Obligations.WideFieldsAreNarrowFields :=
  ⟨⟨readField_isTwoReads (n := 1) (by decide) rfl rfl, readField_isTwoReads (n := 2) (by decide) rfl rfl,
      readField_isTwoReads (n := 4) (by decide) rfl rfl, rd8_isTwoReads⟩,
    fun bs a n h => by rw [Nat.two_mul]; exact field_add (by omega),
    fun _ _ => field_one_eq_nibbles⟩

end Sys2Proof.Machine
end

section
/-! What a command leaves as it was, read off the inversion lemma `exec_effect`: the host's registers (R41), STATUS
(R23), RES0 and RES1 (R22, R92) and the buffer (R30). -/

namespace Sys2Proof.Machine

open Sys2Proof.Claims

/-! ### Which commands an effect belongs to -/

theorem writesStatus_checkOf (p : Profile) (k : Nat) : WritesStatus (checkOf p k) :=
  .inr (.inr (.inr (.inr ⟨p, k, rfl⟩)))

theorem writesBuffer_protectOf (p : Profile) (k : Nat) : WritesBuffer (protectOf p k) :=
  .inr (.inr (.inr (.inr (.inr ⟨p, k, rfl⟩))))

theorem writesRes1_iff {i : Instr} : WritesRes1 i ↔ i ∈ validatorCommands := by
  simp [WritesRes1, validatorCommands]

theorem writesRes0_iff {i : Instr} : WritesRes0 i ↔ i ∈ resultCommands ∨ i ∈ validatorCommands := by
  simp only [WritesRes0, writesRes1_iff, resultCommands, List.mem_cons, List.not_mem_nil, or_false, or_assoc]

theorem writesStatus_of_validator {i : Instr} (h : i ∈ validatorCommands) : WritesStatus i := by
  rw [← writesRes1_iff, WritesRes1] at h
  unfold WritesStatus
  tauto

theorem writesBuffer_of_store {i : Instr} (h : i ∈ storeCommands) : WritesBuffer i := by
  simp only [storeCommands, List.mem_cons, List.not_mem_nil, or_false] at h
  unfold WritesBuffer
  tauto

/-- The commands that write STATUS have an OPC of 0x30 to 0x3F or of 0x60 to 0x6F. -/
theorem opcGroup_of_writesStatus {i : Instr} (h : WritesStatus i) : opcGroup i = 3 ∨ opcGroup i = 6 := by
  obtain rfl | rfl | rfl | rfl | ⟨p, k, rfl⟩ := h
  case inr.inr.inr.inr => exact .inr (opcGroup_checkOf p k)
  all_goals exact .inl (by decide)

theorem not_writesStatus_of_opcGroup {i : Instr} (h3 : opcGroup i ≠ 3) (h6 : opcGroup i ≠ 6) : ¬WritesStatus i :=
  fun h => (opcGroup_of_writesStatus h).elim h3 h6

/-! ### Registers -/

/-- A command that raises an error does not end with NoError. -/
theorem setErr_code_err_ne (s : State) (k : ErrKind) : (s.setErr k.code).err ≠ 0 := errKind_code_ne_noError k

/-- The buffer after a store reads as before at every other address. -/
theorem StoresOnly.get?_of_not {P : Nat → Prop} {s t : State} (h : StoresOnly P s t) {a : Nat} (ha : ¬P a) :
    t.buf.get? a = s.buf.get? a := by
  obtain ⟨m, rfl, hm, -⟩ := h
  exact hm a ha

/-- Settles O15: no effect of a command names a register of the host. -/
theorem commandsKeepHostRegisters : Obligations.CommandsKeepHostRegisters := by
  intro i s t h
  cases exec_effect h with
  | error i k hc => simp
  | result i v hi => simp
  | store i u hi hu =>
    obtain ⟨m, rfl, -⟩ := hu
    simp
  | validate i st v hi => simp
  | construct p k x hk hx ho htx hrx => simp
  | protect p k x u hk hx hl hu =>
    obtain ⟨m, rfl, -⟩ := hu
    simp
  | finding p k x st hk hx hst => simp
  | counted p k x r hk hx hl => simp

/-- STATUS after a command: written by a check or a validator command that completes, with a code of R120, or else
kept. -/
theorem Effect.status_cases {s t : State} {i : Instr} (he : Effect s i t) :
    ((¬WritesStatus i ∨ t.err ≠ 0) ∧ t.status = s.status) ∨
    (WritesStatus i ∧ t.err = 0 ∧ ∃ st : Status, t.status = st.code) := by
  cases he with
  | error i k hc => exact .inl ⟨.inr (setErr_code_err_ne s k), rfl⟩
  | result i v hi =>
    have := opcGroup_of_result hi
    exact .inl ⟨.inl (not_writesStatus_of_opcGroup (by omega) (by omega)), rfl⟩
  | store i u hi hu =>
    have := opcGroup_of_store hi
    obtain ⟨m, rfl, -⟩ := hu
    exact .inl ⟨.inl (not_writesStatus_of_opcGroup (by omega) (by omega)), rfl⟩
  | validate i st v hi => exact .inr ⟨writesStatus_of_validator hi, rfl, st, rfl⟩
  | construct p k x hk hx ho htx hrx => exact .inl ⟨.inl (not_writesStatus_of_opcGroup (by simp) (by simp)), rfl⟩
  | protect p k x u hk hx hl hu =>
    obtain ⟨m, rfl, -⟩ := hu
    exact .inl ⟨.inl (not_writesStatus_of_opcGroup (by simp) (by simp)), rfl⟩
  | finding p k x st hk hx hst => exact .inr ⟨writesStatus_checkOf p k, rfl, st, rfl⟩
  | counted p k x r hk hx hl => exact .inr ⟨writesStatus_checkOf p k, rfl, _, rfl⟩

/-- Settles O16: the two cases of `Effect.status_cases` exclude each other. -/
theorem statusWrittenByChecksAndValidator : Obligations.StatusWrittenByChecksAndValidator := by
  intro i s t h
  rcases (exec_effect h).status_cases with ⟨hno, hkept⟩ | ⟨hi, he, st, hst⟩
  · exact ⟨fun _ => hkept, fun hi he => absurd hno (by tauto)⟩
  · exact ⟨fun hno => absurd hno (by tauto), fun _ _ => ⟨st, hst⟩⟩

/-- RES0 and RES1 after a command: kept, or written by a command that has that result and completes. -/
theorem Effect.result_cases {s t : State} {i : Instr} (he : Effect s i t) :
    (t.res0 = s.res0 ∨ (WritesRes0 i ∧ t.err = 0)) ∧ (t.res1 = s.res1 ∨ (WritesRes1 i ∧ t.err = 0)) := by
  cases he with
  | error i k hc => simp
  | result i v hi => exact ⟨.inr ⟨writesRes0_iff.mpr (.inl hi), rfl⟩, .inl rfl⟩
  | store i u hi hu =>
    obtain ⟨m, rfl, -⟩ := hu
    simp
  | validate i st v hi => exact ⟨.inr ⟨writesRes0_iff.mpr (.inr hi), rfl⟩, .inr ⟨writesRes1_iff.mpr hi, rfl⟩⟩
  | construct p k x hk hx ho htx hrx => simp
  | protect p k x u hk hx hl hu =>
    obtain ⟨m, rfl, -⟩ := hu
    simp
  | finding p k x st hk hx hst => simp
  | counted p k x r hk hx hl => simp

/-- Settles O17, by `Effect.result_cases`. -/
theorem resultRegistersFrame : Obligations.ResultRegistersFrame := by
  intro i s t h
  obtain ⟨h0, h1⟩ := (exec_effect h).result_cases
  exact ⟨fun hno => h0.resolve_right (by tauto), fun hno => h1.resolve_right (by tauto)⟩

/-! ### The buffer -/

/-- Where the length test holds, every field of a validated configuration lies inside the message (R218, R219). -/
theorem inFields_lt_len {x : Slot} {len a : Nat} (hok : x.Ok) (hl : LenOk x len) (ha : InFields x a) : a < len := by
  cases x with
  | none => exact absurd hl id
  | p4 x | p4m x | p6 x | p7 x | p7m x | p8 x =>
    have := hok.inside
    simp only [headerBytes, LenOk, InFields] at *
    omega
  | p5 x | p22 x =>
    have := hok.inside
    simp only [headerBytes, LenOk, InFields] at *
    omega
  | p11 x =>
    have hcrc := hok.crcInside
    have hcounter := hok.counterInside
    simp only [LenOk] at hl
    rcases ha with rfl | rfl | ⟨o, ho, rfl⟩
    · omega
    · omega
    · have := hok.nibbleOk o ho
      omega

/-- The buffer after a command: the very same, or with stores of a command that writes it, inside the message where
the slots hold validated configurations. -/
theorem Effect.buf_cases {s t : State} {i : Instr} (he : Effect s i t) :
    t.buf = s.buf ∨ (WritesBuffer i ∧ (s.Inv → ∀ a, s.len.toNat ≤ a → t.buf.get? a = s.buf.get? a)) := by
  cases he with
  | store i u hi hu => exact .inr ⟨writesBuffer_of_store hi, fun _ a ha => hu.get?_of_not (by omega)⟩
  | protect p k x u hk hx hl hu =>
    refine .inr ⟨writesBuffer_protectOf p k, fun hs a ha => hu.get?_of_not fun hf => ?_⟩
    have := inFields_lt_len (hs.slot_ok hk) hl hf
    omega
  | _ => exact .inl rfl

/-- Settles O20, by `Effect.buf_cases`. -/
theorem bufferFrame : Obligations.BufferFrame := by
  refine ⟨fun i s t h hno => ?_, fun i s t a hs h ha => ?_⟩
  · exact (exec_effect h).buf_cases.resolve_right fun ⟨hw, _⟩ => hno hw
  · rcases (exec_effect h).buf_cases with hbuf | ⟨-, hframe⟩
    · rw [hbuf]
    · exact hframe hs a ha

end Sys2Proof.Machine
end

section
/-! What a command does not look at: ERR and STATUS (R23, R24, R405), and every slot but its own (R32, R423). Both
follow from `exec_uniform`: alike states are answered with one update, and the updates are few. -/

namespace Sys2Proof.Machine

open Sys2Proof.Claims

/-! ### Alike states -/

theorem alike_setErr (k : Option Nat) (s : State) (e : BitVec 8) : Alike k s (s.setErr e) :=
  ⟨⟨rfl, rfl, rfl⟩, rfl, rfl, rfl, rfl, rfl, fun _ _ => rfl⟩

theorem alike_setStatus (k : Option Nat) (s : State) (v : BitVec 3) : Alike k s (s.setStatus v) :=
  ⟨⟨rfl, rfl, rfl⟩, rfl, rfl, rfl, rfl, rfl, fun _ _ => rfl⟩

/-- Another content of a slot that is not the command's own. -/
theorem alike_setSlot {k : Option Nat} {j : Nat} (h : k ≠ some j) (s : State) (x : Slot) : Alike k s (s.setSlot j x) :=
  ⟨⟨rfl, rfl, rfl⟩, rfl, rfl, rfl, rfl, rfl, fun l hl => by
    have hne : j ≠ l := fun hjl => h (hjl ▸ hl)
    simp [List.getElem?_set_ne hne]⟩

/-! ### What an update makes of another ERR, another STATUS and another slot -/

/-- Every update sets ERR. -/
theorem Update.setErr {k : Option Nat} {U : State → State} (h : Update k U) (s : State) (e : BitVec 8) :
    U (s.setErr e) = U s := by
  cases h <;> rfl

/-- An update keeps STATUS, or writes it whatever it was. -/
theorem Update.setStatus_cases {k : Option Nat} {U : State → State} (h : Update k U) :
    (∀ s v, U (s.setStatus v) = (U s).setStatus v) ∨ ∀ s v, U (s.setStatus v) = U s := by
  cases h with
  | error | result | store | construct | protect => exact .inl fun _ _ => rfl
  | validate | finding | counted => exact .inr fun _ _ => rfl

/-- An update leaves a slot that is not the command's own. -/
theorem Update.other_slot {k : Option Nat} {U : State → State} (h : Update k U) {j : Nat} (hj : k ≠ some j)
    (s : State) : (U s).slots[j]? = s.slots[j]? ∧ ∀ x, U (s.setSlot j x) = (U s).setSlot j x := by
  cases h with
  | error | result | store | validate | finding => exact ⟨rfl, fun _ => rfl⟩
  | construct i y hk | protect i m y hk | counted i st y hk =>
    have hne : i ≠ j := fun hij => hj (hij ▸ hk)
    exact ⟨by simp [List.getElem?_set_ne hne], fun x => by
      simp only [State.setSlot, State.setBuf, State.setStatus, State.setErr, List.set_comm _ _ hne]⟩

/-! ### The two statements -/

/-- Settles O19: the update of a command concerns no slot but its own. -/
theorem otherSlotsUntouchedAndUnread : Obligations.OtherSlotsUntouchedAndUnread := by
  intro i s t j h hj
  obtain ⟨U, hU, rfl, hcong⟩ := exec_uniform i s t h
  obtain ⟨hsame, hcomm⟩ := hU.other_slot hj s
  exact ⟨hsame, fun x => by rw [hcong _ (alike_setSlot hj s x), hcomm]⟩

theorem setStatus_status_self (s : State) : s.setStatus s.status = s := rfl

/-- A check or a validator command that completes writes STATUS: kept, the code 7 would stay, which is no status. -/
theorem setStatus_of_writes {i : Instr} {s t : State} (h : exec i s = .next t) (hw : WritesStatus i) (he : t.err = 0)
    (v : BitVec 3) : exec i (s.setStatus v) = .next t := by
  obtain ⟨U, hU, rfl, hcong⟩ := exec_uniform i s t h
  rcases hU.setStatus_cases with hkeeps | hwrites
  · have h7 := hcong _ (alike_setStatus _ s 7)
    rw [hkeeps] at h7
    obtain ⟨st, hst⟩ := (statusWrittenByChecksAndValidator i _ _ h7).2 hw he
    exact absurd hst.symm (status_code_ne_seven st)
  · rw [hcong _ (alike_setStatus _ s v), hwrites]

/-- Every other command, and one that ends with an error, keeps the STATUS it finds. -/
theorem setStatus_of_keeps {i : Instr} {s t : State} (h : exec i s = .next t) (hno : ¬WritesStatus i ∨ t.err ≠ 0)
    (v : BitVec 3) : exec i (s.setStatus v) = .next (t.setStatus v) := by
  obtain ⟨U, hU, rfl, hcong⟩ := exec_uniform i s t h
  have hv := hcong _ (alike_setStatus _ s v)
  rcases hU.setStatus_cases with hkeeps | hwrites
  · rw [hv, hkeeps]
  · rw [hwrites] at hv
    have hst : (U s).status = v := (statusWrittenByChecksAndValidator i _ _ hv).1 hno
    rw [hv, ← hst, setStatus_status_self]

/-- Settles O18, by `Update.setErr`, `setStatus_of_writes` and `setStatus_of_keeps`. -/
theorem errAndStatusReadByNoCommand : Obligations.ErrAndStatusReadByNoCommand := by
  intro i s t h
  refine ⟨fun e => ?_, fun v => ⟨fun hw he => setStatus_of_writes h hw he v, fun hno => setStatus_of_keeps h hno v⟩⟩
  obtain ⟨U, hU, rfl, hcong⟩ := exec_uniform i s t h
  rw [hcong _ (alike_setErr _ s e), hU.setErr]

end Sys2Proof.Machine
end

section
/-! The framer commands by profile: what each construct tests and makes, the same for all nine profiles, and that
none of its tests is violated where none of the four groups of R212 is. -/

namespace Sys2Proof.Machine

open Sys2Proof.Claims

/-! ### Construct -/

/-- The tests of `CONSTRUCT.<p>`, in order (R212). -/
def testsOf : Profile → Staging → List (Bool × ErrKind)
  | .p4 => testsP4
  | .p4m => testsP4M
  | .p5 => testsP5
  | .p6 => testsP6
  | .p7 => testsP7
  | .p7m => testsP7M
  | .p8 => testsP8
  | .p11 => testsP11
  | .p22 => testsP22

theorem exec_constructOf (p : Profile) (k : Nat) (s : State) :
    exec (constructOf p k) s = withSlot s k fun _ => construct s k (testsOf p s.staging) (freshSlot p s.staging) := by
  cases p <;> rfl

/-! ### The tests of construct, as propositions -/

@[simp] theorem offsetMisaligned_eq_false {o : Nat} : offsetMisaligned o = false ↔ o % 8 = 0 := by
  simp [offsetMisaligned]

@[simp] theorem nibbleOffsetMisaligned_eq_false {o : Nat} : nibbleOffsetMisaligned o = false ↔ o % 4 = 0 := by
  simp [nibbleOffsetMisaligned]

@[simp] theorem dataIdTooWide_eq_false {id : Word32} : dataIdTooWide id = false ↔ id.toNat < 65536 := by
  simp [dataIdTooWide]

@[simp] theorem lengthsBad_eq_false {mn mx : Nat} :
    lengthsBad mn mx = false ↔ mn % 8 = 0 ∧ mx % 8 = 0 ∧ mn ≤ mx := by
  simp [lengthsBad]

@[simp] theorem maxLenTooLarge_eq_false {mx : Nat} : maxLenTooLarge mx = false ↔ mx ≤ 524280 := by
  rw [maxLenTooLarge, maxLen16, decide_eq_false_iff_not, not_lt]

@[simp] theorem dataLenBad_eq_false {dl : Nat} : dataLenBad dl = false ↔ dl % 8 = 0 := by
  simp [dataLenBad]

@[simp] theorem fieldOutside_eq_false {o bits dl : Nat} : fieldOutside o bits dl = false ↔ o + bits ≤ dl := by
  simp [fieldOutside]

@[simp] theorem deltaBad_eq_false {p : Profile} {d : Nat} : deltaBad p d = false ↔ 1 ≤ d ∧ d ≤ largestDelta p := by
  have hmax : deltaMax p = largestDelta p := by cases p <;> rfl
  rw [deltaBad, deltaMin, hmax, decide_eq_false_iff_not, not_or, not_lt, not_lt]

theorem overlap_iff {a n b m : Nat} (hn : 0 < n) (hm : 0 < m) : Overlap a n b m ↔ a < b + m ∧ b < a + n := by
  constructor
  · rintro ⟨x, h1, h2, h3, h4⟩
    omega
  · intro h
    exact ⟨max a b, by omega, by omega, by omega, by omega⟩

/-- A byte and a nibble overlap where they are in one byte (R215). -/
theorem overlap_byte_nibble {o n : Nat} (ho : o % 8 = 0) (hn : n % 4 = 0) : Overlap o 8 n 4 ↔ n / 8 = o / 8 := by
  rw [overlap_iff (by decide) (by decide)]
  omega

/-- Two nibbles overlap where they are one (R215). -/
theorem overlap_nibbles {m n : Nat} (hm : m % 4 = 0) (hn : n % 4 = 0) : Overlap m 4 n 4 ↔ n = m := by
  rw [overlap_iff (by decide) (by decide)]
  omega

/-- A construct of a profile with a header passes each of its tests where no group is violated (R213, R214, R216). -/
theorem tests_hold_of_header {p : Profile} (hp : p ≠ .p11) {g : Staging} (ha : ¬BadAlignment p g) (hr : ¬BadRange p g)
    (hd : ¬BadDelta p g) : ∀ x ∈ testsOf p g, x.1 = false := by
  simp only [BadDelta, not_or, not_lt] at hd
  cases p with
  | p11 => exact absurd rfl hp
  | p4 | p4m | p5 | p6 | p7 | p7m | p8 | p22 =>
    simp only [BadAlignment, BadRange, FixedLength, dataBits, headerBits, reduceCtorEq, if_false, false_and, true_and,
      or_false, false_or, or_self, or_true, not_true, not_false_eq_true, not_or, not_lt, not_not] at ha hr
    simp only [testsOf, testsP4, testsP4M, testsP5, testsP6, testsP7, testsP7M, testsP8, testsP22, headerBytes,
      List.forall_mem_cons, List.not_mem_nil, false_implies, implies_true, and_true, offsetMisaligned_eq_false,
      dataIdTooWide_eq_false, lengthsBad_eq_false, maxLenTooLarge_eq_false, dataLenBad_eq_false, fieldOutside_eq_false,
      deltaBad_eq_false]
    omega

/-- `CONSTRUCT.P11` passes each of its tests where no group is violated (R213 to R216). -/
theorem tests_hold_p11 {g : Staging} (ha : ¬BadAlignment .p11 g) (hr : ¬BadRange .p11 g) (ho : ¬BadOverlap .p11 g)
    (hd : ¬BadDelta .p11 g) : ∀ x ∈ testsP11 g, x.1 = false := by
  simp only [BadDelta, not_or, not_lt] at hd
  simp only [BadAlignment, if_true, not_or, not_not, not_and] at ha
  obtain ⟨hcrc, hcounter, hnibble⟩ := ha
  simp only [BadOverlap, true_and, overlap_byte_nibble hcrc hcounter] at ho
  simp only [BadRange, FixedLength, dataBits, reduceCtorEq, if_true, false_and, true_and, or_true, true_or, not_true,
    false_or, not_or, not_and, not_lt, not_not] at hr
  simp only [testsP11, List.forall_mem_cons, List.not_mem_nil, false_implies, implies_true, and_true,
    Bool.or_eq_false_iff, Bool.and_eq_false_iff, decide_eq_false_iff_not, not_lt, offsetMisaligned_eq_false,
    nibbleOffsetMisaligned_eq_false, dataIdTooWide_eq_false, dataLenBad_eq_false, fieldOutside_eq_false,
    deltaBad_eq_false]
  simp only [maxDataLenP11]
  by_cases hm : g.mode = 1
  · have hn := hnibble hm
    simp only [hm, true_and, true_implies, not_true, false_or, overlap_byte_nibble hcrc hn,
      overlap_nibbles hcounter hn] at ho hr ⊢
    omega
  · simp only [hm, false_and, or_false, false_implies, not_false_eq_true, true_or, true_and, and_true] at ho hr ⊢
    omega

/-- The slot becomes the fresh one where no test of the construct is violated (R217). -/
theorem construct_completes {s : State} {k : Nat} (hk : k < s.slots.length) {tests : List (Bool × ErrKind)}
    {fresh : Slot} (h : firstViolated tests = none) :
    (withSlot s k fun _ => construct s k tests fresh) = .next ((s.setSlot k fresh).setErr noError) := by
  rw [withSlot_of_some _ (List.getElem?_eq_getElem hk), construct, h, complete_eq]

/-- Settles O38: no group violated means no test violated, so the fresh slot is made. -/
theorem constructCompletes : Obligations.ConstructCompletes := by
  intro p k s hk ha hr ho hd
  rw [exec_constructOf]
  refine construct_completes hk (firstViolated_eq_none.mpr ?_)
  by_cases hp : p = .p11
  · subst hp
    exact tests_hold_p11 ha hr ho hd
  · exact tests_hold_of_header hp ha hr hd

end Sys2Proof.Machine
end

section
/-! The frame each `PROTECT.<p>` and `CHECK.<p>` works with, and the one place where their dispatch on the slot is
opened: a slot of the command's own profile gives the frame, and every other content of the slot an error. -/

namespace Sys2Proof.Machine

/-- `fr` is the frame of profile `p` for the data `x`, which `put` makes a slot (R110 to R118). -/
inductive FrameOf : Profile → {C : Type} → {w : Nat} → Frame w → (Inst C w → Slot) → Inst C w → Prop
  | p4 (x : Inst (VarCfg 32) 16) : FrameOf .p4 (frameP4 x.cfg) .p4 x
  | p4m (x : Inst MetaCfg 16) : FrameOf .p4m (frameP4M x.cfg) .p4m x
  | p5 (x : Inst FixCfg 8) : FrameOf .p5 (frameP5 x.cfg) .p5 x
  | p6 (x : Inst (VarCfg 16) 8) : FrameOf .p6 (frameP6 x.cfg) .p6 x
  | p7 (x : Inst (VarCfg 32) 32) : FrameOf .p7 (frameP7 x.cfg) .p7 x
  | p7m (x : Inst MetaCfg 32) : FrameOf .p7m (frameP7M x.cfg) .p7m x
  | p8 (x : Inst (VarCfg 32) 32) : FrameOf .p8 (frameP8 x.cfg) .p8 x
  | p11 (x : Inst P11Cfg 4) : FrameOf .p11 (frameP11 x.cfg) .p11 x
  | p22 (x : Inst P22Cfg 4) : FrameOf .p22 (frameP22 x.cfg) .p22 x

/-- A slot of profile `p` has its frame. -/
theorem exists_frameOf {p : Profile} {x : Slot} (h : x.kind = some p) :
    ∃ (C : Type) (w : Nat) (fr : Frame w) (put : Inst C w → Slot) (y : Inst C w), FrameOf p fr put y ∧ x = put y := by
  cases x with
  | none => cases h
  | p4 y => cases h; exact ⟨_, _, _, _, _, .p4 y, rfl⟩
  | p4m y => cases h; exact ⟨_, _, _, _, _, .p4m y, rfl⟩
  | p5 y => cases h; exact ⟨_, _, _, _, _, .p5 y, rfl⟩
  | p6 y => cases h; exact ⟨_, _, _, _, _, .p6 y, rfl⟩
  | p7 y => cases h; exact ⟨_, _, _, _, _, .p7 y, rfl⟩
  | p7m y => cases h; exact ⟨_, _, _, _, _, .p7m y, rfl⟩
  | p8 y => cases h; exact ⟨_, _, _, _, _, .p8 y, rfl⟩
  | p11 y => cases h; exact ⟨_, _, _, _, _, .p11 y, rfl⟩
  | p22 y => cases h; exact ⟨_, _, _, _, _, .p22 y, rfl⟩

/-- `r` is the answer of a command of profile `p` on slot `k` of `s`: `act` with the frame of a slot of the profile,
NotConstructed on any other slot, IllegalCommand where there is no such slot (R95, R220). -/
def FramerAnswers (p : Profile) (k : Nat) (s : State) (r : Result)
    (act : ∀ {C : Type} {w : Nat}, Frame w → (Inst C w → Slot) → Inst C w → Result) : Prop :=
  ∃ F : Slot → Result, r = withSlot s k F ∧
    (∀ {C w} {fr : Frame w} {put : Inst C w → Slot} {x}, FrameOf p fr put x → F (put x) = act fr put x) ∧
    ∀ x : Slot, x.kind ≠ some p → F x = raise s .notConstructed

theorem exec_protectOf (p : Profile) (k : Nat) (s : State) :
    FramerAnswers p k s (exec (protectOf p k) s) fun fr put x => protect fr put x k s := by
  cases p <;> refine ⟨_, rfl, fun hfr => by cases hfr; rfl, fun x hx => ?_⟩
  all_goals
    split
    · exact absurd rfl hx
    · rfl

theorem exec_checkOf (p : Profile) (k : Nat) (s : State) :
    FramerAnswers p k s (exec (checkOf p k) s) fun fr put x => check fr put x k s := by
  cases p <;> refine ⟨_, rfl, fun hfr => by cases hfr; rfl, fun x hx => ?_⟩
  all_goals
    split
    · exact absurd rfl hx
    · rfl

section Frames

variable {p : Profile} {C : Type} {w : Nat} {fr : Frame w} {put : Inst C w → Slot} {x : Inst C w} {k : Nat} {s : State}

theorem FramerAnswers.of_frame {r : Result}
    {act : ∀ {C : Type} {w : Nat}, Frame w → (Inst C w → Slot) → Inst C w → Result} (h : FramerAnswers p k s r act)
    (hfr : FrameOf p fr put x) (hk : s.slots[k]? = some (put x)) : r = act fr put x := by
  obtain ⟨F, rfl, hact, -⟩ := h
  rw [withSlot_of_some F hk, hact hfr]

theorem FramerAnswers.of_other {y : Slot} {r : Result}
    {act : ∀ {C : Type} {w : Nat}, Frame w → (Inst C w → Slot) → Inst C w → Result} (h : FramerAnswers p k s r act)
    (hk : s.slots[k]? = some y) (hy : y.kind ≠ some p) : r = raise s .notConstructed := by
  obtain ⟨F, rfl, -, hraises⟩ := h
  rw [withSlot_of_some F hk, hraises y hy]

theorem FrameOf.lenOk_iff (hfr : FrameOf p fr put x) {len : Nat} : fr.lenOk len = true ↔ LenOk (put x) len := by
  cases hfr with
  | p4 | p4m | p6 | p7 | p7m | p8 => exact lenOkRange_iff
  | p5 | p11 | p22 => exact lenOkFixed_iff

/-- The frame of a validated configuration works inside a message of a legal length (R218, R219). -/
theorem FrameOf.local (hfr : FrameOf p fr put x) {len : Word32} (hok : (put x).Ok) (hl : fr.lenOk len.toNat = true) :
    fr.Local len.toNat len := by
  cases hfr with
  | p4 => exact local_p4 hok hl
  | p4m => exact local_p4m hok hl
  | p5 => exact local_p5 hok hl
  | p6 => exact local_p6 hok hl
  | p7 => exact local_p7 hok hl
  | p7m => exact local_p7m hok hl
  | p8 => exact local_p8 hok hl
  | p11 => exact local_p11 hok hl
  | p22 => exact local_p22 hok hl

end Frames

end Sys2Proof.Machine
end

section
/-! Where a command looks (R30, R43, R219, R422): in a state that meets the invariant it reads and writes bytes of the
message only, and it stops only on one that holds no value. Both are one relation between the answers to a state and to
the same state with other bytes at and above LEN. -/

namespace Sys2Proof.Machine

/-- `m` has the bytes of the message of `s`. -/
def SameMessage (s : State) (m : Memory) : Prop := ∀ a, a < s.len.toNat → m.get? a = s.buf.get? a

/-- The answers `r` of a command to `s` and `r'` to `s` with the buffer `m`: the command is refused for a byte of the
message without a value, or both answer alike, with the same bytes below LEN and each its own at and above. -/
def Agree (s : State) (m : Memory) (r r' : Result) : Prop :=
  (∃ a, r = .refused (.byteWithoutValue a) ∧ a < s.len.toNat ∧ s.buf.get? a = none) ∨
  ∃ t t', r = .next t ∧ r' = .next t' ∧ t'.setBuf t.buf = t ∧
    ∀ a, t'.buf.get? a = if a < s.len.toNat then t.buf.get? a else m.get? a

theorem State.Inv.agreeBelow {s : State} (h : s.Inv) {m : Memory} (hm : SameMessage s m) :
    AgreeBelow s.len.toNat s (s.setBuf m) := ⟨rfl, rfl, h.lenLegal, hm⟩

section

variable {s : State} {m : Memory}

/-- An update that leaves the buffer. -/
theorem agree_next (hm : SameMessage s m) {t : State} (ht : t.buf = s.buf) :
    Agree s m (.next t) (.next (t.setBuf m)) := by
  refine .inr ⟨t, t.setBuf m, rfl, rfl, rfl, fun a => ?_⟩
  rw [State.setBuf_buf, ht]
  split
  next ha => exact hm a ha
  next => rfl

theorem agree_raise (hm : SameMessage s m) (e : ErrKind) : Agree s m (raise s e) (raise (s.setBuf m) e) :=
  agree_next hm rfl

theorem agree_ite {c : Prop} [Decidable c] {f g f' g' : Result} (hf : c → Agree s m f f') (hg : ¬c → Agree s m g g') :
    Agree s m (if c then f else g) (if c then f' else g') := by
  by_cases hc : c
  · simpa only [if_pos hc] using hf hc
  · simpa only [if_neg hc] using hg hc

/-- An access that stops on a byte of the message without a value. -/
theorem agree_missing {e : Stop} (h : MissingBelow s.len.toNat s e) (r' : Result) : Agree s m (run (.error e)) r' := by
  obtain ⟨a, rfl, ha, hnone⟩ := h
  exact .inl ⟨a, rfl, ha, hnone⟩

/-- A read inside the message, and then whatever is done with the value read. -/
theorem agree_read {α : Type} {f : State → Access α} (hf : ReadsBelow s.len.toNat s.len f)
    (hb : AgreeBelow s.len.toNat s (s.setBuf m)) {g g' : α → Access State}
    (hg : ∀ v, Agree s m (run (g v)) (run (g' v))) : Agree s m (run (f s >>= g)) (run (f (s.setBuf m) >>= g')) := by
  obtain ⟨hsame, hstop⟩ := hf s _ rfl hb
  rw [hsame]
  cases hv : f s with
  | error e => exact agree_missing (hstop e hv) _
  | ok v => exact hg v

/-- Stores inside the message, and then an update that leaves the buffer. -/
theorem agree_store {f : State → Access State} (hf : StoresBelow s.len.toNat s.len f)
    (hb : AgreeBelow s.len.toNat s (s.setBuf m)) {U : State → State} (hU : ∀ u n, U (u.setBuf n) = (U u).setBuf n) :
    Agree s m (run (f s >>= fun u => .ok (U u))) (run (f (s.setBuf m) >>= fun u => .ok (U u))) := by
  rcases hf s _ rfl hb with ⟨e, hs, -, hmissing⟩ | ⟨n, n', hs, hs', hbelow, habove, -⟩
  · rw [hs]
    exact agree_missing hmissing _
  · rw [hs, hs']
    refine .inr ⟨_, _, rfl, rfl, ?_, fun a => ?_⟩
    · rw [State.setBuf_setBuf, hU, hU, State.setBuf_setBuf, State.setBuf_buf]
    · rw [State.setBuf_setBuf, hU, hU, State.setBuf_buf, State.setBuf_buf]
      split
      next ha => exact hbelow a ha
      next ha => exact (habove a (by omega)).2

end

/-! ### The templates of the format N commands -/

section

variable {s : State} {m : Memory}

theorem agree_crcCommand (h : s.Inv) (hm : SameMessage s m) {w : Nat} (e : Engine w) :
    Agree s m (crcCommand e s) (crcCommand e (s.setBuf m)) := by
  refine agree_ite (fun _ => agree_raise hm _) fun _ => agree_ite (fun _ => agree_raise hm _) fun hin => ?_
  have hin : s.arg0.toNat + s.arg1.toNat ≤ s.len.toNat := by simpa [outsideMessage] using hin
  exact agree_read (readsBelow_readBytes (.inl hin)) (h.agreeBelow hm) fun bs => agree_next hm rfl

theorem agree_readCommand (h : s.Inv) (hm : SameMessage s m) {align n : Nat} {read : Nat → State → Access Nat}
    (hread : s.arg0.toNat / 8 + n ≤ s.len.toNat → ReadsBelow s.len.toNat s.len (read s.arg0.toNat)) :
    Agree s m (readCommand align n read s) (readCommand align n read (s.setBuf m)) := by
  refine agree_ite (fun _ => agree_raise hm _) fun _ => agree_ite (fun _ => agree_raise hm _) fun _ =>
    agree_ite (fun _ => agree_raise hm _) fun hin => ?_
  exact agree_read (hread (by simpa [outsideMessage] using hin)) (h.agreeBelow hm) fun v => agree_next hm rfl

theorem agree_writeField (h : s.Inv) (hm : SameMessage s m) (n : Nat) :
    Agree s m (writeField n s) (writeField n (s.setBuf m)) := by
  refine agree_ite (fun _ => agree_raise hm _) fun _ => agree_ite (fun _ => agree_raise hm _) fun _ =>
    agree_ite (fun _ => agree_raise hm _) fun hin => ?_
  have hin : s.arg0.toNat / 8 + n ≤ s.len.toNat := by simpa [outsideMessage] using hin
  exact agree_store (storesBelow_memWrite hin) (h.agreeBelow hm) (U := (State.setErr · noError)) fun _ _ => rfl

theorem agree_execWrnib (h : s.Inv) (hm : SameMessage s m) : Agree s m (execWrnib s) (execWrnib (s.setBuf m)) := by
  refine agree_ite (fun _ => agree_raise hm _) fun _ => agree_ite (fun _ => agree_raise hm _) fun _ =>
    agree_ite (fun _ => agree_raise hm _) fun hin => ?_
  have hin : s.arg0.toNat / 8 + 1 ≤ s.len.toNat := by simpa [outsideMessage] using hin
  exact agree_store (storesBelow_nibWrite hin) (h.agreeBelow hm) (U := (State.setErr · noError)) fun _ _ => rfl

theorem agree_cvalCommand (hm : SameMessage s m) (w : Nat) :
    Agree s m (cvalCommand w s) (cvalCommand w (s.setBuf m)) :=
  agree_ite (fun _ => agree_raise hm _) fun _ => agree_ite (fun _ => agree_raise hm _) fun _ => agree_next hm rfl

/-! ### The framer commands -/

theorem agree_construct (hm : SameMessage s m) (k : Nat) (tests : List (Bool × ErrKind)) (fresh : Slot) :
    Agree s m (construct s k tests fresh) (construct (s.setBuf m) k tests fresh) := by
  unfold construct
  split
  · exact agree_raise hm _
  · exact agree_next hm rfl

theorem agree_withSlot (hm : SameMessage s m) {k : Nat} {F F' : Slot → Result}
    (hF : ∀ x, s.slots[k]? = some x → Agree s m (F x) (F' x)) :
    Agree s m (withSlot s k F) (withSlot (s.setBuf m) k F') := by
  unfold withSlot
  rw [State.setBuf_slots]
  split
  next x hx => exact hF x hx
  next => exact agree_raise hm _

theorem agree_constructOf (hm : SameMessage s m) (p : Profile) (k : Nat) :
    Agree s m (exec (constructOf p k) s) (exec (constructOf p k) (s.setBuf m)) := by
  rw [exec_constructOf, exec_constructOf]
  exact agree_withSlot hm fun _ _ => agree_construct hm k _ _

/-- The stores of a protect are its stamp, the CRC over the stamped message and the CRC field, in one go. -/
theorem protect_eq {C : Type} {w : Nat} (fr : Frame w) (put : Inst C w → Slot) (x : Inst C w) (k : Nat) (s : State) :
    protect fr put x k s =
      if fr.lenOk s.len.toNat then
        run ((fr.stamp x.tx s >>= fun u => fr.crc u >>= fun v => memWrite u fr.crcAt fr.crcBytes v) >>= fun u =>
          .ok ((u.setSlot k (put { x with tx := x.tx + 1 })).setErr noError))
      else raise s .dataLengthError := by
  simp only [protect, bind_assoc]

theorem agree_protect (h : s.Inv) (hm : SameMessage s m) {C : Type} {w : Nat} {fr : Frame w}
    (hfr : fr.lenOk s.len.toNat = true → fr.Local s.len.toNat s.len) (put : Inst C w → Slot) (x : Inst C w) (k : Nat) :
    Agree s m (protect fr put x k s) (protect fr put x k (s.setBuf m)) := by
  rw [protect_eq, protect_eq]
  refine agree_ite (fun hl => ?_) fun _ => agree_raise hm _
  have hlocal := hfr hl
  exact agree_store ((hlocal.stamp x.tx).bind (hlocal.crc.bindStore fun v => storesBelow_memWrite hlocal.crcField))
    (h.agreeBelow hm) (U := fun u => (u.setSlot k (put { x with tx := x.tx + 1 })).setErr noError) fun _ _ => rfl

/-- A check reads its fields one after the other and ends at the first finding (R231). -/
theorem agree_check (h : s.Inv) (hm : SameMessage s m) {C : Type} {w : Nat} {fr : Frame w}
    (hfr : fr.lenOk s.len.toNat = true → fr.Local s.len.toNat s.len) (put : Inst C w → Slot) (x : Inst C w) (k : Nat) :
    Agree s m (check fr put x k s) (check fr put x k (s.setBuf m)) := by
  have hb := h.agreeBelow hm
  refine agree_ite (fun hl => ?_) fun _ => agree_next hm rfl
  have hlocal := hfr hl
  refine agree_read hlocal.lengthAgrees hb fun lengthOk => ?_
  cases lengthOk with
  | false => exact agree_next hm rfl
  | true =>
    refine agree_read (readsBelow_memRead hlocal.crcField) hb fun stored => agree_read hlocal.crc hb fun computed => ?_
    by_cases hcrc : stored = computed
    · rw [if_pos hcrc, if_pos hcrc]
      refine agree_read hlocal.idAgrees hb fun idOk => ?_
      cases idOk with
      | false => exact agree_next hm rfl
      | true => exact agree_read hlocal.counter hb fun r => agree_next hm rfl
    · rw [if_neg hcrc, if_neg hcrc]
      exact agree_next hm rfl

/-- Two actions that agree on every frame that works inside the message make framer commands that agree. -/
theorem agree_framer (h : s.Inv) (hm : SameMessage s m) {p : Profile} {k : Nat} {r r' : Result}
    {act act' : ∀ {C : Type} {w : Nat}, Frame w → (Inst C w → Slot) → Inst C w → Result}
    (hr : FramerAnswers p k s r act) (hr' : FramerAnswers p k (s.setBuf m) r' act')
    (hact : ∀ {C : Type} {w : Nat} {fr : Frame w} (put : Inst C w → Slot) (x : Inst C w),
      (fr.lenOk s.len.toNat = true → fr.Local s.len.toNat s.len) → Agree s m (act fr put x) (act' fr put x)) :
    Agree s m r r' := by
  obtain ⟨F, rfl, hruns, hraises⟩ := hr
  obtain ⟨F', rfl, hruns', hraises'⟩ := hr'
  refine agree_withSlot hm fun x hx => ?_
  by_cases hp : x.kind = some p
  · obtain ⟨C, w, fr, put, y, hfr, rfl⟩ := exists_frameOf hp
    rw [hruns hfr, hruns' hfr]
    exact hact put y (hfr.local (h.slot_ok hx))
  · rw [hraises x hp, hraises' x hp]
    exact agree_raise hm _

theorem agree_protectOf (h : s.Inv) (hm : SameMessage s m) (p : Profile) (k : Nat) :
    Agree s m (exec (protectOf p k) s) (exec (protectOf p k) (s.setBuf m)) :=
  agree_framer h hm (exec_protectOf p k s) (exec_protectOf p k (s.setBuf m)) fun put x hfr =>
    agree_protect h hm hfr put x k

theorem agree_checkOf (h : s.Inv) (hm : SameMessage s m) (p : Profile) (k : Nat) :
    Agree s m (exec (checkOf p k) s) (exec (checkOf p k) (s.setBuf m)) :=
  agree_framer h hm (exec_checkOf p k s) (exec_checkOf p k (s.setBuf m)) fun put x hfr => agree_check h hm hfr put x k

/-! ### Every command -/

theorem agree_exec (h : s.Inv) (hm : SameMessage s m) (i : Instr) : Agree s m (exec i s) (exec i (s.setBuf m)) := by
  cases i with
  | crc8jCalc => exact agree_crcCommand h hm _
  | crc8h2fCalc => exact agree_crcCommand h hm _
  | crc16Calc => exact agree_crcCommand h hm _
  | crc32p4Calc => exact agree_crcCommand h hm _
  | crc64Calc => exact agree_crcCommand h hm _
  | rd8 => exact agree_readCommand h hm (read := readAt 1) readsBelow_memRead
  | rd16 => exact agree_readCommand h hm (read := readAt 2) readsBelow_memRead
  | rd32 => exact agree_readCommand h hm (read := readAt 4) readsBelow_memRead
  | rd64 => exact agree_readCommand h hm (read := readAt 8) readsBelow_memRead
  | rdnib => exact agree_readCommand h hm (read := nibbleAt) readsBelow_nibRead
  | wr8 => exact agree_writeField h hm 1
  | wr16 => exact agree_writeField h hm 2
  | wr32 => exact agree_writeField h hm 4
  | wr64 => exact agree_writeField h hm 8
  | wrnib => exact agree_execWrnib h hm
  | cval4 => exact agree_cvalCommand hm 4
  | cval8 => exact agree_cvalCommand hm 8
  | cval16 => exact agree_cvalCommand hm 16
  | cval32 => exact agree_cvalCommand hm 32
  | constructP4 k => exact agree_constructOf hm .p4 k
  | constructP4M k => exact agree_constructOf hm .p4m k
  | constructP5 k => exact agree_constructOf hm .p5 k
  | constructP6 k => exact agree_constructOf hm .p6 k
  | constructP7 k => exact agree_constructOf hm .p7 k
  | constructP7M k => exact agree_constructOf hm .p7m k
  | constructP8 k => exact agree_constructOf hm .p8 k
  | constructP11 k => exact agree_constructOf hm .p11 k
  | constructP22 k => exact agree_constructOf hm .p22 k
  | protectP4 k => exact agree_protectOf h hm .p4 k
  | protectP4M k => exact agree_protectOf h hm .p4m k
  | protectP5 k => exact agree_protectOf h hm .p5 k
  | protectP6 k => exact agree_protectOf h hm .p6 k
  | protectP7 k => exact agree_protectOf h hm .p7 k
  | protectP7M k => exact agree_protectOf h hm .p7m k
  | protectP8 k => exact agree_protectOf h hm .p8 k
  | protectP11 k => exact agree_protectOf h hm .p11 k
  | protectP22 k => exact agree_protectOf h hm .p22 k
  | checkP4 k => exact agree_checkOf h hm .p4 k
  | checkP4M k => exact agree_checkOf h hm .p4m k
  | checkP5 k => exact agree_checkOf h hm .p5 k
  | checkP6 k => exact agree_checkOf h hm .p6 k
  | checkP7 k => exact agree_checkOf h hm .p7 k
  | checkP7M k => exact agree_checkOf h hm .p7m k
  | checkP8 k => exact agree_checkOf h hm .p8 k
  | checkP11 k => exact agree_checkOf h hm .p11 k
  | checkP22 k => exact agree_checkOf h hm .p22 k

end

/-- Settles O13: `agree_exec` with the buffer as it is. -/
theorem commandsStopOnlyOnMissingBytes : Obligations.CommandsStopOnlyOnMissingBytes := by
  intro s i h
  rcases agree_exec h (m := s.buf) (fun _ _ => rfl) i with ⟨a, hr, ha, hnone⟩ | ⟨t, -, ht, -⟩
  · refine ⟨fun f hf => ?_, fun r hr' => ⟨a, ?_, ha, hnone⟩⟩
    · rw [hr] at hf
      cases hf
    · rw [hr] at hr'
      cases hr'
      rfl
  · refine ⟨fun f hf => ?_, fun r hr => ?_⟩
    · rw [ht] at hf
      cases hf
    · rw [ht] at hr
      cases hr

/-- Settles O21: `agree_exec` for a command that answers a next state. -/
theorem bytesBeyondLenUnread : Obligations.BytesBeyondLenUnread := by
  intro i s t m h hm ht
  rcases agree_exec h hm i with ⟨a, hr, -, -⟩ | ⟨u, t', hu, ht', hback, hbytes⟩
  · rw [hr] at ht
    cases ht
  · obtain rfl : u = t := Host.Outcome.next.inj (hu.symm.trans ht)
    exact ⟨t', ht', hback, hbytes⟩

end Sys2Proof.Machine
end

section
/-! The counters of the slots (R35, R36, R37): what a command can have done to one slot, and from it the rule of
`tx_counter` and the rule of the receiver. -/

namespace Sys2Proof.Machine

open Sys2Proof.Claims

/-! ### The counter stage -/

/-- The validator accepts and takes the received counter, or rejects and gives the previous one (R191 to R193). -/
theorem cval_cases (w delta : Nat) (prev : Option Nat) (r : Nat) :
    ((cval w delta prev r).1.code.toNat ≤ 1 ∧ (cval w delta prev r).2 = r) ∨
    (2 ≤ (cval w delta prev r).1.code.toNat ∧ prev = some (cval w delta prev r).2) := by
  cases prev with
  | none => exact .inl ⟨by simp [cval, Status.code], rfl⟩
  | some q =>
    simp only [cval]
    split
    · exact .inr ⟨by simp [Status.code], rfl⟩
    split
    · exact .inl ⟨by simp [Status.code], rfl⟩
    split
    · exact .inl ⟨by simp [Status.code], rfl⟩
    · exact .inr ⟨by simp [Status.code], rfl⟩

theorem finding_code_ge {st : Status} (h : st = .dataLengthError ∨ st = .crcError ∨ st = .dataIdError) :
    4 ≤ st.code.toNat := by
  rcases h with rfl | rfl | rfl <;> decide

/-! ### The counters of a slot after a protect and after a check -/

/-- A protect advances `tx_counter` modulo the counter width (R35). -/
theorem txOf_sent {x : Slot} {p : Profile} (hx : x.kind = some p) :
    txOf x.sent = (txOf x).map fun c => (c + 1) % 2 ^ counterWidth p := by
  cases x <;> cases hx <;> simp [Slot.sent, txOf, counterWidth]

theorem rxOf_sent (x : Slot) : rxOf x.sent = rxOf x := by cases x <;> rfl

theorem txOf_received (x : Slot) (v : Nat) : txOf (x.received v) = txOf x := by cases x <;> rfl

theorem rxOf_received {x : Slot} {p : Profile} (hx : x.kind = some p) (v : Nat) :
    rxOf (x.received v) = some (v % 2 ^ counterWidth p) := by
  cases x <;> cases hx <;> simp [Slot.received, rxOf, counterWidth]

theorem rxOf_lt {x : Slot} {p : Profile} (hx : x.kind = some p) {v : Nat} (h : rxOf x = some v) :
    v < 2 ^ counterWidth p := by
  cases x <;> cases hx <;>
    (obtain ⟨b, -, rfl⟩ := Option.map_eq_some_iff.mp h; exact b.isLt)

/-- Taking the counter it already has leaves a receiver as it is. -/
theorem rxOf_received_self {x : Slot} {p : Profile} (hx : x.kind = some p) {v : Nat} (h : rxOf x = some v) :
    rxOf (x.received v) = rxOf x := by
  rw [rxOf_received hx, Nat.mod_eq_of_lt (rxOf_lt hx h), h]

/-! ### What a command does to one slot -/

/-- What command `i` has done to slot `k`: nothing, where it ended with an error, is none of the three framer commands
of the slot or is a check that ended with a finding; or a construct, a protect or the counter stage of a check. -/
inductive SlotChange (s t : State) (k : Nat) : Instr → Prop
  | kept (i : Instr) (h : t.slots[k]? = s.slots[k]?)
    (hi : t.err ≠ 0 ∨ ∀ p, i ≠ constructOf p k ∧ i ≠ protectOf p k ∧ (i = checkOf p k → 4 ≤ t.status.toNat)) :
    SlotChange s t k i
  | fresh (p : Profile) (x : Slot) (he : t.err = 0) (ht : t.slots[k]? = some x) (htx : txOf x = some 0)
    (hrx : rxOf x = none) : SlotChange s t k (constructOf p k)
  | sent (p : Profile) (x : Slot) (he : t.err = 0) (hs : s.slots[k]? = some x) (hx : x.kind = some p)
    (ht : t.slots[k]? = some x.sent) : SlotChange s t k (protectOf p k)
  | counted (p : Profile) (x : Slot) (r : Nat) (he : t.err = 0) (hs : s.slots[k]? = some x) (hx : x.kind = some p)
    (hst : t.status = (cval (counterWidth p) x.tolerance (rxOf x) r).1.code)
    (ht : t.slots[k]? = some (x.received (cval (counterWidth p) x.tolerance (rxOf x) r).2)) :
    SlotChange s t k (checkOf p k)

/-- A command that is no framer command, or one of another slot, has kept the slot. -/
theorem slotChange_of_other {s t : State} {k : Nat} {i : Instr} (hi : opcGroup i < 4 ∨ i.slot? ≠ some k)
    (h : t.slots[k]? = s.slots[k]?) : SlotChange s t k i := by
  have hne : ∀ c : Instr, 4 ≤ opcGroup c → c.slot? = some k → i ≠ c := by
    rintro c hgroup hslot rfl
    exact hi.elim (by omega) (absurd hslot)
  exact .kept i h (.inr fun p => ⟨hne _ (by simp) (by simp), hne _ (by simp) (by simp),
    fun hc => absurd hc (hne _ (by simp) (by simp))⟩)

theorem Effect.slotChange {s t : State} {i : Instr} (he : Effect s i t) (k : Nat) : SlotChange s t k i := by
  cases he with
  | error i e hc => exact .kept i rfl (.inl (setErr_code_err_ne s e))
  | result i v hi => exact slotChange_of_other (.inl (by have := opcGroup_of_result hi; omega)) rfl
  | store i u hi hu =>
    obtain ⟨m, rfl, -⟩ := hu
    exact slotChange_of_other (.inl (by have := opcGroup_of_store hi; omega)) rfl
  | validate i st v hi => exact slotChange_of_other (.inl (by have := opcGroup_of_validator hi; omega)) rfl
  | construct p j x hj hx ho htx hrx =>
    by_cases hjk : j = k
    · subst hjk
      exact .fresh p x rfl (by simp [hj]) htx hrx
    · exact slotChange_of_other (.inr (by simpa using hjk)) (by simp [List.getElem?_set_ne hjk])
  | protect p j x u hj hx hl hu =>
    obtain ⟨m, rfl, -⟩ := hu
    by_cases hjk : j = k
    · subst hjk
      exact .sent p x rfl hj hx (by simp [(List.getElem?_eq_some_iff.mp hj).1])
    · exact slotChange_of_other (.inr (by simpa using hjk)) (by simp [List.getElem?_set_ne hjk])
  | finding p j x st hj hx hst =>
    refine .kept _ rfl (.inr fun q => ⟨ne_of_opcGroup (by simp), ne_of_opcGroup (by simp), fun _ => ?_⟩)
    exact finding_code_ge hst
  | counted p j x r hj hx hl =>
    by_cases hjk : j = k
    · subst hjk
      exact .counted p x r rfl hj hx rfl (by simp [(List.getElem?_eq_some_iff.mp hj).1])
    · exact slotChange_of_other (.inr (by simpa using hjk)) (by simp [List.getElem?_set_ne hjk])

/-! ### `tx_counter` -/

/-- Settles O22: of the four changes of a slot only the construct and the protect concern `tx_counter`. -/
theorem txCounterRule : Obligations.TxCounterRule := by
  intro i s t k h
  cases (exec_effect h).slotChange k with
  | kept i hkept hi =>
    refine ⟨fun p hp he => ?_, fun p hp he => ?_, fun _ => by rw [hkept]⟩
    · obtain ⟨hconstruct, -, -⟩ := hi.resolve_left (not_not.mpr he) p
      exact absurd hp hconstruct
    · obtain ⟨-, hprotect, -⟩ := hi.resolve_left (not_not.mpr he) p
      exact absurd hp hprotect
  | fresh p x he ht htx hrx =>
    refine ⟨fun _ _ _ => by simp [ht, htx], fun q hq => absurd hq (ne_of_opcGroup (by simp)), fun hno => ?_⟩
    exact (hno.elim (fun hno => (hno p).1 rfl) (absurd he)).elim
  | sent p x he hs hx ht =>
    refine ⟨fun q hq => absurd hq (ne_of_opcGroup (by simp)), fun q hq _ => ?_, fun hno => ?_⟩
    · obtain ⟨rfl, -⟩ := protectOf_inj hq
      simp [hs, ht, txOf_sent hx]
    · exact (hno.elim (fun hno => (hno p).2 rfl) (absurd he)).elim
  | counted p x r he hs hx hst ht =>
    refine ⟨fun q hq => absurd hq (ne_of_opcGroup (by simp)), fun q hq => absurd hq (ne_of_opcGroup (by simp)),
      fun _ => ?_⟩
    simp [hs, ht, txOf_received]

/-! ### The receiver -/

theorem field_lt (bs : List Byte) (a n : Nat) : field bs a n < 256 ^ n :=
  (beValue_lt _).trans_le (Nat.pow_le_pow_right (by decide) (by rw [slice_length]; omega))

theorem getNibble_lt (bs : List Byte) (o : Nat) : getNibble bs o < 16 := nibbleOf_lt o _

section Frames

variable {p : Profile} {C : Type} {w : Nat} {fr : Frame w} {put : Inst C w → Slot} {x : Inst C w}

theorem FrameOf.rxOf_put (hfr : FrameOf p fr put x) (y : Inst C w) : rxOf (put y) = y.rx.map BitVec.toNat := by
  cases hfr <;> rfl

/-- The Counter field is a number of `w` bits. -/
theorem FrameOf.counterField_lt (hfr : FrameOf p fr put x) (bs : List Byte) : counterField (put x) bs < 2 ^ w := by
  cases hfr with
  | p4 | p4m | p5 | p6 | p7 | p7m | p8 => exact field_lt ..
  | p11 | p22 => exact getNibble_lt ..

/-- On a message of a legal length the counter a frame reads is the Counter field. -/
theorem FrameOf.counter_message (hfr : FrameOf p fr put x) (hok : (put x).Ok) {s : State} {bs : List Byte}
    (hm : Message s bs) (hl : LenOk (put x) s.len.toNat) : fr.counter s = .ok (counterField (put x) bs) := by
  cases hfr with
  | p4 | p4m | p6 | p7 | p7m | p8 =>
    have hin := hok.inside
    simp only [headerBytes, LenOk] at hin hl
    exact memRead_message hm (by simp only [VarCfg.ob]; omega)
  | p5 =>
    have hin := hok.inside
    simp only [headerBytes, LenOk] at hin hl
    exact memRead_message hm (by simp only [FixCfg.ob]; omega)
  | p11 =>
    have hin := hok.counterInside
    simp only [LenOk] at hl
    exact nibRead_message hm (by omega)
  | p22 =>
    have hin := hok.inside
    simp only [headerBytes, LenOk] at hin hl
    exact nibRead_message hm (by omega)

/-- A check that accepts takes the counter of its frame. -/
theorem check_accepted {k r : Nat} {s t : State} (hk : k < s.slots.length) (h : check fr put x k s = .next t)
    (hr : fr.lenOk s.len.toNat = true → fr.counter s = .ok r) (hst : t.status.toNat ≤ 1) :
    t.slots[k]? = some (put { x with rx := some (BitVec.ofNat w r) }) := by
  rcases check_cases h with ⟨st, hfinding, rfl⟩ | ⟨r', hl, hr', rfl⟩
  · have := finding_code_ge hfinding
    simp only [finding, State.setErr_status, State.setStatus_status] at hst
    omega
  · obtain rfl : r' = r := Except.ok.inj (hr'.symm.trans (hr hl))
    simp only [counterStage, State.setErr_status, State.setSlot_status, State.setStatus_status] at hst
    rcases cval_cases w fr.delta (x.rx.map BitVec.toNat) r' with ⟨-, hv⟩ | ⟨hrej, -⟩
    · simp [counterStage, hk, hv]
    · omega

end Frames

/-- On a message a check that accepts makes `rx_counter` the Counter field (R36, R232). -/
theorem rxOf_of_accepted {p : Profile} {k : Nat} {s t : State} {bs : List Byte} {x : Slot} (hs : s.Inv)
    (hm : Message s bs) (hk : s.slots[k]? = some x) (h : exec (checkOf p k) s = .next t) (he : t.err = 0)
    (hst : t.status.toNat ≤ 1) : (t.slots[k]?).bind rxOf = some (counterField x bs) := by
  have hx : x.kind = some p := by
    by_contra hx
    rw [(exec_checkOf p k s).of_other hk hx] at h
    cases h
    exact setErr_code_err_ne s _ he
  obtain ⟨C, w, fr, put, y, hfr, rfl⟩ := exists_frameOf hx
  rw [(exec_checkOf p k s).of_frame hfr hk] at h
  have hcounter (hl : fr.lenOk s.len.toNat = true) : fr.counter s = .ok (counterField (put y) bs) :=
    hfr.counter_message (hs.slot_ok hk) hm (hfr.lenOk_iff.mp hl)
  rw [check_accepted (List.getElem?_eq_some_iff.mp hk).1 h hcounter hst]
  simp [hfr.rxOf_put, Nat.mod_eq_of_lt (hfr.counterField_lt bs)]

/-- Settles O23: of the four changes of a slot only the construct and the counter stage concern the receiver. -/
theorem receiverRule : Obligations.ReceiverRule := by
  intro i s t k h
  have haccepted : ∀ p bs x, i = checkOf p k → s.Inv → Message s bs → s.slots[k]? = some x → t.err = 0 →
      t.status.toNat ≤ 1 → (t.slots[k]?).bind rxOf = some (counterField x bs) := by
    rintro p bs x rfl hs hm hx he hst
    exact rxOf_of_accepted hs hm hx h he hst
  cases (exec_effect h).slotChange k with
  | kept i hkept hi =>
    refine ⟨fun p hp he => ?_, fun p hp he hst => ?_, haccepted, fun _ => by rw [hkept]⟩
    · obtain ⟨hconstruct, -, -⟩ := hi.resolve_left (not_not.mpr he) p
      exact absurd hp hconstruct
    · obtain ⟨-, -, hcheck⟩ := hi.resolve_left (not_not.mpr he) p
      have := hcheck hp
      omega
  | fresh p x he ht htx hrx =>
    refine ⟨fun _ _ _ => by simp [ht, hrx], fun q hq => absurd hq (ne_of_opcGroup (by simp)), haccepted, fun hno => ?_⟩
    exact (hno.elim (fun hno => (hno p).1 rfl) (absurd he)).elim
  | sent p x he hs hx ht =>
    refine ⟨fun q hq => absurd hq (ne_of_opcGroup (by simp)), fun q hq => absurd hq (ne_of_opcGroup (by simp)),
      haccepted, fun _ => ?_⟩
    simp [hs, ht, rxOf_sent]
  | counted p x r he hs hx hst ht =>
    refine ⟨fun q hq => absurd hq (ne_of_opcGroup (by simp)), fun _ _ _ _ => by simp [ht, rxOf_received hx], haccepted,
      fun hno => ?_⟩
    have hrej : ¬t.status.toNat ≤ 1 := hno.elim (fun hno hle => (hno p).2 ⟨rfl, hle⟩) (absurd he)
    rw [hst] at hrej
    rcases cval_cases (counterWidth p) x.tolerance (rxOf x) r with ⟨hacc, -⟩ | ⟨-, hv⟩
    · exact absurd hacc hrej
    · simp [hs, ht, rxOf_received_self hx hv]

end Sys2Proof.Machine
end

section
/-! The step and what it performs: the command of a word written to CMD (R27, R71), the host's own actions (R21, R22,
R26 to R28, R30, R97) and block reset (R42, R440). -/

namespace Sys2Proof

/-! ### A command's word decodes to the command -/

/-- A format N command is the row of its OPC. -/
theorem decodeN_opcOf {i : Instr} (h : i.slot? = none) : decodeN (opcOf i) = some i := by
  cases i <;> cases h <;> rfl

/-- A format S command is the row of its OPC, which no format N command has. -/
theorem decodeS_opcOf {i : Instr} {k : Nat} (h : i.slot? = some k) :
    decodeN (opcOf i) = none ∧ decodeS (opcOf i) k = some i := by
  cases i <;> cases h <;> exact ⟨rfl, rfl⟩

theorem decode_encode {i : Instr} (h : WellFormed i) : decode (encode i) = .ok i := by
  obtain ⟨hopc, hslot, hzero⟩ := Laws.encodedFields i h
  rw [decode, hopc, hslot, hzero, if_neg (by simp)]
  cases hi : i.slot? with
  | none => simp [decodeN_opcOf hi]
  | some k => simp [decodeS_opcOf hi]

/-- The table's numbering of a word is the word. -/
theorem tableWord_toNat (w : Word32) : tableWord 32 w.toNat = w := by
  rw [tableWord, Nat.mod_eq_of_lt w.isLt, BitVec.ofNat_toNat, BitVec.setWidth_eq]

end Sys2Proof

namespace Sys2Proof.Machine

/-! ### One step -/

/-- A step performs the host's next action. -/
theorem step_of_host {s : State} {a : HostAction} {rest : List HostAction} (h : s.host = a :: rest) :
    step s = performAction a (s.setHost rest) := by
  simp only [step, nextAction, h]

/-- With no action pending nothing happens (R425). -/
theorem step_of_idle {s : State} (h : s.host = []) : step s = .next s := by
  simp only [step, nextAction, h]

theorem command_of_decode {w : Word32} {i : Instr} (h : decode w = .ok i) (s : State) : command w s = exec i s := by
  simp only [command, h]

/-- The step after `withFetchWord` performs the word. -/
theorem step_withFetchWord (s : State) (w : Word32) : step (s.withFetchWord 32 w.toNat) = command w s := by
  rw [State.withFetchWord, tableWord_toNat]
  rfl

/-- Settles O5: a step takes the host's next action, and the word of a well-formed command decodes to it. -/
theorem stepRunsDecodedCommand : Obligations.StepRunsDecodedCommand := by
  refine ⟨fun s w rest i hs hw => ?_, fun s i hi => ?_, fun s hs => step_of_idle hs⟩
  · rw [step_of_host hs, performAction, command_of_decode hw]
  · rw [step_withFetchWord, command_of_decode (decode_encode hi)]

/-! ### The host's own actions -/

theorem State.setArg_args (s : State) (k : Fin 4) (v : Word64) :
    (s.setArg k v).arg0 = (if k = 0 then v else s.arg0) ∧ (s.setArg k v).arg1 = (if k = 1 then v else s.arg1) ∧
    (s.setArg k v).arg2 = (if k = 2 then v else s.arg2) ∧ (s.setArg k v).arg3 = (if k = 3 then v else s.arg3) := by
  fin_cases k <;> exact ⟨rfl, rfl, rfl, rfl⟩

/-- The registers ARG apart, a write of one leaves the state. -/
theorem State.setArg_frame (s : State) (k : Fin 4) (v : Word64) :
    { s.setArg k v with arg0 := s.arg0, arg1 := s.arg1, arg2 := s.arg2, arg3 := s.arg3 } = s := by
  fin_cases k <;> rfl

theorem Staging.set_fields (g : Staging) (r : CfgReg) (v : Word32) :
    (g.set r v).offset = (if r = .offset then v else g.offset) ∧
    (g.set r v).dataId = (if r = .dataId then v else g.dataId) ∧
    (g.set r v).metaWord = (if r = .metaWord then v else g.metaWord) ∧
    (g.set r v).dataLen = (if r = .dataLen then v else g.dataLen) ∧
    (g.set r v).minLen = (if r = .minLen then v else g.minLen) ∧
    (g.set r v).maxLen = (if r = .maxLen then v else g.maxLen) ∧
    (g.set r v).maxDelta = (if r = .maxDelta then v else g.maxDelta) ∧
    (g.set r v).crcOffset = (if r = .crcOffset then v else g.crcOffset) ∧
    (g.set r v).counterOffset = (if r = .counterOffset then v else g.counterOffset) ∧
    (g.set r v).nibbleOffset = (if r = .nibbleOffset then v else g.nibbleOffset) ∧
    (g.set r v).mode = g.mode ∧ (g.set r v).idList = g.idList := by
  cases r <;> simp [Staging.set]

/-- A write of one byte inside the buffer (R30). -/
theorem hostAct_poke {s : State} {a : Nat} (b : Byte) (h : a < s.bufBytes) :
    hostAct (.poke a b) s = .next (s.setBuf (s.buf.set a b)) := by
  simp only [hostAct, writeByte_eq_ok.mpr ⟨h, rfl⟩, run_ok]

/-- A `buf` line that fits makes its bytes the message and leaves the bytes behind it (R97). -/
theorem hostAct_buf {s : State} {bs : List Byte} (h : bs.length ≤ s.bufBytes) (hlt : bs.length < 2 ^ 32) :
    ∃ m, hostAct (.buf bs) s = .next ((s.setBuf m).setLen (BitVec.ofNat 32 bs.length)) ∧
      Message ((s.setBuf m).setLen (BitVec.ofNat 32 bs.length)) bs ∧
      ∀ x, bs.length ≤ x → m.get? x = s.buf.get? x := by
  obtain ⟨t, ht⟩ := writeBytes_ok (bs := bs) (s := s) (a := 0) (by omega)
  obtain ⟨-, m, rfl, hget, -⟩ := writeBytes_eq_ok ht
  have hlen : (BitVec.ofNat 32 bs.length).toNat = bs.length := by
    rw [BitVec.toNat_ofNat, Nat.mod_eq_of_lt hlt]
  refine ⟨m, ?_, ⟨hlen.symm, ?_, fun a ha => ?_⟩, fun x hx => ?_⟩
  · simp only [hostAct, if_pos h, ht, access_ok_bind, run_ok]
  · simpa [hlen] using h
  · simp only [State.setLen_len, hlen] at ha
    simp only [State.setLen_buf, State.setBuf_buf, hget]
    rw [if_pos (by omega), Nat.sub_zero]
  · rw [hget, if_neg (by omega)]

/-- Settles O6: a step is the host's action, and each action has its rule above. -/
theorem hostWritesTakeEffect : Obligations.HostWritesTakeEffect := by
  refine ⟨fun s k v rest hs => ?_, fun s n rest hs hn => ?_, fun s a b rest hs ha => ?_,
    fun s bs rest hs hfits hlt => ?_, fun s r v rest hs => ?_, fun s v rest hs => ?_, fun s k v rest hs => ?_⟩
  · rw [step_of_host hs]
    obtain ⟨h0, h1, h2, h3⟩ := (s.setHost rest).setArg_args k v
    exact ⟨_, rfl, h0, h1, h2, h3, (s.setHost rest).setArg_frame k v⟩
  · rw [step_of_host hs]
    exact if_pos hn
  · rw [step_of_host hs]
    exact ⟨_, hostAct_poke b ha, Memory.get?_set_same .., fun x hx => Memory.get?_set_other _ _ hx⟩
  · rw [step_of_host hs]
    obtain ⟨m, ht, hmessage, hbehind⟩ := hostAct_buf (s := s.setHost rest) hfits hlt
    exact ⟨_, ht, hmessage, hbehind, rfl⟩
  · rw [step_of_host hs]
    exact ⟨_, rfl, s.staging.set_fields r v⟩
  · rw [step_of_host hs]
    rfl
  · rw [step_of_host hs]
    refine ⟨_, rfl, fun j => ?_, rfl⟩
    simp [Vector.getElem_set, Fin.ext_iff, eq_comm]

/-- Settles O7: none of these actions has a meaning in `hostAct`. -/
theorem hostActionsRefused : Obligations.HostActionsRefused := by
  refine ⟨fun s n rest hs hn => ?_, fun s bs rest hs hbs => ?_, fun s r rest hs => ?_, fun s rest hs => ?_⟩
  · rw [step_of_host hs]
    exact if_neg (not_le.mpr hn)
  · rw [step_of_host hs]
    exact if_neg (not_le.mpr hbs)
  · rw [step_of_host hs]
    rfl
  · rw [step_of_host hs]
    rfl

/-! ### Reset -/

theorem afterReset_slots (bufBytes nInst : Nat) (host : List HostAction) :
    (State.afterReset bufBytes nInst host).slots.length = nInst ∧
    ∀ x ∈ (State.afterReset bufBytes nInst host).slots, x.kind = none := by
  refine ⟨List.length_replicate, fun x hx => ?_⟩
  rw [List.eq_of_mem_replicate hx]
  rfl

/-- Settles O8: block reset is `State.afterReset` with the machine's own parameters, `State.reset` with those of
`Config`. -/
theorem blockResetValues : Obligations.BlockResetValues := by
  refine ⟨fun s rest hs => ?_, (afterReset_slots ..).2, rfl, rfl, fun _ => rfl, ?_, ?_, config_bufBytes_range⟩
  · rw [step_of_host hs]
    obtain ⟨hlength, hnone⟩ := afterReset_slots s.bufBytes s.slots.length rest
    exact ⟨_, rfl, hlength, hnone, rfl, rfl, fun _ => rfl, rfl, rfl⟩
  · exact (afterReset_slots ..).1 ▸ config_nInst_range.1
  · exact (afterReset_slots ..).1 ▸ config_nInst_range.2

/-- Settles O9: the model's choice, read off `State.afterReset`. -/
theorem resetRegistersChosenZero : Obligations.ResetRegistersChosenZero := by
  refine ⟨rfl, rfl, rfl, rfl, rfl, rfl, rfl, fun j => ?_, rfl⟩
  exact Vector.getElem_replicate ..

end Sys2Proof.Machine
end

section
/-! A read of the buffer is the big-endian sum of the bytes it covers (R61). -/

namespace Sys2Proof.Machine

/-- The byte `k` places after the first has the weight `256 ^ (length - 1 - k)`. -/
theorem beValue_eq_sum (bs : List Byte) : beValue bs =
    ((List.range bs.length).map fun k => ((bs[k]?.map BitVec.toNat).getD 0) * 256 ^ (bs.length - 1 - k)).sum := by
  induction bs with
  | nil => rfl
  | cons b bs ih =>
    have hweight (k : Nat) : bs.length + 1 - 1 - (k + 1) = bs.length - 1 - k := by omega
    rw [beValue_cons, ih, List.length_cons, List.range_succ_eq_map, List.map_cons, List.sum_cons, List.map_map]
    simp only [Function.comp_def, Nat.succ_eq_add_one, List.getElem?_cons_succ, hweight]
    rfl

/-- Settles O35: the bytes read are those the buffer holds in the range, and a list of bytes has the value of its
sum. -/
theorem fieldIsBigEndianSum : Obligations.FieldIsBigEndianSum := by
  intro s a n v h
  obtain ⟨bs, hbs, rfl⟩ := memRead_eq_ok.mp h
  obtain ⟨rfl, hbyte⟩ := readBytes_eq_ok.mp hbs
  rw [beValue_eq_sum]
  congr 1
  refine List.map_congr_left fun k hk => ?_
  rw [(hbyte k (List.mem_range.mp hk)).2]

end Sys2Proof.Machine
end

section
/-! Words and commands (R90, R91, R93, R95): a word decodes to a command exactly where it is the word of that command,
and the illegal words are those without a command on a slot of the block. -/

namespace Sys2Proof

open Claims (IsOpcN IsOpcS IsIllegal)

/-! ### The rows of the opcode map -/

/-- The OPCs a list of rows knows are those it lists. -/
theorem lookupOpc_isSome_iff {o : Nat} {l : List (Nat × Instr)} :
    (lookupOpc o l).isSome = true ↔ o ∈ l.map Prod.fst := by
  induction l with
  | nil => simp [lookupOpc]
  | cons r l ih =>
    rw [lookupOpc, List.map_cons, List.mem_cons, ← ih]
    split <;> simp_all

/-- Every format N row has the OPC of its command. -/
theorem opcOf_rowsN : ∀ r ∈ rowsCrcCodec ++ rowsValidator, opcOf r.2 = r.1 ∧ r.2.slot? = none := by decide

/-- Every format S row has the OPC of its command, whose slot is the one asked for. -/
theorem opcOf_rowsS (k : Nat) :
    ∀ r ∈ rowsConstruct k ++ rowsProtect k ++ rowsCheck k, opcOf r.2 = r.1 ∧ r.2.slot? = some k := by
  simp [rowsConstruct, rowsProtect, rowsCheck, opcOf, Instr.slot?]

theorem decodeN_eq_some_iff {o : Nat} {i : Instr} : decodeN o = some i ↔ opcOf i = o ∧ i.slot? = none := by
  refine ⟨fun h => opcOf_rowsN _ (mem_of_lookupOpc h), ?_⟩
  rintro ⟨rfl, hi⟩
  exact decodeN_opcOf hi

theorem decodeS_eq_some_iff {o k : Nat} {i : Instr} : decodeS o k = some i ↔ opcOf i = o ∧ i.slot? = some k := by
  refine ⟨fun h => opcOf_rowsS k _ (mem_of_lookupOpc h), ?_⟩
  rintro ⟨rfl, hi⟩
  exact (decodeS_opcOf hi).2

/-- The OPCs of the format N rows, as R93 prints them. -/
theorem decodeN_isSome_iff {o : Nat} : (decodeN o).isSome = true ↔ IsOpcN o := by
  rw [decodeN, lookupOpc_isSome_iff]
  simp only [rowsCrcCodec, rowsValidator, List.cons_append, List.nil_append, List.map_cons, List.map_nil,
    List.mem_cons, List.not_mem_nil, or_false, IsOpcN]
  omega

/-- The OPCs of the format S rows, as R93 prints them; they are the same for every slot index. -/
theorem decodeS_isSome_iff {o k : Nat} : (decodeS o k).isSome = true ↔ IsOpcS o := by
  rw [decodeS, lookupOpc_isSome_iff]
  simp only [rowsConstruct, rowsProtect, rowsCheck, List.cons_append, List.nil_append, List.map_cons, List.map_nil,
    List.mem_cons, List.not_mem_nil, or_false, IsOpcS]
  omega

/-- The format N OPCs are those of the commands without a slot. -/
theorem isOpcN_iff {o : Nat} : IsOpcN o ↔ ∃ i, opcOf i = o ∧ i.slot? = none := by
  simp only [← decodeN_isSome_iff, Option.isSome_iff_exists, decodeN_eq_some_iff]

/-- The format S OPCs are those of the commands on a slot, whichever the slot. -/
theorem isOpcS_iff {o : Nat} (k : Nat) : IsOpcS o ↔ ∃ i, opcOf i = o ∧ i.slot? = some k := by
  simp only [← decodeS_isSome_iff (k := k), Option.isSome_iff_exists, decodeS_eq_some_iff]

theorem not_isOpcN_of_isOpcS {o : Nat} (h : IsOpcS o) : ¬IsOpcN o := by
  unfold IsOpcS at h
  unfold IsOpcN
  omega

/-! ### The words of commands -/

/-- A format S row is looked up only where no format N row answers. -/
theorem decode_eq_ok_iff_rows {w : Word32} {i : Instr} : decode w = .ok i ↔
    zeroField w = 0 ∧ (decodeN (opcField w) = some i ∧ slotField w = 0 ∨
      decodeN (opcField w) = none ∧ decodeS (opcField w) (slotField w) = some i) := by
  by_cases hz : zeroField w = 0
  · cases hN : decodeN (opcField w) with
    | some j => by_cases hs : slotField w = 0 <;> simp [decode, hz, hN, hs]
    | none => cases hS : decodeS (opcField w) (slotField w) <;> simp [decode, hz, hN, hS]
  · simp [decode, hz]

/-- A word decodes to a command where its ZERO field is 0, its OPC field is the command's, and its SLOT field is the
command's slot index, 0 in format N. -/
theorem decode_eq_ok_iff_fields {w : Word32} {i : Instr} : decode w = .ok i ↔
    zeroField w = 0 ∧ opcOf i = opcField w ∧
      (i.slot? = none ∧ slotField w = 0 ∨ i.slot? = some (slotField w)) := by
  have hS : decodeN (opcField w) = none ∧ decodeS (opcField w) (slotField w) = some i ↔
      opcOf i = opcField w ∧ i.slot? = some (slotField w) := by
    refine ⟨fun h => decodeS_eq_some_iff.mp h.2, ?_⟩
    rintro ⟨ho, hi⟩
    exact ho ▸ decodeS_opcOf hi
  rw [decode_eq_ok_iff_rows, decodeN_eq_some_iff, hS]
  tauto

theorem wellFormed_iff {i : Instr} : WellFormed i ↔ ∀ k, i.slot? = some k → k < 256 := by
  cases hi : i.slot? <;> simp [WellFormed, wellFormed, hi]

/-- A word decodes to a command where it is the word of that command, and the command can be encoded. -/
theorem decode_eq_ok_iff_encode {w : Word32} {i : Instr} : decode w = .ok i ↔ WellFormed i ∧ encode i = w := by
  constructor
  · intro h
    obtain ⟨hzero, hopc, hslot⟩ := decode_eq_ok_iff_fields.mp h
    rw [eq_commandWord hzero, encode, hopc, wellFormed_iff]
    rcases hslot with ⟨hi, hs⟩ | hi
    · simp [hi, hs]
    · simp [hi, slotField_lt]
  · rintro ⟨hi, rfl⟩
    exact decode_encode hi

/-- Settles O1: the fields of the word lead the decoder back to the row the command is in. -/
theorem decodeEncodeRoundTrip : Obligations.DecodeEncodeRoundTrip := fun _ hi => decode_encode hi

/-- Settles O2: the three fields are the whole word, and the decoder tests each. -/
theorem encodeDecodeRoundTrip : Obligations.EncodeDecodeRoundTrip := fun _ _ hw => decode_eq_ok_iff_encode.mp hw

/-- Settles O4: each word is the word of its command. -/
theorem sampleWordsDecode : Obligations.SampleWordsDecode := by
  simp only [Obligations.SampleWordsDecode, decode_eq_ok_iff_encode]
  decide

/-! ### Illegal words -/

/-- The words R95 leaves, in the decoder's fields: format N with SLOT 0, and format S on a slot of the block. -/
theorem not_isIllegal_iff_fields {n : Nat} {w : Word32} : ¬IsIllegal n w ↔
    zeroField w = 0 ∧ (IsOpcN (opcField w) ∧ slotField w = 0 ∨ IsOpcS (opcField w) ∧ slotField w < n) := by
  have hdisjoint := not_isOpcN_of_isOpcS (o := opcField w)
  simp only [IsIllegal, ← opcField_eq, ← slotField_eq, ← zeroField_eq]
  by_cases hN : IsOpcN (opcField w) <;> by_cases hS : IsOpcS (opcField w) <;> simp_all

/-- A word is not illegal where it decodes to a command on a slot of the block, or to one without a slot. -/
theorem not_isIllegal_iff {n : Nat} {w : Word32} :
    ¬IsIllegal n w ↔ ∃ i, decode w = .ok i ∧ ∀ k, i.slot? = some k → k < n := by
  simp only [not_isIllegal_iff_fields, decode_eq_ok_iff_fields]
  constructor
  · rintro ⟨hzero, ⟨hN, hs⟩ | ⟨hS, hlt⟩⟩
    · obtain ⟨i, ho, hi⟩ := isOpcN_iff.mp hN
      exact ⟨i, ⟨hzero, ho, .inl ⟨hi, hs⟩⟩, by simp [hi]⟩
    · obtain ⟨i, ho, hi⟩ := (isOpcS_iff (slotField w)).mp hS
      exact ⟨i, ⟨hzero, ho, .inr hi⟩, by simpa [hi] using hlt⟩
  · rintro ⟨i, ⟨hzero, ho, ⟨hi, hs⟩ | hi⟩, hlt⟩
    · exact ⟨hzero, .inl ⟨isOpcN_iff.mpr ⟨i, ho, hi⟩, hs⟩⟩
    · exact ⟨hzero, .inr ⟨(isOpcS_iff _).mpr ⟨i, ho, hi⟩, hlt _ hi⟩⟩

end Sys2Proof

namespace Sys2Proof.Machine

open Claims (IsIllegal)

/-- A format S command looks up its slot first. -/
theorem exec_eq_withSlot {i : Instr} {k : Nat} (h : i.slot? = some k) (s : State) :
    ∃ F, exec i s = withSlot s k F := by
  cases i <;> cases h <;> exact ⟨_, rfl⟩

/-- A command on a slot that does not exist ends with IllegalCommand (R95, log 9). -/
theorem exec_of_no_slot {i : Instr} {k : Nat} {s : State} (h : i.slot? = some k) (hk : s.slots.length ≤ k) :
    exec i s = raise s .illegalCommand := by
  obtain ⟨F, hF⟩ := exec_eq_withSlot h s
  rw [hF, withSlot, List.getElem?_eq_none hk]

theorem command_of_error {w : Word32} {e : DecodeError} (h : decode w = .error e) (s : State) :
    command w s = raise s .illegalCommand := by
  simp only [command, h]

/-- Whatever makes a word illegal, the decoder or the slot file, its command only raises. -/
theorem command_of_illegal {w : Word32} {s : State} (h : IsIllegal s.slots.length w) :
    command w s = raise s .illegalCommand := by
  cases hw : decode w with
  | error e => exact command_of_error hw s
  | ok i =>
    have hslot : ¬∀ k, i.slot? = some k → k < s.slots.length := fun hlt => not_isIllegal_iff.mpr ⟨i, hw, hlt⟩ h
    push Not at hslot
    obtain ⟨k, hi, hk⟩ := hslot
    rw [command_of_decode hw, exec_of_no_slot hi hk]

/-- Settles O3: the words that are not illegal are those with a command on a slot of the block, and the others raise. -/
theorem illegalWordsOnlyRaise : Obligations.IllegalWordsOnlyRaise := by
  refine fun s w rest hs => ⟨fun h => ?_, not_isIllegal_iff.mp⟩
  rw [step_of_host hs, performAction, command_of_illegal (s := s.setHost rest) h]
  rfl

end Sys2Proof.Machine
end

section
/-! The CRC engines (R131 to R140): continuing a CRC (R133), the reflected form (R132), affinity and the detection of a
changed byte (R140), and the five CRC commands (R134 to R139). -/

namespace Sys2Proof.Machine

open Sys2Proof.Claims

/-! ### Check values -/

/-- Settles O25, by evaluating the five engines. -/
theorem crcCheckValues : Obligations.CrcCheckValues :=
  ⟨by decide +kernel, by decide +kernel, by decide +kernel, by decide +kernel, by decide +kernel⟩

/-! ### Continuing a CRC -/

/-- XorOut, and the reflection where there is one, undone give the register back (R133). -/
theorem crcFinish_undone {w : Nat} (e : Engine w) (r : BitVec w) :
    (if e.refOut then (crcFinish e r ^^^ e.xorOut).reverse else crcFinish e r ^^^ e.xorOut) = r := by
  have hadded : crcFinish e r ^^^ e.xorOut = if e.refOut then reflect r else r := by
    rw [crcFinish, BitVec.xor_assoc, BitVec.xor_self, BitVec.xor_zero]
  rw [hadded]
  cases e.refOut with
  | false => rfl
  | true => exact reflect_reflect r

/-- Settles O26: the register after the first part is what the second part starts from. -/
theorem crcConcatenation : Obligations.CrcConcatenation := by
  intro w e s t
  refine ⟨fun r => crcFeed_append e r s t, ?_⟩
  rw [crcOf, crcOf, crcFrom, crcFrom, crcFrom, crcFinish_undone, crcFeed_append]

/-! ### The reflected form -/

/-- A reflected engine's shift is the reflected form's shift of the reflected register (R132). -/
theorem reflect_crcShift {w : Nat} (e : Engine w) (r : BitVec w) :
    reflect (crcShift e r) = reflectedShift (reflect e.poly) (reflect r) := by
  have hshift : reflect (r <<< 1) = reflect r >>> 1 := by
    apply BitVec.eq_of_getLsbD_eq
    intro i _
    rw [reflect, reflect, BitVec.getLsbD_reverse, BitVec.getMsbD_shiftLeft, BitVec.getLsbD_ushiftRight,
      BitVec.getLsbD_reverse, Nat.add_comm]
  have hbit : (reflect r).getLsbD 0 = r.msb := BitVec.getLsbD_reverse
  rw [crcShift, reflectedShift, hbit]
  cases r.msb with
  | false => exact hshift
  | true => rw [if_pos rfl, if_pos rfl, reflect_xor, hshift]

/-- A map carried through a function carries through its repetition. -/
theorem repeatTimes_comm {α β : Type} {f : α → α} {g : β → β} {φ : α → β} (h : ∀ a, φ (f a) = g (φ a)) :
    ∀ n a, φ (repeatTimes f n a) = repeatTimes g n (φ a)
  | 0, _ => rfl
  | n + 1, a => by rw [repeatTimes, repeatTimes, repeatTimes_comm h n, h]

/-- A byte reflected into the top 8 bits is, in the reflected register, the byte in the bottom 8 bits. -/
theorem reflect_crcEnter {w : Nat} {e : Engine w} (hin : e.refIn = true) (hw : 8 ≤ w) (b : Byte) :
    reflect (crcEnter e b) = b.setWidth w := by
  apply BitVec.eq_of_getLsbD_eq
  intro i hi
  rw [crcEnter, if_pos hin, reflect, BitVec.getLsbD_reverse, BitVec.getMsbD_shiftLeft, BitVec.getMsbD_setWidth, reflect,
    BitVec.getMsbD_reverse, BitVec.getLsbD_setWidth, show i + (w - 8) + 8 - w = i by omega]
  simp [hi]

theorem reflect_crcByte {w : Nat} {e : Engine w} (hin : e.refIn = true) (hw : 8 ≤ w) (r : BitVec w) (b : Byte) :
    reflect (crcByte e r b) = repeatTimes (reflectedShift (reflect e.poly)) 8 (reflect r ^^^ b.setWidth w) := by
  rw [crcByte_eq, repeatTimes_comm (reflect_crcShift e), reflect_xor, reflect_crcEnter hin hw]

theorem reflect_crcFeed {w : Nat} {e : Engine w} (hin : e.refIn = true) (hw : 8 ≤ w) (bs : List Byte) :
    ∀ r, reflect (crcFeed e r bs) = reflectedFeed (reflect e.poly) (reflect r) bs := by
  induction bs with
  | nil => exact fun _ => rfl
  | cons b bs ih =>
    intro r
    rw [crcFeed_cons, ih, reflect_crcByte hin hw]
    rfl

/-- The reflected form of any engine with RefIn and RefOut. -/
theorem crcFrom_eq_reflectedFeed {w : Nat} {e : Engine w} (hin : e.refIn = true) (hout : e.refOut = true) (hw : 8 ≤ w)
    (bs : List Byte) (init : BitVec w) :
    crcFrom e bs init = reflectedFeed e.poly.reverse init.reverse bs ^^^ e.xorOut := by
  rw [crcFrom, crcFinish, if_pos hout, reflect_crcFeed hin hw, reflect, reflect]

theorem crc32p4_poly_reverse : crc32p4.poly.reverse = 0xC8DF352F#32 := by decide +kernel

theorem crc64_poly_reverse : crc64.poly.reverse = 0xC96C5795D7870F42#64 := by decide +kernel

/-- Settles O27: the general reflected form with the two printed polynomials. -/
theorem reflectedEngineForm : Obligations.ReflectedEngineForm := by
  refine ⟨⟨crc32p4_poly_reverse, crc64_poly_reverse⟩, fun bs init => ?_, fun bs init => ?_⟩
  · rw [← crc32p4_poly_reverse]
    exact crcFrom_eq_reflectedFeed rfl rfl (by decide) bs init
  · rw [← crc64_poly_reverse]
    exact crcFrom_eq_reflectedFeed rfl rfl (by decide) bs init

/-! ### Affinity -/

theorem xorBytes_length {s t : List Byte} (h : s.length = t.length) : (xorBytes s t).length = t.length := by
  rw [xorBytes, List.length_zipWith, h, Nat.min_self]

theorem xor_self_xor {w : Nat} (a : BitVec w) : a ^^^ a ^^^ a = a := by
  rw [BitVec.xor_self, BitVec.zero_xor]

/-- The result of a sum of three registers is the sum of their results: XorOut is added three times. -/
theorem crcFinish_xor_xor {w : Nat} (e : Engine w) (a b c : BitVec w) :
    crcFinish e (a ^^^ b ^^^ c) = crcFinish e a ^^^ crcFinish e b ^^^ crcFinish e c := by
  have hsum (x y z : BitVec w) :
      (x ^^^ e.xorOut) ^^^ (y ^^^ e.xorOut) ^^^ (z ^^^ e.xorOut) = (x ^^^ y ^^^ z) ^^^ e.xorOut :=
    calc (x ^^^ e.xorOut) ^^^ (y ^^^ e.xorOut) ^^^ (z ^^^ e.xorOut)
      _ = (x ^^^ y ^^^ z) ^^^ (e.xorOut ^^^ e.xorOut ^^^ e.xorOut) := by ac_rfl
      _ = (x ^^^ y ^^^ z) ^^^ e.xorOut := by rw [xor_self_xor]
  unfold crcFinish
  rw [hsum]
  cases e.refOut with
  | false => rfl
  | true => simp only [if_true, reflect_xor]

/-- Settles O28: the register is linear in its start and the bytes, and three times Init is Init. -/
theorem crcIsAffine : Obligations.CrcIsAffine := by
  intro w e s t u _ hst htu
  have hfeed : crcFeed e e.init (xorBytes (xorBytes s t) u) =
      crcFeed e e.init s ^^^ crcFeed e e.init t ^^^ crcFeed e e.init u := by
    have hst' := crcFeed_xor e s t e.init e.init hst
    have hstu := crcFeed_xor e (xorBytes s t) u (e.init ^^^ e.init) e.init ((xorBytes_length hst).trans htu)
    rw [xor_self_xor] at hstu
    exact hstu.trans (congrArg (· ^^^ crcFeed e e.init u) hst')
  rw [crcOf, crcOf, crcOf, crcOf, crcFrom, crcFrom, crcFrom, crcFrom, hfeed, crcFinish_xor_xor]

/-! ### A changed byte -/

/-- What the detection of a changed byte needs of an engine: room for a byte, and a Poly whose lowest bit is set. -/
structure Engine.Detects {w : Nat} (e : Engine w) : Prop where
  width : 8 ≤ w
  oddPoly : e.poly.getLsbD 0 = true

theorem crc8j_detects : crc8j.Detects := ⟨by decide, by decide⟩
theorem crc8h2f_detects : crc8h2f.Detects := ⟨by decide, by decide⟩
theorem crc16_detects : crc16.Detects := ⟨by decide, by decide⟩
theorem crc32p4_detects : crc32p4.Detects := ⟨by decide, by decide⟩
theorem crc64_detects : crc64.Detects := ⟨by decide, by decide⟩

/-- Two byte sequences that differ in the byte at `a` and nowhere else. -/
inductive DifferAt : Nat → List Byte → List Byte → Prop
  | mk (before after : List Byte) {b b' : Byte} (h : b ≠ b') :
    DifferAt before.length (before ++ b :: after) (before ++ b' :: after)

theorem DifferAt.append_left {a : Nat} {s t : List Byte} (h : DifferAt a s t) (l : List Byte) :
    DifferAt (l.length + a) (l ++ s) (l ++ t) := by
  obtain ⟨before, after, hb⟩ := h
  simpa using DifferAt.mk (l ++ before) after hb

theorem DifferAt.append_right {a : Nat} {s t : List Byte} (h : DifferAt a s t) (l : List Byte) :
    DifferAt a (s ++ l) (t ++ l) := by
  obtain ⟨before, after, hb⟩ := h
  simpa using DifferAt.mk before (after ++ l) hb

/-- Different bytes lead from one register to different registers. -/
theorem crcByte_ne {w : Nat} {e : Engine w} (he : e.Detects) (r : BitVec w) {b b' : Byte} (h : b ≠ b') :
    crcByte e r b ≠ crcByte e r b' := by
  intro heq
  have hzero : crcByte e 0 (b ^^^ b') = 0 := by
    have hsum := crcByte_xor e r r b b'
    rwa [heq, BitVec.xor_self, BitVec.xor_self] at hsum
  rw [crcByte_eq] at hzero
  have henter := repeatTimes_eq_zero (fun _ => crcShift_eq_zero he.oddPoly) 8 _ hzero
  rw [BitVec.ofNat_eq_ofNat, BitVec.zero_xor] at henter
  exact h (BitVec.xor_eq_zero_iff.mp (crcEnter_eq_zero e he.width henter))

/-- A changed byte changes the CRC (R140 (c)): it changes the register, and the bytes behind it keep the difference. -/
theorem crcOf_ne_of_differAt {w : Nat} {e : Engine w} (he : e.Detects) {a : Nat} {s t : List Byte}
    (h : DifferAt a s t) : crcOf e s ≠ crcOf e t := by
  obtain ⟨before, after, hb⟩ := h
  intro heq
  have hfeed := crcFinish_injective e heq
  rw [crcFeed_append, crcFeed_append, crcFeed_cons, crcFeed_cons] at hfeed
  exact crcByte_ne he _ hb (crcFeed_injective he.oddPoly after hfeed)

theorem one_shiftLeft_ne_zero {k : Nat} (hk : k < 8) : (1#8 <<< k) ≠ 0 := by
  intro h
  have := congrArg (BitVec.getLsbD · k) h
  simp [hk] at this

/-- A flipped bit is a changed byte. -/
theorem differAt_flipBit {bs : List Byte} {a k : Nat} (ha : a < bs.length) (hk : k < 8) :
    DifferAt a (flipBit bs a k) bs := by
  have hne : byteOf bs a ^^^ (1#8 <<< k) ≠ byteOf bs a := by
    intro h
    refine one_shiftLeft_ne_zero hk ?_
    have := congrArg (byteOf bs a ^^^ ·) h
    simpa [← BitVec.xor_assoc] using this
  have hbs : bs = bs.take a ++ byteOf bs a :: bs.drop (a + 1) := by
    rw [byteOf, List.getD_eq_getElem _ _ ha, List.getElem_cons_drop, List.take_append_drop]
  have hlen : (bs.take a).length = a := by rw [List.length_take]; omega
  have hmk := DifferAt.mk (bs.take a) (bs.drop (a + 1)) hne
  rw [hlen, ← hbs] at hmk
  rwa [flipBit, List.set_eq_take_append_cons_drop, if_pos ha]

theorem crcOf_flipBit_ne {w : Nat} {e : Engine w} (he : e.Detects) {bs : List Byte} {a k : Nat} (ha : a < bs.length)
    (hk : k < 8) : crcOf e (flipBit bs a k) ≠ crcOf e bs := crcOf_ne_of_differAt he (differAt_flipBit ha hk)

/-- Settles O29: each of the five polynomials is odd. -/
theorem crcDetectsSingleBit : Obligations.CrcDetectsSingleBit := fun _ _ _ ha hk =>
  ⟨crcOf_flipBit_ne crc8j_detects ha hk, crcOf_flipBit_ne crc8h2f_detects ha hk, crcOf_flipBit_ne crc16_detects ha hk,
    crcOf_flipBit_ne crc32p4_detects ha hk, crcOf_flipBit_ne crc64_detects ha hk⟩

/-! ### The CRC commands -/

/-- The word of a command without a slot (R90, R91). -/
theorem hasWord_of_no_slot {c : Instr} (h : c.slot? = none) : HasWord c (opcOf c) := by
  rw [HasWord, encode, h, Option.getD_none, commandWord_toNat (opcOf_lt c) (by decide), Nat.zero_mul, Nat.add_zero]

theorem crcCommand_completes {w : Nat} {e : Engine w} {c : Instr} (hc : exec c = crcCommand e) : CrcCompletes c e := by
  intro s bs h0 h1 h2 hin hlen hbs
  have hfit : (tooWide s.arg0 32 || tooWide s.arg1 32 || tooWide s.arg2 w) = false := by
    simp only [tooWide, Bool.or_eq_false_iff, decide_eq_false_iff_not, not_le]
    exact ⟨⟨h0, h1⟩, h2⟩
  have hinside : outsideMessage s s.arg0.toNat s.arg1.toNat = false := by simpa [outsideMessage] using hin
  rw [hc, crcCommand, hfit, hinside, ← hlen, readBytes_holds hbs, BitVec.ofNat_toNat, BitVec.ofNat_toNat]
  rfl

theorem crcCommand_errors {w : Nat} {e : Engine w} {c : Instr} (hc : exec c = crcCommand e) : CrcErrors c w := by
  intro s
  rw [hc]
  refine ⟨fun hwide => ?_, fun h0 h1 h2 hout => ?_⟩
  · have hraise : (tooWide s.arg0 32 || tooWide s.arg1 32 || tooWide s.arg2 w) = true := by
      simpa only [tooWide, Bool.or_eq_true, decide_eq_true_eq, or_assoc] using hwide
    rw [crcCommand, if_pos hraise]
    rfl
  · have hfit : ¬(tooWide s.arg0 32 || tooWide s.arg1 32 || tooWide s.arg2 w) = true := by
      simp only [tooWide, Bool.or_eq_true, decide_eq_true_eq]
      omega
    have houtside : outsideMessage s s.arg0.toNat s.arg1.toNat = true := by simpa [outsideMessage] using hout
    rw [crcCommand, if_neg hfit, if_pos houtside]
    rfl

/-- Settles O30: the five commands are the one template, each with its engine. -/
theorem crcCommandsFollowRules : Obligations.CrcCommandsFollowRules :=
  ⟨⟨hasWord_of_no_slot rfl, hasWord_of_no_slot rfl, hasWord_of_no_slot rfl, hasWord_of_no_slot rfl,
      hasWord_of_no_slot rfl⟩,
    ⟨⟨rfl, rfl, rfl, rfl, rfl⟩, crcCommand_completes rfl, crcCommand_errors rfl⟩,
    ⟨⟨rfl, rfl, rfl, rfl, rfl⟩, crcCommand_completes rfl, crcCommand_errors rfl⟩,
    ⟨⟨rfl, rfl, rfl, rfl, rfl⟩, crcCommand_completes rfl, crcCommand_errors rfl⟩,
    ⟨⟨rfl, rfl, rfl, rfl, rfl⟩, crcCommand_completes rfl, crcCommand_errors rfl⟩,
    ⟨⟨rfl, rfl, rfl, rfl, rfl⟩, crcCommand_completes rfl, crcCommand_errors rfl⟩⟩

end Sys2Proof.Machine
end

section
/-! A flipped bit outside the CRC field (R140, R234 property 2): what the CRC input of a message is for each profile,
and that a changed byte of the message outside the CRC field is a changed byte of the CRC input. -/

namespace Sys2Proof.Machine

open Sys2Proof.Claims

/-! ### The CRC input of a message -/

/-- The Data ID bytes before the message's own bytes in the CRC input (R353, R373). -/
def idBefore : Slot → List Byte → List Byte
  | .p11 x, _ => x.cfg.idBytes
  | .p22 x, bs => [x.cfg.idAt (counterField (.p22 x) bs)]
  | _, _ => []

/-- The Data ID bytes behind the message's own bytes in the CRC input (R283, R293). -/
def idBehind : Slot → List Byte
  | .p5 x => [x.cfg.dataId.extractLsb' 8 8, x.cfg.dataId.extractLsb' 0 8]
  | .p6 x => [x.cfg.dataId.extractLsb' 8 8, x.cfg.dataId.extractLsb' 0 8]
  | _ => []

/-- The CRC input of a message: every byte outside the CRC field, and the Data ID where the profile adds it (R224). -/
def crcInput (x : Slot) (bs : List Byte) : List Byte :=
  idBefore x bs ++ coverOf bs (crcRange x).1 ((crcRange x).2 - (crcRange x).1) ++ idBehind x

/-- The engine of a profile's CRC (R211). -/
def engineOf : Profile → (w : Nat) × Engine w
  | .p4 | .p4m | .p8 => ⟨32, crc32p4⟩
  | .p5 | .p6 => ⟨16, crc16⟩
  | .p7 | .p7m => ⟨64, crc64⟩
  | .p11 => ⟨8, crc8EngineP11⟩
  | .p22 => ⟨8, crc8EngineP22⟩

theorem engineOf_detects (p : Profile) : (engineOf p).2.Detects := by
  cases p with
  | p4 | p4m | p8 => exact crc32p4_detects
  | p5 | p6 => exact crc16_detects
  | p7 | p7m => exact crc64_detects
  | p11 => exact crc8h2f_detects
  | p22 => exact crc8j_detects

section Frames

variable {p : Profile} {C : Type} {w : Nat} {fr : Frame w} {put : Inst C w → Slot} {x : Inst C w} {s : State}
  {bs : List Byte}

theorem FrameOf.crcAt_eq (hfr : FrameOf p fr put x) : fr.crcAt = (crcRange (put x)).1 := by cases hfr <;> rfl

theorem FrameOf.crcEnd_eq (hfr : FrameOf p fr put x) : fr.crcAt + fr.crcBytes = (crcRange (put x)).2 := by
  cases hfr <;> rfl

theorem FrameOf.crcInput_eq (hfr : FrameOf p fr put x) (bs : List Byte) : crcInput (put x) bs =
    idBefore (put x) bs ++ coverOf bs fr.crcAt fr.crcBytes ++ idBehind (put x) := by
  rw [crcInput, ← hfr.crcAt_eq, ← hfr.crcEnd_eq, Nat.add_sub_cancel_left]

/-- On a message of a legal length the CRC a frame computes is that of the CRC input (R224). -/
theorem FrameOf.crc_message (hfr : FrameOf p fr put x) (hok : (put x).Ok) (hm : Message s bs)
    (hl : LenOk (put x) s.len.toNat) : fr.crc s = .ok (crcOf (engineOf p).2 (crcInput (put x) bs)).toNat := by
  have hcover := coverBytes_message hm (hfr.local hok (hfr.lenOk_iff.mpr hl)).crcField
  have hcounter := hfr.counter_message hok hm hl
  rw [hfr.crcInput_eq]
  cases hfr with
  | p4 | p4m | p7 | p7m | p8 =>
    simp only [frameP4, frameP4M, frameP7, frameP7M, frameP8, vseqP4, vseqP4M, vseqP7, vseqP7M, vseqP8,
      headerCover_eq] at hcover ⊢
    simp only [hcover, access_ok_bind, idBefore, idBehind, List.nil_append, List.append_nil]
    rfl
  | p5 | p6 =>
    simp only [frameP5, frameP6, vseqP5, vseqP6, Nat.add_zero] at hcover ⊢
    rw [hcover]
    rfl
  | p11 =>
    simp only [frameP11, vseqP11] at hcover ⊢
    simp only [hcover, access_ok_bind, idBehind, List.append_nil]
    rfl
  | p22 =>
    simp only [frameP22, vseqP22] at hcover hcounter ⊢
    simp only [hcounter, hcover, access_ok_bind, idBehind, List.append_nil]
    rfl

/-- Reads below LEN succeed on a message. -/
theorem ReadsBelow.ok_of_message {α : Type} {f : State → Access α} (hf : ReadsBelow s.len.toNat s.len f)
    (hm : Message s bs) : ∃ v, f s = .ok v := by
  obtain ⟨-, hstop⟩ := hf s s rfl (.refl hm.fits)
  cases hv : f s with
  | ok v => exact ⟨v, rfl⟩
  | error e =>
    obtain ⟨a, -, ha, hnone⟩ := hstop e hv
    rw [message_byte hm ha] at hnone
    cases hnone

/-- A check on a message whose CRC field is not the CRC of its CRC input ends in CrcError or DataLengthError (R230). -/
theorem FrameOf.check_of_wrong_crc (hfr : FrameOf p fr put x) (hok : (put x).Ok) (hm : Message s bs)
    (hne : field bs fr.crcAt fr.crcBytes ≠ (crcOf (engineOf p).2 (crcInput (put x) bs)).toNat) (i : Nat) :
    ∃ t, check fr put x i s = .next t ∧ (t.status = 4 ∨ t.status = 6) := by
  by_cases hl : fr.lenOk s.len.toNat = true
  · have hlocal := hfr.local hok hl
    have hlen := hfr.lenOk_iff.mp hl
    obtain ⟨lengthOk, hlength⟩ := hlocal.lengthAgrees.ok_of_message hm
    obtain ⟨idOk, hid⟩ := hlocal.idAgrees.ok_of_message hm
    have hcheck := check_message (put := put) (x := x) (i := i) (fun _ => hlength)
      (fun _ => memRead_message hm hlocal.crcField) (fun _ => hfr.crc_message hok hm hlen) (fun _ => hid)
      (fun _ => hfr.counter_message hok hm hlen)
    rw [if_neg (by simp [hl]), if_pos hne] at hcheck
    refine ⟨_, hcheck, ?_⟩
    cases lengthOk with
    | false => exact .inr rfl
    | true => exact .inl rfl
  · exact ⟨_, if_neg hl, .inr rfl⟩

end Frames

/-! ### A changed byte outside the CRC field -/

section DifferAt

variable {a c n : Nat} {bs bs' : List Byte}

/-- A field without the changed byte keeps its value. -/
theorem DifferAt.field_eq (h : DifferAt a bs bs') (hout : a < c ∨ c + n ≤ a) : field bs c n = field bs' c n := by
  obtain ⟨before, after, hb⟩ := h
  rcases hout with hlt | hle
  · obtain ⟨d, rfl⟩ : ∃ d, c = before.length + (d + 1) := ⟨c - before.length - 1, by omega⟩
    simp only [field, slice, List.drop_length_add_append, List.drop_succ_cons]
  · rw [field, slice, field, slice, List.drop_append_of_le_length (by omega), List.drop_append_of_le_length (by omega),
      List.take_append_of_le_length (by rw [List.length_drop]; omega),
      List.take_append_of_le_length (by rw [List.length_drop]; omega)]

/-- A changed byte outside the `n` bytes at `c` is a changed byte of the others. -/
theorem DifferAt.exists_coverOf (h : DifferAt a bs bs') (hout : a < c ∨ c + n ≤ a) :
    ∃ a', DifferAt a' (coverOf bs c n) (coverOf bs' c n) := by
  obtain ⟨before, after, hb⟩ := h
  unfold coverOf
  rcases hout with hlt | hle
  · obtain ⟨d, rfl⟩ : ∃ d, c = before.length + (d + 1) := ⟨c - before.length - 1, by omega⟩
    rw [Nat.add_assoc, Nat.add_right_comm d 1 n]
    simp only [List.take_length_add_append, List.drop_length_add_append, List.take_succ_cons, List.drop_succ_cons,
      List.append_assoc, List.cons_append]
    exact ⟨_, .mk before _ hb⟩
  · rw [List.take_append_of_le_length (by omega), List.take_append_of_le_length (by omega),
      List.drop_append_of_le_length hle, List.drop_append_of_le_length hle, ← List.append_assoc, ← List.append_assoc]
    exact ⟨_, .mk _ after hb⟩

/-- The Data ID bytes before the message are the same where the counter of profile 22 selects an equal list entry. -/
theorem idBefore_congr {x : Slot} (h : ∀ y, x = .p22 y →
    y.cfg.idList.toList[counterField x bs]? = y.cfg.idList.toList[counterField x bs']?) :
    idBefore x bs = idBefore x bs' := by
  cases x with
  | p22 y => simp only [idBefore, P22Cfg.idAt, List.getD_eq_getElem?_getD, h y rfl]
  | _ => rfl

/-- A changed byte outside the CRC field is a changed byte of the CRC input. -/
theorem DifferAt.exists_crcInput {x : Slot} (h : DifferAt a bs bs') (hid : idBefore x bs = idBefore x bs')
    (hout : a < (crcRange x).1 ∨ (crcRange x).2 ≤ a) : ∃ a', DifferAt a' (crcInput x bs) (crcInput x bs') := by
  have hrange : (crcRange x).1 ≤ (crcRange x).2 := by cases x <;> simp [crcRange]
  obtain ⟨a', hcover⟩ := h.exists_coverOf (n := (crcRange x).2 - (crcRange x).1)
    (hout.imp_right fun hle => by rwa [Nat.add_sub_cancel' hrange])
  rw [crcInput, crcInput, hid]
  exact ⟨_, (hcover.append_left _).append_right _⟩

end DifferAt

/-- Settles O56: the flip leaves the CRC field, which was the CRC of the input, and changes the CRC of the input. -/
theorem singleBitFlipIsDetected : Obligations.SingleBitFlipIsDetected := by
  intro p i s s' bs x a k t hs hm hx hp ha hk hout hentry ht hst hslots _ hm'
  obtain ⟨C, w, fr, put, y, hfr, rfl⟩ := exists_frameOf hp
  have hok := hs.slot_ok hx
  rw [(exec_checkOf p i s).of_frame hfr hx] at ht
  rw [(exec_checkOf p i s').of_frame hfr (hslots ▸ hx)]
  have hagree : field bs fr.crcAt fr.crcBytes = (crcOf (engineOf p).2 (crcInput (put y) bs)).toNat := by
    by_contra hne
    obtain ⟨u, hu, hcode⟩ := hfr.check_of_wrong_crc hok hm hne i
    obtain rfl := Host.Outcome.next.inj (hu.symm.trans ht)
    rcases hcode with hcode | hcode <;> simp [hcode] at hst
  have hflip := differAt_flipBit ha hk
  obtain ⟨a', hinput⟩ := hflip.exists_crcInput (idBefore_congr hentry) hout
  refine hfr.check_of_wrong_crc hok hm' (fun heq => ?_) i
  rw [hflip.field_eq (by rwa [hfr.crcEnd_eq, hfr.crcAt_eq]), hagree] at heq
  exact crcOf_ne_of_differAt (engineOf_detects p) hinput (BitVec.eq_of_toNat_eq heq.symm)

end Sys2Proof.Machine
end


section
/-! The field codec (R160 to R176): the template of the ten codec commands, with its three tests in order (R165);
what the read commands give and the write commands store (R166 to R175); and a read after a write (R176 (a)). -/

namespace Sys2Proof.Machine

open Sys2Proof.Claims

/-! ### The shared template -/

/-- ARG0 has more than 32 bits or ARG1 more than `width`; with `width` 0 the command has no value operand (R165). -/
def operandsTooWide (width : Nat) (s : State) : Bool :=
  tooWide s.arg0 32 || (decide (width ≠ 0) && tooWide s.arg1 width)

/-- The shape of the ten codec commands: the tests of operand width, alignment and bounds in this order, then the
accesses (R165). -/
def codecCommand (align n width : Nat) (accesses : State → Access State) (s : State) : Result :=
  if operandsTooWide width s then raise s .invalidRange
  else if decide (s.arg0.toNat % align ≠ 0) then raise s .misalignedOffset
  else if outsideMessage s (s.arg0.toNat / 8) n then raise s .dataLengthError
  else run (accesses s)

/-- The accesses of a read command, from `read` at the offset in ARG0 on. -/
def readAccesses (read : Nat → State → Access Nat) (s : State) : Access State := do
  let v ← read s.arg0.toNat s
  .ok ((s.setRes0 (BitVec.ofNat 64 v)).setErr noError)

/-- The accesses of a write command, where `write` stores ARG1 at the offset in ARG0. -/
def writeAccesses (write : Nat → Nat → State → Access State) (s : State) : Access State := do
  let s' ← write s.arg0.toNat s.arg1.toNat s
  .ok (s'.setErr noError)

/-- What `WR8 .. WR64` do at a bit offset. -/
def writeAt (n o v : Nat) (s : State) : Access State := memWrite s (o / 8) n v

/-- What `WRNIB` does at a bit offset. -/
def writeNibbleAt (o v : Nat) (s : State) : Access State := nibWrite s o v

theorem operandsTooWide_iff {width : Nat} {s : State} : operandsTooWide width s = true ↔
    2 ^ 32 ≤ s.arg0.toNat ∨ (width ≠ 0 ∧ 2 ^ width ≤ s.arg1.toNat) := by
  simp only [operandsTooWide, tooWide, Bool.or_eq_true, Bool.and_eq_true, decide_eq_true_eq]

theorem not_operandsTooWide_iff {width : Nat} {s : State} : ¬operandsTooWide width s = true ↔
    s.arg0.toNat < 2 ^ 32 ∧ (width = 0 ∨ s.arg1.toNat < 2 ^ width) := by
  rw [operandsTooWide_iff]
  omega

theorem readCommand_eq (align n : Nat) (read : Nat → State → Access Nat) :
    readCommand align n read = codecCommand align n 0 (readAccesses read) := by
  funext s
  have hwidth : operandsTooWide 0 s = tooWide s.arg0 32 := by simp [operandsTooWide]
  rw [codecCommand, hwidth]
  rfl

theorem writeField_eq {n : Nat} (hn : n ≠ 0) :
    writeField n = codecCommand 8 n (8 * n) (writeAccesses (writeAt n)) := by
  funext s
  have hwidth : operandsTooWide (8 * n) s = (tooWide s.arg0 32 || tooWide s.arg1 (8 * n)) := by
    simp [operandsTooWide, hn]
  rw [codecCommand, hwidth]
  rfl

theorem execWrnib_eq : execWrnib = codecCommand 4 1 4 (writeAccesses writeNibbleAt) := rfl

section

variable {align n width bits : Nat} {accesses : State → Access State} {s t : State}

/-- A codec command that passes its three tests performs its accesses. -/
theorem codecCommand_of_passed (h0 : s.arg0.toNat < 2 ^ 32) (h1 : width = 0 ∨ s.arg1.toNat < 2 ^ width)
    (haligned : s.arg0.toNat % align = 0) (hinside : s.arg0.toNat / 8 + n ≤ s.len.toNat) :
    codecCommand align n width accesses s = run (accesses s) := by
  have hbounds : ¬outsideMessage s (s.arg0.toNat / 8) n = true := by simpa [outsideMessage] using hinside
  rw [codecCommand, if_neg (not_operandsTooWide_iff.mpr ⟨h0, h1⟩), if_neg (by simpa using haligned), if_neg hbounds]

/-- A codec command that ends without an error has passed its three tests and performed its accesses. -/
theorem codecCommand_completed (h : codecCommand align n width accesses s = .next t) (he : t.err = noError) :
    s.arg0.toNat < 2 ^ 32 ∧ (width = 0 ∨ s.arg1.toNat < 2 ^ width) ∧ s.arg0.toNat % align = 0 ∧
      s.arg0.toNat / 8 + n ≤ s.len.toNat ∧ accesses s = .ok t := by
  have hraise (k : ErrKind) : raise s k ≠ .next t := by
    intro hk
    obtain rfl : s.setErr k.code = t := by simpa using hk
    exact errKind_code_ne_noError k he
  unfold codecCommand at h
  split at h
  next => exact absurd h (hraise _)
  next hfit =>
  split at h
  next => exact absurd h (hraise _)
  next haligned =>
  split at h
  next => exact absurd h (hraise _)
  next hinside =>
    obtain ⟨h0, h1⟩ := not_operandsTooWide_iff.mp hfit
    exact ⟨h0, h1, by simpa using haligned, by simpa [outsideMessage] using hinside, run_eq_next.mp h⟩

/-- The first of the three tests that fails gives the error, where a field of `bits` bits that is aligned and passes the
end of the message has one of its `n` bytes outside. -/
theorem codecCommand_errors {c : Instr} (hc : exec c = codecCommand align n width accesses)
    (hbits : ∀ o l, o % align = 0 → 8 * l < o + bits → l < o / 8 + n) : CodecErrors c bits align width := by
  intro s
  rw [hc]
  refine ⟨fun hwide => ?_, fun h0 h1 hmis => ?_, fun h0 h1 haligned hout => ?_⟩
  · rw [codecCommand, if_pos (operandsTooWide_iff.mpr hwide)]
    rfl
  · rw [codecCommand, if_neg (not_operandsTooWide_iff.mpr ⟨h0, h1⟩), if_pos (by simpa using hmis)]
    rfl
  · have hbounds : outsideMessage s (s.arg0.toNat / 8) n = true := by
      simpa [outsideMessage] using hbits _ _ haligned hout
    rw [codecCommand, if_neg (not_operandsTooWide_iff.mpr ⟨h0, h1⟩), if_neg (by simpa using haligned), if_pos hbounds]
    rfl

end

/-! ### The read commands -/

theorem readField_errors {c : Instr} {n : Nat} (hc : exec c = readField n) : CodecErrors c (8 * n) 8 0 :=
  codecCommand_errors (hc.trans ((readField_eq n).trans (readCommand_eq ..))) fun o l _ _ => by omega

theorem rdnib_errors : CodecErrors .rdnib 4 4 0 :=
  codecCommand_errors (n := 1) (execRdnib_eq.trans (readCommand_eq ..)) fun o l _ _ => by omega

theorem readField_readCompletes {c : Instr} {n : Nat} (hc : exec c = readField n) : ReadCompletes c n := by
  intro s bs h0 haligned hinside hlen hbs
  rw [hc, readField_eq]
  have hread : readAt n s.arg0.toNat s = .ok (beValue bs) :=
    memRead_eq_ok.mpr ⟨bs, hlen ▸ readBytes_holds hbs, rfl⟩
  exact readCommand_completes h0 haligned hinside hread

theorem rdnib_completes {s : State} {b : Byte} (h0 : s.arg0.toNat < 2 ^ 32) (haligned : s.arg0.toNat % 4 = 0)
    (hinside : s.arg0.toNat / 8 < s.len.toNat) (hfits : s.len.toNat ≤ s.bufBytes)
    (hb : s.buf.get? (s.arg0.toNat / 8) = some b) :
    exec .rdnib s = .next ((s.setRes0 (BitVec.ofNat 64 (nibbleOf s.arg0.toNat b))).setErr 0) :=
  readCommand_completes (n := 1) (read := nibbleAt) h0 haligned hinside
    (nibRead_eq_ok.mpr ⟨b, hinside.trans_le hfits, hb, rfl⟩)

/-- Settles O31: the four byte reads are one template, and the nibble read has the same tests. -/
theorem readCommandsFollowRules : Obligations.ReadCommandsFollowRules :=
  ⟨⟨hasWord_of_no_slot rfl, hasWord_of_no_slot rfl, hasWord_of_no_slot rfl, hasWord_of_no_slot rfl,
      hasWord_of_no_slot rfl⟩,
    ⟨readField_readCompletes rfl, readField_errors (n := 1) rfl⟩,
    ⟨readField_readCompletes rfl, readField_errors (n := 2) rfl⟩,
    ⟨readField_readCompletes rfl, readField_errors (n := 4) rfl⟩,
    ⟨readField_readCompletes rfl, readField_errors (n := 8) rfl⟩,
    rdnib_errors, fun _ _ => rdnib_completes⟩

/-! ### The write commands -/

theorem writeField_errors {c : Instr} {n : Nat} (hn : n ≠ 0) (hc : exec c = writeField n) :
    CodecErrors c (8 * n) 8 (8 * n) :=
  codecCommand_errors (hc.trans (writeField_eq hn)) fun o l _ _ => by omega

theorem wrnib_errors : CodecErrors .wrnib 4 4 4 :=
  codecCommand_errors (n := 1) execWrnib_eq fun o l _ _ => by omega

/-- The bytes of a number, the first the most significant (R60, R161). -/
theorem beBytes_getElem? {n k : Nat} (v : Nat) (hk : k < n) :
    (beBytes n v)[k]? = some (BitVec.ofNat 8 (v / 256 ^ (n - 1 - k) % 256)) := by
  have hmod (x : Nat) : BitVec.ofNat 8 (x % 256) = BitVec.ofNat 8 x := BitVec.eq_of_toNat_eq (by simp)
  rw [hmod, beBytes, List.getElem?_map, List.getElem?_range hk, Option.map_some]

/-- A field inside the buffer can be written. -/
theorem memWrite_ok {s : State} {a n : Nat} (v : Nat) (h : a + n ≤ s.bufBytes) : ∃ t, memWrite s a n v = .ok t :=
  writeBytes_ok (by rwa [beBytes_length])

/-- A write command that passes its three tests and can store its value completes with the value stored. -/
theorem writeCommand_completes {c : Instr} {align n width : Nat} {write : Nat → Nat → State → Access State}
    {s t : State} (hc : exec c = codecCommand align n width (writeAccesses write)) (h0 : s.arg0.toNat < 2 ^ 32)
    (h1 : s.arg1.toNat < 2 ^ width) (haligned : s.arg0.toNat % align = 0)
    (hinside : s.arg0.toNat / 8 + n ≤ s.len.toNat) (ht : write s.arg0.toNat s.arg1.toNat s = .ok t) :
    exec c s = .next (t.setErr noError) := by
  rw [hc, codecCommand_of_passed h0 (.inr h1) haligned hinside, writeAccesses, ht, access_ok_bind, run_ok]

theorem writeField_writeCompletes {c : Instr} {n : Nat} (hn : n ≠ 0) (hc : exec c = writeField n) :
    WriteCompletes c n := by
  intro s hfits h0 h1 haligned hinside
  obtain ⟨t, ht⟩ := memWrite_ok s.arg1.toNat (hinside.trans hfits)
  obtain ⟨m, rfl, hget, -, -⟩ := memWrite_eq_ok ht
  refine ⟨m, writeCommand_completes (hc.trans (writeField_eq hn)) h0 h1 haligned hinside ht, fun k hk => ?_,
    fun a ha => ?_⟩
  · rw [hget, if_pos (by omega), Nat.add_sub_cancel_left, beBytes_getElem? _ hk]
  · rw [hget, if_neg (by omega)]

/-- `WRNIB` replaces the nibble ARG0 names in its byte, and no other byte (R175). -/
theorem wrnib_completes {s : State} {b : Byte} (hfits : s.len.toNat ≤ s.bufBytes) (h0 : s.arg0.toNat < 2 ^ 32)
    (h1 : s.arg1.toNat < 16) (haligned : s.arg0.toNat % 4 = 0) (hinside : s.arg0.toNat / 8 < s.len.toNat)
    (hb : s.buf.get? (s.arg0.toNat / 8) = some b) :
    exec .wrnib s = .next ((s.setBuf (s.buf.set (s.arg0.toNat / 8)
      (withNibble s.arg0.toNat b s.arg1.toNat))).setErr 0) := by
  have hwrite : writeNibbleAt s.arg0.toNat s.arg1.toNat s = .ok _ :=
    nibWrite_eq_ok.mpr ⟨b, hinside.trans_le hfits, hb, rfl⟩
  exact writeCommand_completes execWrnib_eq h0 h1 haligned hinside hwrite

/-- Settles O32: the four byte writes are one template; the nibble write has the same tests and stores one byte, of
which `withNibble` says which four bits are ARG1 and which are kept. -/
theorem writeCommandsFollowRules : Obligations.WriteCommandsFollowRules := by
  refine ⟨⟨hasWord_of_no_slot rfl, hasWord_of_no_slot rfl, hasWord_of_no_slot rfl, hasWord_of_no_slot rfl,
      hasWord_of_no_slot rfl⟩,
    ⟨writeField_writeCompletes (by decide) rfl, writeField_errors (n := 1) (by decide) rfl⟩,
    ⟨writeField_writeCompletes (by decide) rfl, writeField_errors (n := 2) (by decide) rfl⟩,
    ⟨writeField_writeCompletes (by decide) rfl, writeField_errors (n := 4) (by decide) rfl⟩,
    ⟨writeField_writeCompletes (by decide) rfl, writeField_errors (n := 8) (by decide) rfl⟩,
    wrnib_errors, ?_⟩
  intro s b hfits h0 h1 haligned hinside hb
  have hbyte := withNibble_toNat s.arg0.toNat b h1
  refine ⟨_, _, wrnib_completes hfits h0 h1 haligned hinside hb, Memory.get?_set_same .., fun a ha =>
    Memory.get?_set_other _ _ ha, fun hlow => ?_, fun hhigh => ?_⟩
  · rw [hbyte, if_pos hlow]
    omega
  · rw [hbyte, if_neg (by omega)]
    omega

/-! ### A read after a write -/

/-- `MemRead` after `MemWrite` of the same field gives the number, as far as it fits. -/
theorem memRead_memWrite {s t : State} {a n v : Nat} (h : memWrite s a n v = .ok t) :
    memRead t a n = .ok (v % 256 ^ n) := by
  obtain ⟨hroom, m, rfl, hget, -, -⟩ := writeBytes_eq_ok h
  refine memRead_eq_ok.mpr ⟨beBytes n v, readBytes_eq_ok.mpr ⟨beBytes_length n v, fun k hk => ?_⟩, beValue_beBytes n v⟩
  have hfits : a + n ≤ s.bufBytes := by
    rcases hroom with hnil | hfits
    · have hlen := congrArg List.length hnil
      rw [beBytes_length, List.length_nil] at hlen
      omega
    · rwa [beBytes_length] at hfits
  refine ⟨by rw [State.setBuf_bufBytes]; omega, ?_⟩
  rw [State.setBuf_buf, hget, beBytes_length, if_pos (by omega), Nat.add_sub_cancel_left]

/-- `NibRead` after `NibWrite` of the same nibble gives the value. -/
theorem nibRead_nibWrite {s t : State} {o v : Nat} (hv : v < 16) (h : nibWrite s o v = .ok t) :
    nibRead t o = .ok v := by
  obtain ⟨b, hlt, -, rfl⟩ := nibWrite_eq_ok.mp h
  exact nibRead_eq_ok.mpr ⟨withNibble o b v, hlt, Memory.get?_set_same .., (nibbleOf_withNibble o b hv).symm⟩

/-- `write` changes only the buffer, and `read` at the same offset then gives the value, where it fits `width` bits. -/
def RoundTrips (width : Nat) (write : Nat → Nat → State → Access State) (read : Nat → State → Access Nat) : Prop :=
  ∀ s t o v, v < 2 ^ width → write o v s = .ok t → (∃ m, t = s.setBuf m) ∧ read o t = .ok v

theorem writeAt_roundTrips (n : Nat) : RoundTrips (8 * n) (writeAt n) (readAt n) := by
  intro s t o v hv h
  obtain ⟨m, rfl, -⟩ := memWrite_eq_ok h
  have hlt : v < 256 ^ n := by rwa [pow_mul] at hv
  have hread := memRead_memWrite h
  rw [Nat.mod_eq_of_lt hlt] at hread
  exact ⟨⟨m, rfl⟩, hread⟩

theorem writeNibbleAt_roundTrips : RoundTrips 4 writeNibbleAt nibbleAt := by
  intro s t o v hv h
  obtain ⟨b, -, -, rfl⟩ := nibWrite_eq_ok.mp h
  exact ⟨⟨_, rfl⟩, nibRead_nibWrite hv h⟩

/-- ERR is not part of the buffer. -/
theorem sameBuffer_setErr (s : State) (e : BitVec 8) : SameBuffer s (s.setErr e) := ⟨rfl, rfl, rfl⟩

/-- A write command that completes has passed the tests of the read command of the same width, and leaves ARG0 and LEN,
so the read command passes them too. -/
theorem readsBack_of_roundTrips {c d : Instr} {align n width : Nat} {write : Nat → Nat → State → Access State}
    {read : Nat → State → Access Nat} (hwidth : width ≠ 0)
    (hc : exec c = codecCommand align n width (writeAccesses write)) (hd : exec d = readCommand align n read)
    (hread : ∀ o, ReadsBuffer (read o)) (hround : RoundTrips width write read) : ReadsBack c d := by
  intro s t ht he
  rw [hc] at ht
  obtain ⟨h0, h1, haligned, hinside, hacc⟩ := codecCommand_completed ht he
  obtain ⟨u, hu, ht⟩ := access_bind_eq_ok.mp hacc
  obtain ⟨⟨m, rfl⟩, hv⟩ := hround _ _ _ _ (h1.resolve_left hwidth) hu
  obtain rfl := Except.ok.inj ht
  have hv' := (hread _ _ _ (sameBuffer_setErr (s.setBuf m) noError)).trans hv
  rw [hd]
  exact ⟨_, readCommand_completes (s := (s.setBuf m).setErr noError) h0 haligned hinside hv',
    BitVec.ofNat_toNat .., rfl⟩

theorem writeField_readsBack {c d : Instr} {n : Nat} (hn : n ≠ 0) (hc : exec c = writeField n)
    (hd : exec d = readField n) : ReadsBack c d :=
  readsBack_of_roundTrips (by omega) (hc.trans (writeField_eq hn)) (hd.trans (readField_eq n)) (readsBuffer_readAt n)
    (writeAt_roundTrips n)

/-- Settles O33: the five pairs by the one argument, from what the accesses give. -/
theorem readAfterWrite : Obligations.ReadAfterWrite :=
  ⟨writeField_readsBack (n := 1) (by decide) rfl rfl, writeField_readsBack (n := 2) (by decide) rfl rfl,
    writeField_readsBack (n := 4) (by decide) rfl rfl, writeField_readsBack (n := 8) (by decide) rfl rfl,
    readsBack_of_roundTrips (by decide) execWrnib_eq execRdnib_eq readsBuffer_nibbleAt writeNibbleAt_roundTrips⟩

end Sys2Proof.Machine
end

section
/-! The counter validator (R190 to R200): the classification by the distance from the previous counter to the received
one, the four validator commands, and a check on a receiver without a previous counter. -/

namespace Sys2Proof.Machine

open Sys2Proof.Claims

/-! ### The classification -/

section

variable {w p r d : Nat}

/-- The distance the validator computes is the one number below `2^w` that leads from P to R (R191, R200). -/
theorem counterDelta_eq (hp : p < 2 ^ w) (hd : d < 2 ^ w) (h : (p + d) % 2 ^ w = r) : counterDelta w p r = d := by
  subst h
  unfold counterDelta
  by_cases hwrap : p + d < 2 ^ w
  · rw [Nat.mod_eq_of_lt hwrap, show p + d + 2 ^ w - p = d + 2 ^ w by omega, Nat.add_mod_right, Nat.mod_eq_of_lt hd]
  · have hmod : (p + d) % 2 ^ w = p + d - 2 ^ w := by
      rw [Nat.mod_eq_sub_mod (by omega), Nat.mod_eq_of_lt (by omega)]
    rw [hmod, show p + d - 2 ^ w + 2 ^ w - p = d by omega, Nat.mod_eq_of_lt hd]

/-- Every received counter lies at a distance from the previous one. -/
theorem exists_distance (hp : p < 2 ^ w) (hr : r < 2 ^ w) : ∃ d, d < 2 ^ w ∧ (p + d) % 2 ^ w = r := by
  by_cases hle : p ≤ r
  · exact ⟨r - p, by omega, by rw [Nat.add_sub_cancel' hle, Nat.mod_eq_of_lt hr]⟩
  · exact ⟨r + 2 ^ w - p, by omega, by
      rw [show p + (r + 2 ^ w - p) = r + 2 ^ w by omega, Nat.add_mod_right, Nat.mod_eq_of_lt hr]⟩

/-- The status of a distance (R193). -/
def statusOfDistance (delta d : Nat) : Status :=
  if d = 0 then .repeated else if d = 1 then .ok else if d ≤ delta then .okSomeLost else .wrongSequence

/-- The new P of a distance: on Repeated and WrongSequence P is not advanced (R193). -/
def counterAfter {α : Type} (delta d : Nat) (p r : α) : α := if d = 0 ∨ (d ≠ 1 ∧ delta < d) then p else r

theorem cval_some (hp : p < 2 ^ w) (hd : d < 2 ^ w) (h : (p + d) % 2 ^ w = r) (delta : Nat) :
    cval w delta (some p) r = (statusOfDistance delta d, counterAfter delta d p r) := by
  simp only [cval, counterDelta_eq hp hd h, statusOfDistance, counterAfter]
  by_cases h0 : d = 0
  · simp [h0]
  by_cases h1 : d = 1
  · simp [h1]
  by_cases h2 : d ≤ delta
  · simp [h0, h1, h2]
  · simp [h0, h1, h2, not_le.mp h2]

end

/-- Settles O36: `cval_some` at each of the four ranges of the distance. -/
theorem counterClassification : Obligations.CounterClassification := by
  refine ⟨fun _ _ _ => rfl, fun w delta p r d hp _ hd h => ?_⟩
  rw [cval_some hp hd h]
  unfold statusOfDistance counterAfter
  refine ⟨fun h0 => ?_, fun h1 => ?_, fun h2 hle => ?_, fun h2 hlt => ?_⟩
  · rw [if_pos h0, if_pos (.inl h0)]
  · rw [if_neg (by omega), if_pos h1, if_neg (by omega)]
  · rw [if_neg (by omega), if_neg (by omega), if_pos hle, if_neg (by omega)]
  · rw [if_neg (by omega), if_neg (by omega), if_neg (by omega), if_pos (by omega)]

/-! ### The validator commands -/

/-- An operand of a validator command of width `w` does not fit; P is not looked at where ARG3 is 0 (R195). -/
def CvalMisfit (w : Nat) (s : State) : Prop :=
  2 ^ w ≤ s.arg1.toNat ∨ 2 ^ 32 ≤ s.arg2.toNat ∨ 2 ≤ s.arg3.toNat ∨ (s.arg3 = 1 ∧ 2 ^ w ≤ s.arg0.toNat)

/-- P of a validator command, where ARG3 says that there is one (R195). -/
def previousCounter (s : State) : Option Nat := if s.arg3 = 1 then some s.arg0.toNat else none

theorem cvalCommand_of_misfit {w : Nat} {s : State} (h : CvalMisfit w s) : cvalCommand w s = .next (s.setErr 1) := by
  unfold cvalCommand
  split
  next => rfl
  next hothers =>
    simp only [tooWide, Bool.or_eq_true, decide_eq_true_eq, not_or, not_le, pow_one] at hothers
    have hp : s.arg3 = 1 ∧ 2 ^ w ≤ s.arg0.toNat :=
      ((h.resolve_left (by omega)).resolve_left (by omega)).resolve_left (by omega)
    rw [if_pos (by simpa [tooWide] using hp)]
    rfl

theorem cvalCommand_of_fit {w : Nat} {s : State} (h : ¬CvalMisfit w s) : cvalCommand w s = .next
    ((((s.setStatus (cval w s.arg2.toNat (previousCounter s) s.arg1.toNat).1.code).setRes0
      (BitVec.ofNat 64 (cval w s.arg2.toNat (previousCounter s) s.arg1.toNat).2)).setRes1 1).setErr 0) := by
  simp only [CvalMisfit, not_or, not_le, not_and] at h
  obtain ⟨h1, h2, h3, h0⟩ := h
  have hfit : (tooWide s.arg1 w || tooWide s.arg2 32 || tooWide s.arg3 1) = false := by
    simp only [tooWide, pow_one, Bool.or_eq_false_iff, decide_eq_false_iff_not, not_le]
    exact ⟨⟨h1, h2⟩, h3⟩
  have hfit0 : ¬(decide (s.arg3 = 1) && tooWide s.arg0 w) = true := by
    simpa [tooWide] using h0
  rw [cvalCommand, hfit, if_neg (by decide), if_neg hfit0]
  rfl

theorem statusOfDistance_code (delta d : Nat) : (statusOfDistance delta d).code =
    if d = 0 then 2 else if d = 1 then 0 else if d ≤ delta then 1 else 3 := by
  simp only [statusOfDistance, apply_ite Status.code]
  rfl

theorem cvalCommand_completes {c : Instr} {w : Nat} (hc : exec c = cvalCommand w) : CvalCompletes c w := by
  intro s h1 h2
  rw [hc]
  refine ⟨fun h3 => ?_, fun h3 h0 d hd h => ?_⟩
  · have hfit : ¬CvalMisfit w s := by simpa [CvalMisfit, h3, h1] using h2
    have hprev : previousCounter s = none := by simp [previousCounter, h3]
    rw [cvalCommand_of_fit hfit, hprev, cval, BitVec.ofNat_toNat, BitVec.setWidth_eq]
    rfl
  · have hfit : ¬CvalMisfit w s := by simpa [CvalMisfit, h3, h0, h1] using h2
    have hprev : previousCounter s = some s.arg0.toNat := if_pos h3
    have hnew : BitVec.ofNat 64 (counterAfter s.arg2.toNat d s.arg0.toNat s.arg1.toNat) =
        counterAfter s.arg2.toNat d s.arg0 s.arg1 := by
      simp only [counterAfter, apply_ite (BitVec.ofNat 64), BitVec.ofNat_toNat, BitVec.setWidth_eq]
    rw [cvalCommand_of_fit hfit, hprev, cval_some h0 hd h, statusOfDistance_code, hnew]
    rfl

theorem cvalCommand_errors {c : Instr} {w : Nat} (hc : exec c = cvalCommand w) : CvalErrors c w :=
  fun _ h => hc ▸ cvalCommand_of_misfit h

/-- Settles O37: the four commands are the one template, each with its width. -/
theorem cvalCommandsFollowRules : Obligations.CvalCommandsFollowRules :=
  ⟨⟨hasWord_of_no_slot rfl, hasWord_of_no_slot rfl, hasWord_of_no_slot rfl, hasWord_of_no_slot rfl⟩,
    ⟨cvalCommand_completes rfl, cvalCommand_errors rfl⟩, ⟨cvalCommand_completes rfl, cvalCommand_errors rfl⟩,
    ⟨cvalCommand_completes rfl, cvalCommand_errors rfl⟩, ⟨cvalCommand_completes rfl, cvalCommand_errors rfl⟩⟩

/-! ### The first reception -/

/-- Settles O24: a check ends with a finding, which leaves the slots, or in the counter stage, where the validator
without a previous counter accepts. -/
theorem firstReceptionIsOk : Obligations.FirstReceptionIsOk := by
  intro p i s t x hi hx hrx h
  obtain ⟨C, w, fr, put, y, hfr, rfl⟩ := exists_frameOf hx
  rw [(exec_checkOf p i s).of_frame hfr hi] at h
  rcases check_cases h with ⟨st, hst, rfl⟩ | ⟨r, -, -, rfl⟩
  · exact .inr ⟨finding_code_ge hst, rfl⟩
  · have hprev : y.rx.map BitVec.toNat = none := (hfr.rxOf_put y).symm.trans hrx
    have hlt := (List.getElem?_eq_some_iff.mp hi).1
    refine .inl ⟨by simp [counterStage, hprev, cval, Status.code], ?_⟩
    simp [counterStage, hlt, hfr.rxOf_put]

end Sys2Proof.Machine
end

section
/-! Fields at their places: a profile's protect writes each of its fields to a place of the message, and what is
written to places that lie apart is all read back. -/

namespace Sys2Proof.Machine

/-! ### Places -/

/-- Where a field of a message lies: `n` bytes from byte `a` on, or the nibble at bit offset `o` (R13). -/
inductive Place where
  | bytes (a n : Nat)
  | nibble (o : Nat)

/-- What a field holds: `MemRead` or `NibRead` (R13). -/
def Place.read : Place → State → Access Nat
  | .bytes a n, s => memRead s a n
  | .nibble o, s => nibRead s o

/-- A field set: `MemWrite` or `NibWrite` (R13). -/
def Place.write : Place → Nat → State → Access State
  | .bytes a n, v, s => memWrite s a n v
  | .nibble o, v, s => nibWrite s o v

/-- The numbers a field can hold are those below this one. -/
def Place.capacity : Place → Nat
  | .bytes _ n => 256 ^ n
  | .nibble _ => 16

/-- Two fields share no bit. -/
def Place.Apart : Place → Place → Prop
  | .bytes a n, .bytes b k => a + n ≤ b ∨ b + k ≤ a
  | .bytes a n, .nibble o => o / 8 < a ∨ a + n ≤ o / 8
  | .nibble o, .bytes a n => o / 8 < a ∨ a + n ≤ o / 8
  | .nibble o, .nibble o' => o / 8 ≠ o' / 8 ∨ (o % 8 = 0) ≠ (o' % 8 = 0)

theorem Place.read_write {q : Place} {v : Nat} {s t : State} (hv : v < q.capacity) (h : q.write v s = .ok t) :
    q.read t = .ok v := by
  cases q with
  | bytes a n => exact (memRead_memWrite h).trans (congrArg _ (Nat.mod_eq_of_lt hv))
  | nibble o => exact nibRead_nibWrite hv h

/-- Bytes that a state has kept are read as before. -/
theorem memRead_kept {s t : State} {a n v : Nat} (hb : t.bufBytes = s.bufBytes)
    (hkept : ∀ x, a ≤ x → x < a + n → t.buf.get? x = s.buf.get? x) (h : memRead s a n = .ok v) :
    memRead t a n = .ok v := by
  obtain ⟨bs, hbs, rfl⟩ := memRead_eq_ok.mp h
  obtain ⟨hlen, hbyte⟩ := readBytes_eq_ok.mp hbs
  refine memRead_eq_ok.mpr ⟨bs, readBytes_eq_ok.mpr ⟨hlen, fun k hk => ?_⟩, rfl⟩
  rw [hb, hkept _ (by omega) (by omega)]
  exact hbyte k hk

/-- A nibble whose byte a state has kept is read as before. -/
theorem nibRead_kept {s t : State} {o v : Nat} (hb : t.bufBytes = s.bufBytes)
    (hkept : t.buf.get? (o / 8) = s.buf.get? (o / 8)) (h : nibRead s o = .ok v) : nibRead t o = .ok v := by
  obtain ⟨b, hlt, hget, hv⟩ := nibRead_eq_ok.mp h
  exact nibRead_eq_ok.mpr ⟨b, hb ▸ hlt, hkept.trans hget, hv⟩

/-- A nibble keeps its value when another one is set, in its own byte or elsewhere. -/
theorem nibRead_nibWrite_other {s t : State} {o o' v u : Nat} (hu : u < 16)
    (ho : o / 8 ≠ o' / 8 ∨ (o % 8 = 0) ≠ (o' % 8 = 0)) (h : nibWrite s o u = .ok t) (hread : nibRead s o' = .ok v) :
    nibRead t o' = .ok v := by
  obtain ⟨b, hlt, hget, rfl⟩ := nibWrite_eq_ok.mp h
  by_cases hbyte : o / 8 = o' / 8
  · obtain ⟨b', hlt', hget', rfl⟩ := nibRead_eq_ok.mp hread
    obtain rfl : b = b' := Option.some.inj (hget.symm.trans (hbyte ▸ hget'))
    refine nibRead_eq_ok.mpr ⟨withNibble o b u, hlt', ?_, ?_⟩
    · rw [State.setBuf_buf, hbyte, Memory.get?_set_same]
    · exact (nibbleOf_withNibble_other b hu (ho.resolve_left (not_not.mpr hbyte))).symm
  · exact nibRead_kept (s := s) rfl (Memory.get?_set_other _ _ (Ne.symm hbyte)) hread

/-- A field keeps its value when another one apart from it is set. -/
theorem Place.read_write_apart {q q' : Place} {v u : Nat} {s t : State} (hq : q.Apart q') (hu : u < q.capacity)
    (h : q.write u s = .ok t) (hread : q'.read s = .ok v) : q'.read t = .ok v := by
  cases q with
  | bytes a n =>
    obtain ⟨m, rfl, hget, -⟩ := memWrite_eq_ok h
    cases q' with
    | bytes b k =>
      simp only [Place.Apart] at hq
      exact memRead_kept (s := s) rfl (fun x h1 h2 => (hget x).trans (if_neg (by omega))) hread
    | nibble o =>
      simp only [Place.Apart] at hq
      exact nibRead_kept (s := s) rfl ((hget _).trans (if_neg (by omega))) hread
  | nibble o =>
    cases q' with
    | bytes b k =>
      obtain ⟨byte, -, -, rfl⟩ := nibWrite_eq_ok.mp h
      simp only [Place.Apart] at hq
      exact memRead_kept (s := s) rfl (fun x h1 h2 => Memory.get?_set_other _ _ (by omega)) hread
    | nibble o' => exact nibRead_nibWrite_other hu hq h hread

/-! ### Several fields -/

/-- Fields and what they are set to. -/
abbrev FieldValues := List (Place × Nat)

/-- The fields of a list set, the first one first. -/
def writeFields : FieldValues → State → Access State
  | [], s => .ok s
  | (q, v) :: fs, s => do
    let s' ← q.write v s
    writeFields fs s'

/-- The fields of a list share no bit, and each can hold its value. -/
structure FieldValues.Ok (fs : FieldValues) : Prop where
  apart : fs.Pairwise fun f g => g.1.Apart f.1
  fit : ∀ f ∈ fs, f.2 < f.1.capacity

/-- The buffer holds every value of a list in its field. -/
def Carries (fs : FieldValues) (s : State) : Prop := ∀ f ∈ fs, f.1.read s = .ok f.2

theorem writeFields_keep {q : Place} {v : Nat} : ∀ {fs : FieldValues} {s t : State},
    (∀ f ∈ fs, f.1.Apart q) → (∀ f ∈ fs, f.2 < f.1.capacity) → writeFields fs s = .ok t → q.read s = .ok v →
    q.read t = .ok v
  | [], _, _, _, _, h, hread => Except.ok.inj h ▸ hread
  | (r, u) :: fs, s, t, hapart, hfit, h, hread => by
    obtain ⟨s', hs', h⟩ := access_bind_eq_ok.mp h
    obtain ⟨hr, hapart⟩ := List.forall_mem_cons.mp hapart
    obtain ⟨hu, hfit⟩ := List.forall_mem_cons.mp hfit
    exact writeFields_keep hapart hfit h (Place.read_write_apart hr hu hs' hread)

/-- Fields that lie apart are all read back. -/
theorem carries_of_writeFields : ∀ {fs : FieldValues} {s t : State}, fs.Ok → writeFields fs s = .ok t → Carries fs t
  | [], _, _, _, _ => fun _ hf => absurd hf List.not_mem_nil
  | (q, v) :: fs, s, t, hok, h => by
    obtain ⟨s', hs', h⟩ := access_bind_eq_ok.mp h
    obtain ⟨hq, hapart⟩ := List.pairwise_cons.mp hok.apart
    obtain ⟨hv, hfit⟩ := List.forall_mem_cons.mp hok.fit
    exact List.forall_mem_cons.mpr ⟨writeFields_keep hq hfit h (Place.read_write hv hs'),
      carries_of_writeFields ⟨hapart, hfit⟩ h⟩

/-! ### The fields of the nine profiles -/

/-- The fields `PROTECT.<p>` sets before the CRC, with their values, in a message of `len` bytes (R221). -/
def stampsOf (len : Nat) : Slot → FieldValues
  | .none => []
  | .p4 x => [(.bytes (x.cfg.ob + 0) 2, len), (.bytes (x.cfg.ob + 2) 2, x.tx.toNat),
      (.bytes (x.cfg.ob + 4) 4, x.cfg.dataId.toNat)]
  | .p4m x => [(.bytes (x.cfg.ob + 0) 2, len), (.bytes (x.cfg.ob + 2) 2, x.tx.toNat),
      (.bytes (x.cfg.ob + 4) 4, x.cfg.dataId.toNat), (.bytes (x.cfg.ob + 8) 4, x.cfg.metaWord.toNat)]
  | .p5 x => [(.bytes (x.cfg.ob + 2) 1, x.tx.toNat)]
  | .p6 x => [(.bytes (x.cfg.ob + 2) 2, len), (.bytes (x.cfg.ob + 4) 1, x.tx.toNat)]
  | .p7 x => [(.bytes (x.cfg.ob + 8) 4, len), (.bytes (x.cfg.ob + 12) 4, x.tx.toNat),
      (.bytes (x.cfg.ob + 16) 4, x.cfg.dataId.toNat)]
  | .p7m x => [(.bytes (x.cfg.ob + 8) 4, len), (.bytes (x.cfg.ob + 12) 4, x.tx.toNat),
      (.bytes (x.cfg.ob + 16) 4, x.cfg.dataId.toNat), (.bytes (x.cfg.ob + 20) 4, x.cfg.metaWord.toNat)]
  | .p8 x => [(.bytes (x.cfg.ob + 4) 4, len), (.bytes (x.cfg.ob + 8) 4, x.tx.toNat),
      (.bytes (x.cfg.ob + 12) 4, x.cfg.dataId.toNat)]
  | .p11 x => (.nibble x.cfg.counterOffset.toNat, x.tx.toNat) ::
      match x.cfg.mode with
      | .both => []
      | .nibble o => [(.nibble o.toNat, x.cfg.idn.toNat)]
  | .p22 x => [(.nibble (x.cfg.offset.toNat + 8), x.tx.toNat)]

theorem access_bind_ok {α : Type} (x : Access α) : (x >>= fun a => .ok a) = x := bind_pure x

section Frames

variable {p : Profile} {C : Type} {w : Nat} {fr : Frame w} {put : Inst C w → Slot} {x : Inst C w} {s : State}

theorem FrameOf.stamp_eq (hfr : FrameOf p fr put x) (s : State) :
    fr.stamp x.tx s = writeFields (stampsOf s.len.toNat (put x)) s := by
  cases hfr with
  | p4 | p4m | p5 | p6 | p7 | p7m | p8 | p22 =>
    simp only [stampsOf, writeFields, Place.write, access_bind_ok]
    rfl
  | p11 x =>
    simp only [stampsOf, writeFields, Place.write, frameP11]
    cases x.cfg.mode with
    | both => rfl
    | nibble o => simp only [writeFields, Place.write, access_bind_ok]

/-- The fields a validated configuration stamps share no bit (R214, R215). -/
theorem FrameOf.stamps_apart (hfr : FrameOf p fr put x) (hok : (put x).Ok) (len : Nat) :
    (stampsOf len (put x)).Pairwise fun f g => g.1.Apart f.1 := by
  cases hfr with
  | p4 | p4m | p5 | p6 | p7 | p7m | p8 | p22 => simp [stampsOf, Place.Apart]
  | p11 x =>
    cases hm : x.cfg.mode with
    | both => simp [stampsOf, hm]
    | nibble o =>
      obtain ⟨haligned, -, -, hne⟩ := hok.nibbleOk o hm
      have hne' : o.toNat ≠ x.cfg.counterOffset.toNat := fun h => hne (BitVec.eq_of_toNat_eq h)
      have haligned' := hok.counterAligned
      simp [stampsOf, hm, Place.Apart]
      omega

/-- The CRC field of a validated configuration shares no bit with the fields stamped (R214, R215). -/
theorem FrameOf.crcField_apart (hfr : FrameOf p fr put x) (hok : (put x).Ok) (len : Nat) :
    ∀ f ∈ stampsOf len (put x), (Place.bytes fr.crcAt fr.crcBytes).Apart f.1 := by
  cases hfr with
  | p4 | p4m | p5 | p6 | p7 | p7m | p8 | p22 =>
    simp [stampsOf, Place.Apart, frameP4, frameP4M, frameP5, frameP6, frameP7, frameP7M, frameP8, frameP22, P22Cfg.ob]
  | p11 x =>
    have hcounter := hok.apart
    cases hm : x.cfg.mode with
    | both =>
      simp [stampsOf, hm, Place.Apart, frameP11, P11Cfg.cb]
      omega
    | nibble o =>
      have hnibble := hok.nibbleOk o hm
      simp [stampsOf, hm, Place.Apart, frameP11, P11Cfg.cb]
      omega

/-- Every field of a protect can hold its value, LEN included where the length test holds (R219). -/
theorem FrameOf.stamps_fit (hfr : FrameOf p fr put x) (hok : (put x).Ok) {len : Word32}
    (hl : fr.lenOk len.toNat = true) : ∀ f ∈ stampsOf len.toNat (put x), f.2 < f.1.capacity := by
  have hlen := hfr.lenOk_iff.mp hl
  cases hfr with
  | p4 | p4m | p6 =>
    have hshort := hok.short rfl
    simp only [LenOk, maxLen16] at hlen hshort
    simp [stampsOf, Place.capacity]
    omega
  | p5 | p7 | p7m | p8 | p22 =>
    simp [stampsOf, Place.capacity]
    omega
  | p11 x =>
    cases hm : x.cfg.mode with
    | both | nibble =>
      simp [stampsOf, hm, Place.capacity]
      omega

theorem FrameOf.stamps_ok (hfr : FrameOf p fr put x) (hok : (put x).Ok) {len : Word32}
    (hl : fr.lenOk len.toNat = true) : FieldValues.Ok (stampsOf len.toNat (put x)) :=
  ⟨hfr.stamps_apart hok _, hfr.stamps_fit hok hl⟩

/-- A message that carries the fields of a protect passes the tests of its Length field and its Data ID signature, and
its counter is the sender's. -/
theorem FrameOf.tests_of_carries (hfr : FrameOf p fr put x) (h : Carries (stampsOf s.len.toNat (put x)) s) :
    fr.lengthAgrees s = .ok true ∧ fr.idAgrees s = .ok true ∧ fr.counter s = .ok x.tx.toNat := by
  cases hfr with
  | p4 | p4m | p5 | p6 | p7 | p7m | p8 | p22 =>
    simp only [Carries, stampsOf, List.forall_mem_cons, Place.read, Nat.add_zero] at h
    simp [frameP4, frameP4M, frameP5, frameP6, frameP7, frameP7M, frameP8, frameP22, lengthFieldIs, fieldIs, noField, h]
  | p11 x =>
    simp only [Carries, stampsOf, List.forall_mem_cons, Place.read] at h
    obtain ⟨hcounter, hid⟩ := h
    refine ⟨rfl, ?_, hcounter⟩
    simp only [frameP11]
    cases hm : x.cfg.mode with
    | both => rfl
    | nibble o =>
      simp only [hm, List.forall_mem_cons] at hid
      simp [hid]

end Frames
end Sys2Proof.Machine
end

section
/-! A message on its way from a sender to a receiver of the same configuration (R201, R221, R230, R234): what a protect
makes passes every test of a check before the counter stage, and the counter stage then gets the sender's
`tx_counter`. -/

namespace Sys2Proof.Machine

open Sys2Proof.Claims

/-! ### Messages -/

/-- There is a message where every byte below LEN holds a value. -/
theorem exists_message {s : State} (hfits : s.len.toNat ≤ s.bufBytes)
    (hbyte : ∀ a, a < s.len.toNat → s.buf.get? a ≠ none) : ∃ bs, Message s bs := by
  refine ⟨(List.range s.len.toNat).map fun a => (s.buf.get? a).getD 0, by simp, hfits, fun a ha => ?_⟩
  obtain ⟨b, hb⟩ := Option.ne_none_iff_exists'.mp (hbyte a ha)
  simp [List.getElem?_range ha, hb]

/-- Stores inside a message succeed and leave a message. -/
theorem StoresBelow.ok_of_message {s : State} {bs : List Byte} {f : State → Access State}
    (hf : StoresBelow s.len.toNat s.len f) (hm : Message s bs) :
    ∃ m bs', f s = .ok (s.setBuf m) ∧ Message (s.setBuf m) bs' := by
  have hvalue (a : Nat) (ha : a < s.len.toNat) : s.buf.get? a ≠ none := by simp [message_byte hm ha]
  rcases hf s s rfl (.refl hm.fits) with ⟨e, -, -, a, -, ha, hnone⟩ | ⟨m, -, hok, -, -, -, hkept⟩
  · exact absurd hnone (hvalue a ha)
  · obtain ⟨bs', hm'⟩ := exists_message (s := s.setBuf m) hm.fits fun a ha hnone => hvalue a ha (hkept a hnone)
    exact ⟨m, bs', hok, hm'⟩

theorem Message.of_sameBuffer {s t : State} {bs : List Byte} (hm : Message s bs) (h : SameBuffer s t) :
    Message t bs :=
  ⟨by rw [h.len, hm.length_eq], by rw [h.len, h.bufBytes]; exact hm.fits, by rw [h.len, h.buf]; exact hm.byte_eq⟩

/-- The bytes outside a field do not see what is put into it. -/
theorem coverOf_patch {bs new : List Byte} {a : Nat} (h : a + new.length ≤ bs.length) :
    coverOf (patch bs a new) a new.length = coverOf bs a new.length :=
  take_drop_mid (B := new) (by rw [patch, List.append_assoc]) (List.length_take_of_le (by omega)) rfl

/-! ### A message that a receiver takes -/

/-- The buffer of `s` passes every test of a check with the frame `fr` before the counter stage, and its Counter field
is `r` (R230). -/
structure Frame.Receives {w : Nat} (fr : Frame w) (s : State) (r : Nat) : Prop where
  lengthAgrees : fr.lengthAgrees s = .ok true
  crcAgrees : ∃ v, memRead s fr.crcAt fr.crcBytes = .ok v ∧ fr.crc s = .ok v
  idAgrees : fr.idAgrees s = .ok true
  counter : fr.counter s = .ok r

theorem Frame.Receives.of_sameBuffer {w : Nat} {fr : Frame w} {s t : State} {r : Nat} (hr : fr.Receives s r)
    (hfr : fr.OnBuffer) (h : SameBuffer s t) : fr.Receives t r where
  lengthAgrees := (hfr.lengthAgrees s t h).trans hr.lengthAgrees
  crcAgrees := by
    obtain ⟨v, hread, hcrc⟩ := hr.crcAgrees
    exact ⟨v, (readsBuffer_memRead _ _ s t h).trans hread, (hfr.crc s t h).trans hcrc⟩
  idAgrees := (hfr.idAgrees s t h).trans hr.idAgrees
  counter := (hfr.counter s t h).trans hr.counter

/-- A check of such a message is its counter stage. -/
theorem Frame.Receives.check_eq {C : Type} {w : Nat} {fr : Frame w} {s : State} {r : Nat} (hr : fr.Receives s r)
    (hl : fr.lenOk s.len.toNat = true) (put : Inst C w → Slot) (y : Inst C w) (j : Nat) :
    check fr put y j s = .next (counterStage fr.delta put y j r s) := by
  obtain ⟨v, hread, hcrc⟩ := hr.crcAgrees
  rw [check_message (fun _ => hr.lengthAgrees) (fun _ => hread) (fun _ => hcrc) (fun _ => hr.idAgrees)
    (fun _ => hr.counter)]
  simp [hl]

section Frames

variable {p : Profile} {C : Type} {w : Nat} {fr : Frame w} {put : Inst C w → Slot} {x : Inst C w} {s : State}
  {bs : List Byte}

/-- A frame looks at the configuration only. -/
theorem FrameOf.of_cfg (hfr : FrameOf p fr put x) {y : Inst C w} (h : y.cfg = x.cfg) : FrameOf p fr put y := by
  cases hfr <;> (rw [← h]; constructor)

theorem FrameOf.onBuffer (hfr : FrameOf p fr put x) : fr.OnBuffer := by
  cases hfr with
  | p4 => exact onBuffer_p4 _
  | p4m => exact onBuffer_p4m _
  | p5 => exact onBuffer_p5 _
  | p6 => exact onBuffer_p6 _
  | p7 => exact onBuffer_p7 _
  | p7m => exact onBuffer_p7m _
  | p8 => exact onBuffer_p8 _
  | p11 => exact onBuffer_p11 _
  | p22 => exact onBuffer_p22 _

theorem FrameOf.put_injective (hfr : FrameOf p fr put x) : Function.Injective put := by
  intro y z h
  cases hfr <;> (cases h; rfl)

theorem FrameOf.width_eq (hfr : FrameOf p fr put x) : w = counterWidth p := by cases hfr <;> rfl

theorem FrameOf.txOf_put (hfr : FrameOf p fr put x) (y : Inst C w) : txOf (put y) = some y.tx.toNat := by
  cases hfr <;> rfl

/-- A slot of the same configuration has the same frame. -/
theorem FrameOf.of_sameCfg (hfr : FrameOf p fr put x) {y : Slot} (h : SameCfg (put x) y) :
    ∃ z, y = put z ∧ FrameOf p fr put z := by
  have hfr' := hfr
  cases hfr <;> cases y <;> simp only [SameCfg] at h
  all_goals exact ⟨_, rfl, hfr'.of_cfg h.symm⟩

/-- The CRC field is as wide as the CRC. -/
theorem FrameOf.crc_fits (hfr : FrameOf p fr put x) (v : BitVec (engineOf p).1) : v.toNat < 256 ^ fr.crcBytes := by
  have hsize : 256 ^ fr.crcBytes = 2 ^ (engineOf p).1 := by cases hfr <;> rfl
  exact hsize ▸ v.isLt

/-- The CRC of a message is the same once it stands in the CRC field (R224). -/
theorem FrameOf.crc_patch (hfr : FrameOf p fr put x) (hok : (put x).Ok) {t : State} {new : List Byte} {r : Nat}
    (hm : Message s bs) (ht : Message t (patch bs fr.crcAt new)) (hnew : new.length = fr.crcBytes)
    (hlen : t.len = s.len) (hl : fr.lenOk s.len.toNat = true) (hs : fr.counter s = .ok r) (hr : fr.counter t = .ok r) :
    fr.crc t = fr.crc s := by
  have hls := hfr.lenOk_iff.mp hl
  have hlt : LenOk (put x) t.len.toNat := hlen ▸ hls
  have hcs := hs.symm.trans (hfr.counter_message hok hm hls)
  have hct := hr.symm.trans (hfr.counter_message hok ht hlt)
  have hid : idBefore (put x) (patch bs fr.crcAt new) = idBefore (put x) bs := idBefore_congr fun y hy => by
    rw [← Except.ok.inj hcs, ← Except.ok.inj hct]
  have hinside : fr.crcAt + new.length ≤ bs.length := by
    rw [hnew, hm.length_eq]
    exact (hfr.local hok hl).crcField
  rw [hfr.crc_message hok ht hlt, hfr.crc_message hok hm hls, hfr.crcInput_eq, hfr.crcInput_eq, hid, ← hnew,
    coverOf_patch hinside]

/-- A protect on a message of a legal length makes a message that a receiver with the same frame takes, with the
sender's `tx_counter` (R221, R230). -/
theorem FrameOf.protect_received (hfr : FrameOf p fr put x) (hok : (put x).Ok) (hm : Message s bs)
    (hl : fr.lenOk s.len.toNat = true) (i : Nat) : ∃ m bt,
    protect fr put x i s = .next (((s.setBuf m).setSlot i (put { x with tx := x.tx + 1 })).setErr noError) ∧
      Message (s.setBuf m) bt ∧ fr.Receives (s.setBuf m) x.tx.toNat := by
  have hlocal := hfr.local hok hl
  obtain ⟨m1, bs1, hstamp, hm1⟩ := (hlocal.stamp x.tx).ok_of_message hm
  have hcrc := hfr.crc_message hok hm1 (hfr.lenOk_iff.mp hl)
  obtain ⟨m, hwrite, hm2, -⟩ := memWrite_messageBut (hm1.but fun _ => False) (blank' := fun _ => False)
    (crcOf (engineOf p).2 (crcInput (put x) bs1)).toNat hlocal.crcField fun _ => .inl
  have hm2 := hm2.message fun _ => id
  have hfits := hfr.crc_fits (crcOf (engineOf p).2 (crcInput (put x) bs1))
  have hstamped : Carries (stampsOf s.len.toNat (put x)) (s.setBuf m1) :=
    carries_of_writeFields (hfr.stamps_ok hok hl) ((hfr.stamp_eq s).symm.trans hstamp)
  have hcarries : Carries (stampsOf s.len.toNat (put x)) ((s.setBuf m1).setBuf m) := fun f hf =>
    Place.read_write_apart (q := .bytes fr.crcAt fr.crcBytes) (hfr.crcField_apart hok _ f hf) hfits hwrite
      (hstamped f hf)
  obtain ⟨-, -, hcounter1⟩ := hfr.tests_of_carries (s := s.setBuf m1) hstamped
  obtain ⟨hlength, hid, hcounter⟩ := hfr.tests_of_carries (s := (s.setBuf m1).setBuf m) hcarries
  have hread : memRead ((s.setBuf m1).setBuf m) fr.crcAt fr.crcBytes = .ok _ :=
    Place.read_write (q := .bytes fr.crcAt fr.crcBytes) hfits hwrite
  have hcrc2 := (hfr.crc_patch hok hm1 hm2 (beBytes_length _ _) rfl hl hcounter1 hcounter).trans hcrc
  refine ⟨m, _, ?_, hm2, hlength, ⟨_, hread, hcrc2⟩, hid, hcounter⟩
  simp only [protect, if_pos hl, hstamp, hcrc, hwrite, access_ok_bind, run_ok, State.setBuf_setBuf]

end Frames

/-! ### A sender and a receiver -/

/-- Slots `i` and `j` hold a sender with `tx_counter` `tx` and a receiver with `rx_counter` `rx`, of profile `p` and one
configuration, whose frame is `fr`, and there is a message of a legal length in the buffer. The two slots may be one. -/
structure Linked {C : Type} {w : Nat} (p : Profile) (fr : Frame w) (put : Inst C w → Slot) (i j : Nat) (tx : BitVec w)
    (rx : Option (BitVec w)) (s : State) : Prop where
  inv : s.Inv
  message : ∃ bs, Message s bs
  lenOk : fr.lenOk s.len.toNat = true
  sender : ∃ x, s.slots[i]? = some (put x) ∧ FrameOf p fr put x ∧ x.tx = tx
  receiver : ∃ y, s.slots[j]? = some (put y) ∧ FrameOf p fr put y ∧ y.rx = rx

section

variable {p : Profile} {C : Type} {w : Nat} {fr : Frame w} {put : Inst C w → Slot} {i j : Nat} {tx : BitVec w}
  {rx : Option (BitVec w)} {s : State}

/-- The sender's protect makes a message the receiver takes, with the sender's `tx_counter`, which then advances
(R35, R201). -/
theorem Linked.protect (h : Linked p fr put i j tx rx s) : ∃ t bt, exec (protectOf p i) s = .next t ∧ t.err = 0 ∧
    Message t bt ∧ fr.Receives t tx.toNat ∧ Linked p fr put i j (tx + 1) rx t := by
  obtain ⟨bs, hm⟩ := h.message
  obtain ⟨x, hi, hfr, rfl⟩ := h.sender
  obtain ⟨y, hj, hfr', hrx⟩ := h.receiver
  obtain ⟨m, bt, ht, hm', hr⟩ := hfr.protect_received (h.inv.slot_ok hi) hm h.lenOk i
  rw [← (exec_protectOf p i s).of_frame hfr hi] at ht
  have hsame : SameBuffer (s.setBuf m) (((s.setBuf m).setSlot i (put { x with tx := x.tx + 1 })).setErr noError) :=
    ⟨rfl, rfl, rfl⟩
  have hsender : (s.slots.set i (put { x with tx := x.tx + 1 }))[i]? = some (put { x with tx := x.tx + 1 }) :=
    List.getElem?_set_self (List.getElem?_eq_some_iff.mp hi).1
  have hreceiver : ∃ z, (s.slots.set i (put { x with tx := x.tx + 1 }))[j]? = some (put z) ∧ FrameOf p fr put z ∧
      z.rx = rx := by
    by_cases hij : i = j
    · subst hij
      obtain rfl : x = y := hfr.put_injective (Option.some.inj (hi.symm.trans hj))
      exact ⟨_, hsender, hfr.of_cfg rfl, hrx⟩
    · exact ⟨y, (List.getElem?_set_ne hij).trans hj, hfr', hrx⟩
  exact ⟨_, bt, ht, rfl, hm'.of_sameBuffer hsame, hr.of_sameBuffer hfr.onBuffer hsame, (exec_effect ht).keeps_inv h.inv,
    ⟨bt, hm'.of_sameBuffer hsame⟩, h.lenOk, ⟨_, hsender, hfr.of_cfg rfl, rfl⟩, hreceiver⟩

/-- The receiver's check of such a message ends as the validator classifies its counter (R230, R232). -/
theorem Linked.check (h : Linked p fr put i j tx rx s) {r : Nat} (hr : fr.Receives s r) :
    ∃ t, exec (checkOf p j) s = .next t ∧ t.err = 0 ∧
      t.status = (cval w fr.delta (rx.map BitVec.toNat) r).1.code ∧
      Linked p fr put i j tx (some (BitVec.ofNat w (cval w fr.delta (rx.map BitVec.toNat) r).2)) t := by
  obtain ⟨bs, hm⟩ := h.message
  obtain ⟨x, hi, hfr', htx⟩ := h.sender
  obtain ⟨y, hj, hfr, rfl⟩ := h.receiver
  have ht := hr.check_eq h.lenOk put y j
  rw [← (exec_checkOf p j s).of_frame hfr hj] at ht
  have hreceiver (z : Inst C w) : (s.slots.set j (put z))[j]? = some (put z) :=
    List.getElem?_set_self (List.getElem?_eq_some_iff.mp hj).1
  have hsender (v : Option (BitVec w)) : ∃ z, (s.slots.set j (put { y with rx := v }))[i]? = some (put z) ∧
      FrameOf p fr put z ∧ z.tx = tx := by
    by_cases hji : j = i
    · subst hji
      obtain rfl : x = y := hfr.put_injective (Option.some.inj (hi.symm.trans hj))
      exact ⟨_, hreceiver _, hfr.of_cfg rfl, htx⟩
    · exact ⟨x, (List.getElem?_set_ne hji).trans hi, hfr', htx⟩
  exact ⟨_, ht, rfl, rfl, (exec_effect ht).keeps_inv h.inv, ⟨bs, hm.of_sameBuffer ⟨rfl, rfl, rfl⟩⟩, h.lenOk, hsender _,
    ⟨_, hreceiver _, hfr.of_cfg rfl, rfl⟩⟩

/-- What a check reads as the counter is the Counter field of the message. -/
theorem Linked.counterField_eq {x : Inst C w} (hfr : FrameOf p fr put x) (hok : (put x).Ok)
    (h : Linked p fr put i j tx rx s) {bs : List Byte} (hm : Message s bs) {r : Nat} (hr : fr.Receives s r) :
    counterField (put x) bs = r :=
  Except.ok.inj ((hfr.counter_message hok hm (hfr.lenOk_iff.mp h.lenOk)).symm.trans hr.counter)

end

/-! ### Two rounds -/

/-- After Ok, OkSomeLost or Repeated the new P is the received counter (R193). -/
theorem cval_snd_of_code_le {w delta r : Nat} {prev : Option (BitVec w)} (hr : r < 2 ^ w)
    (h : (cval w delta (prev.map BitVec.toNat) r).1.code.toNat ≤ 2) :
    (cval w delta (prev.map BitVec.toNat) r).2 = r := by
  cases prev with
  | none => rfl
  | some q =>
    obtain ⟨d, hd, hdist⟩ := exists_distance q.isLt hr
    rw [Option.map_some, cval_some q.isLt hd hdist] at h ⊢
    change counterAfter delta d q.toNat r = r
    by_cases h0 : d = 0
    · subst h0
      rw [Nat.add_zero, Nat.mod_eq_of_lt q.isLt] at hdist
      rwa [counterAfter, if_pos (.inl rfl)]
    · refine if_neg fun hrejected => ?_
      obtain ⟨hne, hlt⟩ := hrejected.resolve_left h0
      simp [statusOfDistance_code, h0, hne, not_le.mpr hlt] at h

/-- The counter after the previous one is accepted with Ok (R193, R201). -/
theorem cval_successor {w : Nat} (hw : 0 < w) (delta : Nat) (q : BitVec w) :
    cval w delta (some q.toNat) (q + 1).toNat = (.ok, (q + 1).toNat) := by
  have hone : 1 < 2 ^ w := Nat.one_lt_two_pow (by omega)
  rw [cval_some q.isLt hone (by rw [BitVec.toNat_add]; simp)]
  rfl

/-- Settles O55: two rounds of a protect and a check. The second counter is the successor of the first, which is the
receiver's P wherever the first check did not end in WrongSequence. -/
theorem consecutiveProtectsAreOk : Obligations.ConsecutiveProtectsAreOk := by
  intro p i j s bs sx sy n hs hm hi hj hp hcfg hn hl
  obtain ⟨C, w, fr, put, x, hfr, rfl⟩ := exists_frameOf hp
  obtain ⟨y, rfl, hfr'⟩ := hfr.of_sameCfg hcfg
  obtain rfl := hfr.width_eq
  obtain rfl : x.tx.toNat = n := Option.some.inj ((hfr.txOf_put x).symm.trans hn)
  have hok := hs.slot_ok hi
  have hsucc : (x.tx + 1).toNat = (x.tx.toNat + 1) % 2 ^ counterWidth p := by rw [BitVec.toNat_add]; simp
  have hlink : Linked p fr put i j x.tx y.rx s :=
    ⟨hs, ⟨bs, hm⟩, hfr.lenOk_iff.mpr hl, ⟨x, hi, hfr, rfl⟩, ⟨y, hj, hfr', rfl⟩⟩
  obtain ⟨t, bt, ht, hterr, hmt, hrt, hlinkt⟩ := hlink.protect
  obtain ⟨a, ha, haerr, hast, hlinka⟩ := hlinkt.check hrt
  obtain ⟨u, bu, hu, huerr, hmu, hru, hlinku⟩ := hlinka.protect
  obtain ⟨v, hv, hverr, hvst, hlinkv⟩ := hlinku.check hru
  refine ⟨t, a, u, v, bt, bu, ht, hterr, ha, haerr, hu, huerr, hv, hverr, hmt, hlinkt.counterField_eq hfr hok hmt hrt,
    hmu, (hlinku.counterField_eq hfr hok hmu hru).trans hsucc, fun hfresh => ?_, fun haccepted => ?_⟩
  · rw [hast, ← hfr'.rxOf_put y, hfresh]
    rfl
  · rw [hast] at haccepted
    have hw : 0 < counterWidth p := by cases p <;> decide
    have hsecond := cval_successor hw fr.delta x.tx
    rw [cval_snd_of_code_le x.tx.isLt haccepted, BitVec.ofNat_toNat, BitVec.setWidth_eq, Option.map_some,
      hsecond] at hvst hlinkv
    obtain ⟨z, hz, hfrz, hrx⟩ := hlinkv.receiver
    refine ⟨hvst, ?_⟩
    rw [hz, Option.bind_some, hfrz.rxOf_put z, hrx, ← hsucc, BitVec.ofNat_toNat, BitVec.setWidth_eq, Option.map_some]

end Sys2Proof.Machine
end

section
/-! A command on a message with values answers a next state: it would stop only on a byte without one. -/

namespace Sys2Proof.Machine

/-- Settles O12: the one byte a command could be refused for is a byte of the message. -/
theorem commandsAlwaysAnswer : Obligations.CommandsAlwaysAnswer := by
  intro s bs i hs hm
  rcases agree_exec hs (m := s.buf) (fun _ _ => rfl) i with ⟨a, -, ha, hnone⟩ | ⟨t, -, ht, -⟩
  · rw [message_byte hm ha] at hnone
    cases hnone
  · exact ⟨t, ht⟩

end Sys2Proof.Machine
end

section
/-! The order of the construct tests (R212 to R216): each test belongs to one of the four groups, the groups come one
after the other, and each is passed exactly where it is not violated. -/

namespace Sys2Proof.Machine

open Sys2Proof.Claims

/-! ### The first violated test of a list in order -/

/-- The order in which a construct makes its tests, by the error they give (R212, R213); the kinds that are no
construct's stand behind. -/
def testOrder : ErrKind → Nat
  | .misalignedOffset => 1
  | .invalidRange => 2
  | .fieldOverlap => 3
  | .outOfRangeMaxDelta => 4
  | .dataLengthError => 5
  | .illegalCommand => 6
  | .notConstructed => 7

theorem testOrder_injective : Function.Injective testOrder := by
  intro k k' h
  cases k <;> cases k' <;> simp_all [testOrder]

/-- The tests of a list that would give the error `k` all hold. -/
def Passes (l : List (Bool × ErrKind)) (k : ErrKind) : Prop := ∀ x ∈ l, x.2 = k → x.1 = false

theorem passes_nil (k : ErrKind) : Passes [] k := fun _ hx => absurd hx List.not_mem_nil

theorem passes_cons {b : Bool} {k' : ErrKind} {l : List (Bool × ErrKind)} {k : ErrKind} :
    Passes ((b, k') :: l) k ↔ (k' = k → b = false) ∧ Passes l k := List.forall_mem_cons

/-- Where the tests stand in order, and those before the tests for `k` hold and one for `k` does not, the error is `k`
(R212). -/
theorem firstViolated_of_order {k : ErrKind} : ∀ {l : List (Bool × ErrKind)},
    l.Pairwise (fun x y => testOrder x.2 ≤ testOrder y.2) → (∀ k', testOrder k' < testOrder k → Passes l k') →
    ¬Passes l k → firstViolated l = some k
  | [], _, _, hbad => absurd (passes_nil k) hbad
  | (b, k') :: l, hl, hbefore, hbad => by
    obtain ⟨hhead, hl⟩ := List.pairwise_cons.mp hl
    have hrest (hb : b = false) : firstViolated ((b, k') :: l) = some k :=
      firstViolated_cons_eq_some.mpr (.inr ⟨hb, firstViolated_of_order hl
        (fun k'' h => (passes_cons.mp (hbefore k'' h)).2) fun hpass => hbad (passes_cons.mpr ⟨fun _ => hb, hpass⟩)⟩)
    rcases Nat.lt_trichotomy (testOrder k') (testOrder k) with hlt | heq | hgt
    · exact hrest ((passes_cons.mp (hbefore k' hlt)).1 rfl)
    · cases b with
      | false => exact hrest rfl
      | true => exact firstViolated_cons_eq_some.mpr (.inl ⟨rfl, testOrder_injective heq⟩)
    · refine absurd (passes_cons.mpr ⟨fun h => ?_, fun x hx h => ?_⟩) hbad
      · exact absurd hgt (h ▸ lt_irrefl _)
      · exact absurd hgt (not_lt.mpr (h ▸ hhead x hx))

/-! ### The tests of the nine constructs, group by group -/

theorem testsOf_ordered (p : Profile) (g : Staging) :
    (testsOf p g).Pairwise fun x y => testOrder x.2 ≤ testOrder y.2 := by
  cases p <;>
    simp [testsOf, testsP4, testsP4M, testsP5, testsP6, testsP7, testsP7M, testsP8, testsP11, testsP22, testOrder]

/-- Group 1 (R213). -/
theorem passes_alignment (p : Profile) (g : Staging) :
    Passes (testsOf p g) .misalignedOffset ↔ ¬BadAlignment p g := by
  cases p with
  | p11 =>
    simp [testsOf, testsP11, passes_cons, passes_nil, BadAlignment, and_assoc]
  | p4 | p4m | p5 | p6 | p7 | p7m | p8 | p22 =>
    simp [testsOf, testsP4, testsP4M, testsP5, testsP6, testsP7, testsP7M, testsP8, testsP22, passes_cons, passes_nil,
      BadAlignment]

/-- The bound of R214 (b). -/
theorem dataLenTooLarge_eq_false {dl : Nat} : decide (maxDataLenP11 < dl) = false ↔ dl ≤ 240 := by
  rw [decide_eq_false_iff_not, not_lt, maxDataLenP11]

/-- Group 2 (R214). -/
theorem passes_range (p : Profile) (g : Staging) : Passes (testsOf p g) .invalidRange ↔ ¬BadRange p g := by
  cases p with
  | p11 =>
    simp [testsOf, testsP11, passes_cons, passes_nil, BadRange, FixedLength, dataBits, ↓dataLenTooLarge_eq_false,
      and_assoc]
  | p4 | p4m | p5 | p6 | p7 | p7m | p8 | p22 =>
    simp [testsOf, testsP4, testsP4M, testsP5, testsP6, testsP7, testsP7M, testsP8, testsP22, passes_cons, passes_nil,
      BadRange, FixedLength, dataBits, headerBits, headerBytes]

/-- Group 3, of fields whose alignment is right (R215). -/
theorem passes_overlap {p : Profile} {g : Staging} (ha : ¬BadAlignment p g) :
    Passes (testsOf p g) .fieldOverlap ↔ ¬BadOverlap p g := by
  cases p with
  | p11 =>
    simp only [BadAlignment, if_true, not_or, not_not, not_and] at ha
    obtain ⟨hcrc, hcounter, hnibble⟩ := ha
    simp only [testsOf, testsP11, passes_cons, passes_nil, BadOverlap, overlap_byte_nibble hcrc hcounter, reduceCtorEq,
      false_implies, true_implies, true_and, and_true, Bool.and_eq_false_iff, decide_eq_false_iff_not]
    by_cases hm : g.mode = 1
    · have hn := hnibble hm
      simp [hm, overlap_byte_nibble hcrc hn, overlap_nibbles hcounter hn]
    · simp only [hm, false_and, or_false, not_false_eq_true, true_or, and_true]
  | p4 | p4m | p5 | p6 | p7 | p7m | p8 | p22 =>
    simp [testsOf, testsP4, testsP4M, testsP5, testsP6, testsP7, testsP7M, testsP8, testsP22, passes_cons, passes_nil,
      BadOverlap]

/-- Group 4 (R216). -/
theorem passes_delta (p : Profile) (g : Staging) : Passes (testsOf p g) .outOfRangeMaxDelta ↔ ¬BadDelta p g := by
  cases p <;>
    simp [testsOf, testsP4, testsP4M, testsP5, testsP6, testsP7, testsP7M, testsP8, testsP11, testsP22, passes_cons,
      passes_nil, BadDelta, Nat.one_le_iff_ne_zero]

/-- A construct raises the error of the group that is violated where the groups before it hold. -/
theorem construct_raises {p : Profile} {k : Nat} {s : State} (hk : k < s.slots.length) {e : ErrKind}
    (hbefore : ∀ e', testOrder e' < testOrder e → Passes (testsOf p s.staging) e')
    (hbad : ¬Passes (testsOf p s.staging) e) : exec (constructOf p k) s = .next (s.setErr e.code) := by
  rw [exec_constructOf, withSlot_of_some _ (List.getElem?_eq_getElem hk), construct,
    firstViolated_of_order (testsOf_ordered p s.staging) hbefore hbad]
  rfl

/-- Settles O39: the four groups stand in this order in the list of the tests. -/
theorem constructErrorsInOrder : Obligations.ConstructErrorsInOrder := by
  intro p k s hk
  refine ⟨fun ha => ?_, fun ha hr => ?_, fun ha hr ho => ?_, fun ha hr ho hd => ?_⟩
  · refine construct_raises hk (e := .misalignedOffset) (fun e he => ?_) fun h => (passes_alignment p _).mp h ha
    cases e <;> simp [testOrder] at he
  · refine construct_raises hk (e := .invalidRange) (fun e he => ?_) fun h => (passes_range p _).mp h hr
    cases e <;> simp [testOrder] at he
    exact (passes_alignment p _).mpr ha
  · refine construct_raises hk (e := .fieldOverlap) (fun e he => ?_) fun h => (passes_overlap ha).mp h ho
    cases e <;> simp [testOrder] at he
    · exact (passes_range p _).mpr hr
    · exact (passes_alignment p _).mpr ha
  · refine construct_raises hk (e := .outOfRangeMaxDelta) (fun e he => ?_) fun h => (passes_delta p _).mp h hd
    cases e <;> simp [testOrder] at he
    · exact (passes_range p _).mpr hr
    · exact (passes_alignment p _).mpr ha
    · exact (passes_overlap ha).mpr ho

end Sys2Proof.Machine
end

section
/-! What the length test says of a message: its fields lie inside it, and its length fits the Length field (R218,
R219). -/

namespace Sys2Proof.Machine

/-- A message that passes the length test of a profile with a 16-bit Length field has a length that fits it (R214). -/
theorem len_le_of_shortLength {x : Slot} {p : Profile} {len : Nat} (hok : x.Ok) (hl : LenOk x len)
    (hx : x.kind = some p) (hp : shortLength p = true) : len ≤ 0xFFFF := by
  cases x with
  | p4 | p4m | p6 =>
    have hshort := hok.short rfl
    simp only [LenOk, maxLen16] at hl hshort
    omega
  | none => cases hx
  | p5 | p7 | p7m | p8 | p11 | p22 =>
    cases hx
    cases hp

/-- Settles O40: `inFields_lt_len`, and the Length field. -/
theorem fieldsInsideMessage : Obligations.FieldsInsideMessage := by
  intro x len hok hl
  refine ⟨fun a => inFields_lt_len hok hl, ?_⟩
  rintro (hx | hx | hx) <;> exact len_le_of_shortLength hok hl hx rfl

end Sys2Proof.Machine
end

section
/-! A message checked twice (R234 properties 1 and 8): a check leaves the buffer as it is, so what it accepted arrives
again, at a distance of 0. -/

namespace Sys2Proof.Machine

open Sys2Proof.Claims

/-- The commands that write buffer bytes have an OPC of 0x20 to 0x2F or of 0x50 to 0x5F. -/
theorem opcGroup_of_writesBuffer {i : Instr} (h : WritesBuffer i) : opcGroup i = 2 ∨ opcGroup i = 5 := by
  obtain rfl | rfl | rfl | rfl | rfl | ⟨p, k, rfl⟩ := h
  case inr.inr.inr.inr.inr => exact .inr (opcGroup_protectOf p k)
  all_goals exact .inl (by decide)

/-- A check leaves the message in the buffer. -/
theorem sameBuffer_of_check {p : Profile} {j : Nat} {s t : State} (h : exec (checkOf p j) s = .next t) :
    SameBuffer s t := by
  have hno : ¬WritesBuffer (checkOf p j) := fun hw => by simpa using opcGroup_of_writesBuffer hw
  obtain ⟨-, -, -, -, hlen, -, hbytes, -⟩ := commandsKeepHostRegisters _ _ _ h
  exact ⟨bufferFrame.1 _ _ _ h hno, hbytes, hlen⟩

/-- A counter received again is Repeated (R193). -/
theorem cval_again {w : Nat} (delta : Nat) (q : BitVec w) :
    cval w delta (some q.toNat) q.toNat = (.repeated, q.toNat) :=
  cval_some q.isLt (Nat.two_pow_pos w) (Nat.mod_eq_of_lt q.isLt) delta

/-- Settles O52: the first check takes the sender's counter, and the second finds it again. -/
theorem roundTripThenRepeated : Obligations.RoundTripThenRepeated := by
  intro p i j s bs sx sy hs hm hi hj hp hcfg hfresh hl
  obtain ⟨C, w, fr, put, x, hfr, rfl⟩ := exists_frameOf hp
  obtain ⟨y, rfl, hfr'⟩ := hfr.of_sameCfg hcfg
  have hrx : y.rx = none := Option.map_eq_none_iff.mp ((hfr'.rxOf_put y).symm.trans hfresh)
  have hlink : Linked p fr put i j x.tx none s :=
    ⟨hs, ⟨bs, hm⟩, hfr.lenOk_iff.mpr hl, ⟨x, hi, hfr, rfl⟩, ⟨y, hj, hfr', hrx⟩⟩
  obtain ⟨t, bt, ht, hterr, -, hrt, hlinkt⟩ := hlink.protect
  obtain ⟨u, hu, huerr, hust, hlinku⟩ := hlinkt.check hrt
  obtain ⟨v, hv, hverr, hvst, -⟩ := hlinku.check (hrt.of_sameBuffer hfr.onBuffer (sameBuffer_of_check hu))
  rw [Option.map_none, counterClassification.1, Option.map_some, BitVec.ofNat_toNat, BitVec.setWidth_eq,
    cval_again] at hvst
  exact ⟨t, u, v, ht, hterr, hu, huerr, hust, hv, hverr, hvst⟩

end Sys2Proof.Machine
end

section
/-! A receiver with another Data ID (R233): its frame has the same places as the sender's, so the length tests pass;
the stored Data ID is not its own, or its CRC input ends in other Data ID bytes or begins with them. -/

namespace Sys2Proof.Machine

open Sys2Proof.Claims

/-! ### A sender and a receiver whose fields have the same places -/

/-- The frames look at the same places of the message and accept the same lengths; their Data IDs may differ. -/
structure Frame.SamePlaces {w : Nat} (fr fr' : Frame w) : Prop where
  lenOk : fr'.lenOk = fr.lenOk
  lengthAgrees : fr'.lengthAgrees = fr.lengthAgrees
  crcAt : fr'.crcAt = fr.crcAt
  crcBytes : fr'.crcBytes = fr.crcBytes
  counter : fr'.counter = fr.counter

/-- The buffer of `t` holds the message `bt`, of a legal length, that the sender `x` has protected. -/
structure Arrived {C : Type} {w : Nat} (fr : Frame w) (put : Inst C w → Slot) (x : Inst C w) (t : State)
    (bt : List Byte) : Prop where
  inv : t.Inv
  message : Message t bt
  lenOk : fr.lenOk t.len.toNat = true
  received : fr.Receives t x.tx.toNat
  counterField_eq : counterField (put x) bt = x.tx.toNat

section Frames

variable {p : Profile} {C : Type} {w : Nat} {fr fr' : Frame w} {put : Inst C w → Slot} {x y : Inst C w} {i j : Nat}
  {s t : State} {bs bt : List Byte}

/-- A protect on a message of a legal length: its message arrives, and the other slots are as before. -/
theorem FrameOf.exec_protect (hfr : FrameOf p fr put x) (hs : s.Inv) (hm : Message s bs)
    (hi : s.slots[i]? = some (put x)) (hl : LenOk (put x) s.len.toNat) : ∃ t bt,
    exec (protectOf p i) s = .next t ∧ t.err = 0 ∧ Arrived fr put x t bt ∧ ∀ j, i ≠ j → t.slots[j]? = s.slots[j]? := by
  have hlink : Linked p fr put i i x.tx x.rx s :=
    ⟨hs, ⟨bs, hm⟩, hfr.lenOk_iff.mpr hl, ⟨x, hi, hfr, rfl⟩, ⟨x, hi, hfr, rfl⟩⟩
  obtain ⟨t, bt, ht, hterr, hmt, hrt, hlinkt⟩ := hlink.protect
  refine ⟨t, bt, ht, hterr, ⟨hlinkt.inv, hmt, hlinkt.lenOk, hrt,
    hlinkt.counterField_eq hfr (hs.slot_ok hi) hmt hrt⟩, fun j hij => ?_⟩
  exact (otherSlotsUntouchedAndUnread _ _ _ j ht (by simpa using hij)).1

/-- The CRC field of a message that has arrived is the CRC of the sender's CRC input. -/
theorem Arrived.crc_eq (h : Arrived fr put x t bt) (hfr : FrameOf p fr put x) (hok : (put x).Ok) :
    memRead t fr.crcAt fr.crcBytes = .ok (crcOf (engineOf p).2 (crcInput (put x) bt)).toNat := by
  obtain ⟨v, hread, hcrc⟩ := h.received.crcAgrees
  rwa [Except.ok.inj (hcrc.symm.trans (hfr.crc_message hok h.message (hfr.lenOk_iff.mp h.lenOk)))] at hread

/-- A check of it by a receiver whose fields have the same places: the CRC of its own CRC input decides, and then its
own Data ID. -/
theorem Arrived.check_other (h : Arrived fr put x t bt) (hfr : FrameOf p fr put x) (hfr' : FrameOf p fr' put y)
    (hplaces : fr.SamePlaces fr') (hok : (put x).Ok) (hj : t.slots[j]? = some (put y)) :
    ∃ u, exec (checkOf p j) t = .next u ∧ u.err = 0 ∧
      (crcOf (engineOf p).2 (crcInput (put x) bt) ≠ crcOf (engineOf p).2 (crcInput (put y) bt) → u.status = 4) ∧
      (crcOf (engineOf p).2 (crcInput (put x) bt) = crcOf (engineOf p).2 (crcInput (put y) bt) →
        fr'.idAgrees t = .ok false → u.status = 5) := by
  have hok' := h.inv.slot_ok hj
  have hl' : fr'.lenOk t.len.toNat = true := hplaces.lenOk ▸ h.lenOk
  obtain ⟨idOk, hid⟩ := (hfr'.local hok' hl').idAgrees.ok_of_message h.message
  have hcheck := check_message (put := put) (x := y) (i := j) (fun _ => hplaces.lengthAgrees ▸ h.received.lengthAgrees)
    (fun _ => hplaces.crcAt ▸ hplaces.crcBytes ▸ h.crc_eq hfr hok)
    (fun _ => hfr'.crc_message hok' h.message (hfr'.lenOk_iff.mp hl')) (fun _ => hid)
    (fun _ => hplaces.counter ▸ h.received.counter)
  rw [← (exec_checkOf p j t).of_frame hfr' hj, if_neg (by simp [hl']), if_neg (by simp)] at hcheck
  refine ⟨_, hcheck, ?_, fun hne => ?_, fun heq hfalse => ?_⟩
  · split_ifs <;> rfl
  · rw [if_pos fun hnat => hne (BitVec.eq_of_toNat_eq hnat)]
    rfl
  · rw [if_neg (not_not.mpr (congrArg BitVec.toNat heq)), if_pos (Except.ok.inj (hid.symm.trans hfalse))]
    rfl

/-- A protect, and the check of a receiver whose fields have the same places. -/
theorem FrameOf.protect_check (hfr : FrameOf p fr put x) (hfr' : FrameOf p fr' put y) (hplaces : fr.SamePlaces fr')
    (hne : put x ≠ put y) (hs : s.Inv) (hm : Message s bs) (hi : s.slots[i]? = some (put x))
    (hj : s.slots[j]? = some (put y)) (hl : LenOk (put x) s.len.toNat) : ∃ t bt u,
    exec (protectOf p i) s = .next t ∧ t.err = 0 ∧ Arrived fr put x t bt ∧ exec (checkOf p j) t = .next u ∧ u.err = 0 ∧
      (crcOf (engineOf p).2 (crcInput (put x) bt) ≠ crcOf (engineOf p).2 (crcInput (put y) bt) → u.status = 4) ∧
      (crcOf (engineOf p).2 (crcInput (put x) bt) = crcOf (engineOf p).2 (crcInput (put y) bt) →
        fr'.idAgrees t = .ok false → u.status = 5) := by
  have hij : i ≠ j := by
    rintro rfl
    exact hne (Option.some.inj (hi.symm.trans hj))
  obtain ⟨t, bt, ht, hterr, harrived, hothers⟩ := hfr.exec_protect hs hm hi hl
  obtain ⟨u, hu, huerr, hstatus⟩ :=
    harrived.check_other hfr hfr' hplaces (hs.slot_ok hi) ((hothers j hij).trans hj)
  exact ⟨t, bt, u, ht, hterr, harrived, hu, huerr, hstatus⟩

/-- Where the receiver's CRC input has another CRC than the sender's, the check ends in CrcError (R230). -/
theorem FrameOf.reportsCrcError (hfr : FrameOf p fr put x) (hfr' : FrameOf p fr' put y) (hplaces : fr.SamePlaces fr')
    (hs : s.Inv) (hm : Message s bs) (hi : s.slots[i]? = some (put x)) (hj : s.slots[j]? = some (put y))
    (hl : LenOk (put x) s.len.toNat)
    (hcrc : ∀ t bt, Arrived fr put x t bt →
      crcOf (engineOf p).2 (crcInput (put x) bt) ≠ crcOf (engineOf p).2 (crcInput (put y) bt)) :
    ReportsCrcError (protectOf p i) (checkOf p j) s := by
  have hne : put x ≠ put y := fun hxy => by
    obtain ⟨t, bt, -, -, harrived, -⟩ := hfr.exec_protect hs hm hi hl
    exact hcrc t bt harrived (by rw [hxy])
  obtain ⟨t, bt, u, ht, hterr, harrived, hu, huerr, hstatus, -⟩ := hfr.protect_check hfr' hplaces hne hs hm hi hj hl
  exact ⟨t, u, ht, hterr, hu, huerr, hstatus (hcrc t bt harrived)⟩

end Frames

/-! ### Profiles that store the Data ID -/

/-- A field that holds one value does not hold another. -/
theorem fieldIs_of_other {a n v v' : Nat} {s : State} (hne : v ≠ v') (h : fieldIs a n v s = .ok true) :
    fieldIs a n v' s = .ok false := by
  obtain ⟨x, hread, hx⟩ := access_bind_eq_ok.mp h
  obtain rfl : x = v := by simpa using hx
  simp [fieldIs, hread, hne]

/-- The same of the first of two fields that are tested together. -/
theorem fieldsAre_of_other {a n v v' : Nat} {f : State → Access Bool} {s : State} (hne : v ≠ v')
    (h : (fieldIs a n v s >>= fun idOk => f s >>= fun metaOk => .ok (idOk && metaOk)) = (.ok true : Access Bool)) :
    (fieldIs a n v' s >>= fun idOk => f s >>= fun metaOk => .ok (idOk && metaOk)) = (.ok false : Access Bool) := by
  obtain ⟨idOk, hid, h⟩ := access_bind_eq_ok.mp h
  obtain ⟨metaOk, hmeta, h⟩ := access_bind_eq_ok.mp h
  obtain ⟨rfl, rfl⟩ : idOk = true ∧ metaOk = true := by simpa using h
  simp [fieldIs_of_other hne hid, hmeta]

/-- A slot with another Data ID has the same configuration only where the Data ID is no other. -/
theorem withOtherId_eq_of_sameCfg {x : Slot} {d : Word32} (h : SameCfg (withOtherId x d) x) : withOtherId x d = x := by
  cases x with
  | none => rfl
  | p5 | p6 | p11 | p22 => rfl
  | p4 x | p4m x | p7 x | p7m x | p8 x =>
    simp only [withOtherId, SameCfg] at h ⊢
    rw [h]

/-- The frame of the same configuration with another stored Data ID has the same places and the same CRC input, and
does not find its Data ID in a message of the first one. -/
theorem FrameOf.of_otherId {p : Profile} {C : Type} {w : Nat} {fr : Frame w} {put : Inst C w → Slot} {x : Inst C w}
    (hfr : FrameOf p fr put x) (hp : p = .p4 ∨ p = .p4m ∨ p = .p7 ∨ p = .p7m ∨ p = .p8) {d : Word32} {sy : Slot}
    (hcfg : SameCfg (withOtherId (put x) d) sy) (hne : withOtherId (put x) d ≠ put x) :
    ∃ fr' y, sy = put y ∧ FrameOf p fr' put y ∧ fr.SamePlaces fr' ∧
      (∀ bs, crcInput (put x) bs = crcInput (put y) bs) ∧
      ∀ s, fr.idAgrees s = .ok true → fr'.idAgrees s = .ok false := by
  cases hfr with
  | p5 | p6 | p11 | p22 => simp at hp
  | p4 x | p7 x | p8 x =>
    have hd : x.cfg.dataId.toNat ≠ d.toNat := fun h => hne (by rw [← BitVec.eq_of_toNat_eq h]; rfl)
    cases sy <;> simp only [withOtherId, SameCfg] at hcfg
    next y =>
      obtain ⟨cfg, tx, rx⟩ := y
      subst hcfg
      refine ⟨_, _, rfl, by constructor, ?_⟩
      exact ⟨⟨rfl, rfl, rfl, rfl, rfl⟩, fun _ => rfl, fun _ => fieldIs_of_other hd⟩
  | p4m x | p7m x =>
    have hd : x.cfg.dataId.toNat ≠ d.toNat := fun h => hne (by rw [← BitVec.eq_of_toNat_eq h]; rfl)
    cases sy <;> simp only [withOtherId, SameCfg] at hcfg
    next y =>
      obtain ⟨cfg, tx, rx⟩ := y
      subst hcfg
      refine ⟨_, _, rfl, by constructor, ?_⟩
      exact ⟨⟨rfl, rfl, rfl, rfl, rfl⟩, fun _ => rfl, fun _ => fieldsAre_of_other hd⟩

/-- Settles O53: the CRC is the receiver's own, and the Data ID stored is the sender's. -/
theorem wrongDataIdIsReported : Obligations.WrongDataIdIsReported := by
  intro p i j s bs sx sy d hs hm hi hx hp hj hcfg hne hl
  obtain ⟨C, w, fr, put, x, hfr, rfl⟩ := exists_frameOf hx
  obtain ⟨fr', y, rfl, hfr', hplaces, hinput, hid⟩ := hfr.of_otherId hp hcfg hne
  have hxy : put x ≠ put y := fun h => hne (withOtherId_eq_of_sameCfg (h ▸ hcfg))
  obtain ⟨t, bt, u, ht, hterr, harrived, hu, huerr, -, hstatus⟩ := hfr.protect_check hfr' hplaces hxy hs hm hi hj hl
  exact ⟨t, u, ht, hterr, hu, huerr, hstatus (congrArg _ (hinput bt)) (hid t harrived.received.idAgrees)⟩

end Sys2Proof.Machine
end

section
/-! A receiver with another Data ID in its CRC input (R233): one changed byte changes every CRC (R140), and two changed
bytes at the end change a 16-bit one. -/

namespace Sys2Proof.Machine

open Sys2Proof.Claims

/-! ### Two bytes into the 16-bit engine -/

/-- A byte that stands in the low half of the 16-bit register is, eight shifts later, in the high half. -/
theorem repeatTimes_crcShift_byte (b : Byte) :
    repeatTimes (crcShift crc16) 8 (b.setWidth 16) = crcEnter crc16 b := by
  revert b
  decide +kernel

theorem crcEnter_crc16_toNat (b : Byte) : (crcEnter crc16 b).toNat = b.toNat * 256 := by
  have hb : b.toNat < 256 := b.isLt
  change (b.setWidth 16 <<< (16 - 8)).toNat = _
  rw [BitVec.toNat_shiftLeft, BitVec.toNat_setWidth, Nat.shiftLeft_eq]
  omega

/-- Two bytes fed into the empty 16-bit register leave it empty only where both are 0. -/
theorem crc16_two_bytes_eq_zero {a b : Byte} (h : crcByte crc16 (crcByte crc16 0 a) b = 0) : a = 0 ∧ b = 0 := by
  rw [crcByte_eq, ← repeatTimes_crcShift_byte b, crcByte_eq] at h
  have hstart := repeatTimes_eq_zero (fun _ => crcShift_eq_zero crc16_detects.oddPoly) 8 _ h
  rw [← repeatTimes_xor (crcShift_xor crc16)] at hstart
  have hhalves := repeatTimes_eq_zero (fun _ => crcShift_eq_zero crc16_detects.oddPoly) 8 _ hstart
  have hnat := congrArg BitVec.toNat (BitVec.xor_eq_zero_iff.mp hhalves)
  rw [BitVec.ofNat_eq_ofNat, BitVec.zero_xor, crcEnter_crc16_toNat, BitVec.toNat_setWidth] at hnat
  have ha : a.toNat < 256 := a.isLt
  have hb : b.toNat < 256 := b.isLt
  obtain ⟨ha0, hb0⟩ : a.toNat = 0 ∧ b.toNat = 0 := by omega
  exact ⟨BitVec.eq_of_toNat_eq ha0, BitVec.eq_of_toNat_eq hb0⟩

/-- Sequences that differ in their last two bytes have different 16-bit CRCs (R140). -/
theorem crc16_ne_of_last_two {l : List Byte} {a b a' b' : Byte} (h : a ≠ a' ∨ b ≠ b') :
    crcOf crc16 (l ++ [a, b]) ≠ crcOf crc16 (l ++ [a', b']) := by
  intro heq
  have hfeed := crcFinish_injective crc16 heq
  simp only [crcFeed_append, crcFeed_cons, crcFeed_nil] at hfeed
  have hsum := crcByte_xor crc16 (crcByte crc16 (crcFeed crc16 crc16.init l) a)
    (crcByte crc16 (crcFeed crc16 crc16.init l) a') b b'
  rw [← crcByte_xor, BitVec.xor_self, hfeed, BitVec.xor_self] at hsum
  obtain ⟨ha, hb⟩ := crc16_two_bytes_eq_zero hsum
  exact h.elim (absurd (BitVec.xor_eq_zero_iff.mp ha)) (absurd (BitVec.xor_eq_zero_iff.mp hb))

/-! ### The bytes of a Data ID -/

theorem highByte_eq_iff {d d' : BitVec 16} :
    d.extractLsb' 8 8 = d'.extractLsb' 8 8 ↔ d.toNat / 256 = d'.toNat / 256 := by
  rw [← BitVec.toNat_inj, BitVec.extractLsb'_toNat, BitVec.extractLsb'_toNat, Nat.shiftRight_eq_div_pow,
    Nat.shiftRight_eq_div_pow]
  omega

theorem lowByte_eq_iff {d d' : BitVec 16} :
    d.extractLsb' 0 8 = d'.extractLsb' 0 8 ↔ d.toNat % 256 = d'.toNat % 256 := by
  rw [← BitVec.toNat_inj, BitVec.extractLsb'_toNat, BitVec.extractLsb'_toNat, Nat.shiftRight_zero, Nat.shiftRight_zero]

/-- Two Data IDs differ in one of their bytes. -/
theorem bytes_ne_of_ne {d d' : BitVec 16} (h : d ≠ d') :
    d.extractLsb' 8 8 ≠ d'.extractLsb' 8 8 ∨ d.extractLsb' 0 8 ≠ d'.extractLsb' 0 8 := by
  have hnat : d.toNat ≠ d'.toNat := fun heq => h (BitVec.eq_of_toNat_eq heq)
  rw [Ne, Ne, highByte_eq_iff, lowByte_eq_iff]
  omega

/-- The data-ID nibble is bits 11 to 8 (R351). -/
theorem idn_toNat (c : P11Cfg) : c.idn.toNat = c.dataId.toNat / 256 % 16 := by
  change (c.dataId.extractLsb' 8 4).toNat = _
  rw [BitVec.extractLsb'_toNat, Nat.shiftRight_eq_div_pow]

theorem idnByte_eq_iff {c c' : P11Cfg} :
    c.idn.setWidth 8 = c'.idn.setWidth 8 ↔ c.dataId.toNat / 256 % 16 = c'.dataId.toNat / 256 % 16 := by
  rw [← BitVec.toNat_inj, BitVec.toNat_setWidth, BitVec.toNat_setWidth, idn_toNat, idn_toNat]
  omega

/-! ### Data ID bytes before the message -/

theorem crcOf_ne_of_first {w : Nat} {e : Engine w} (he : e.Detects) {a a' : Byte} (h : a ≠ a') (l : List Byte) :
    crcOf e (a :: l) ≠ crcOf e (a' :: l) := crcOf_ne_of_differAt he (.mk [] l h)

/-- Where one of the first two bytes differs and the CRC does not, the other byte differs too. -/
theorem both_ne_of_crcOf_eq {w : Nat} {e : Engine w} (he : e.Detects) {a a' b b' : Byte} {l : List Byte}
    (hne : a ≠ a' ∨ b ≠ b') (h : crcOf e (a :: b :: l) = crcOf e (a' :: b' :: l)) : a ≠ a' ∧ b ≠ b' := by
  constructor
  · rintro rfl
    exact crcOf_ne_of_differAt he (.mk [a] l (hne.resolve_left (not_not.mpr rfl))) h
  · rintro rfl
    exact crcOf_ne_of_first he (hne.resolve_right (not_not.mpr rfl)) _ h

/-! ### The CRC input of the profiles with a Data ID in it -/

theorem crcInput_p5 (x : Inst FixCfg 8) (bs : List Byte) : crcInput (.p5 x) bs =
    coverOf bs x.cfg.ob 2 ++ [x.cfg.dataId.extractLsb' 8 8, x.cfg.dataId.extractLsb' 0 8] :=
  (FrameOf.p5 x).crcInput_eq bs

theorem crcInput_p6 (x : Inst (VarCfg 16) 8) (bs : List Byte) : crcInput (.p6 x) bs =
    coverOf bs x.cfg.ob 2 ++ [x.cfg.dataId.extractLsb' 8 8, x.cfg.dataId.extractLsb' 0 8] :=
  (FrameOf.p6 x).crcInput_eq bs

theorem crcInput_p11 (x : Inst P11Cfg 4) (bs : List Byte) :
    crcInput (.p11 x) bs = x.cfg.idBytes ++ coverOf bs x.cfg.cb 1 :=
  ((FrameOf.p11 x).crcInput_eq bs).trans (List.append_nil _)

theorem crcInput_p22 (x : Inst P22Cfg 4) (bs : List Byte) :
    crcInput (.p22 x) bs = x.cfg.idAt (counterField (.p22 x) bs) :: coverOf bs x.cfg.ob 1 :=
  ((FrameOf.p22 x).crcInput_eq bs).trans (List.append_nil _)

theorem crcInput_both_p11 {x : Inst P11Cfg 4} (h : x.cfg.mode = .both) (bs : List Byte) :
    crcInput (.p11 x) bs = x.cfg.dataId.extractLsb' 0 8 :: 0 :: coverOf bs x.cfg.cb 1 := by
  rw [crcInput_p11, P11Cfg.idBytes, h]
  rfl

theorem crcInput_nibble_p11 {x : Inst P11Cfg 4} {o : Word32} (h : x.cfg.mode = .nibble o) (bs : List Byte) :
    crcInput (.p11 x) bs =
      x.cfg.dataId.extractLsb' 0 8 :: x.cfg.idn.setWidth 8 :: coverOf bs x.cfg.cb 1 := by
  rw [crcInput_p11, P11Cfg.idBytes, h]
  rfl

theorem P22Cfg.idAt_toNat (c : P22Cfg) (k : BitVec 4) : c.idAt k.toNat = c.idList[k.toNat]'(k.isLt) := by
  rw [P22Cfg.idAt, List.getD_eq_getElem _ _ (by simpa using k.isLt), Vector.getElem_toList]

/-! ### The profiles, one after the other -/

/-- In Nibble mode another data-ID nibble is not the one stored (R355). -/
theorem idAgrees_p11_of_other {c c' : P11Cfg} {o : Word32} (hc : c.mode = .nibble o) (hc' : c'.mode = .nibble o)
    (hne : c.idn.toNat ≠ c'.idn.toNat) {s : State} (h : (frameP11 c).idAgrees s = .ok true) :
    (frameP11 c').idAgrees s = .ok false := by
  simp only [frameP11, hc, hc'] at h ⊢
  obtain ⟨v, hread, hv⟩ := access_bind_eq_ok.mp h
  obtain rfl : v = c.idn.toNat := by simpa using hv
  simp [hread, hne]

section

variable {i j : Nat} {s : State} {bs : List Byte}

theorem reportsCrcError_p5 {x y : Inst FixCfg 8} {d : BitVec 16} (hs : s.Inv) (hm : Message s bs)
    (hi : s.slots[i]? = some (.p5 x)) (hj : s.slots[j]? = some (.p5 y)) (hd : d ≠ x.cfg.dataId)
    (hcfg : y.cfg = { x.cfg with dataId := d }) (hl : LenOk (.p5 x) s.len.toNat) :
    ReportsCrcError (.protectP5 i) (.checkP5 j) s := by
  refine (FrameOf.p5 x).reportsCrcError (.p5 y) (by rw [hcfg]; exact ⟨rfl, rfl, rfl, rfl, rfl⟩) hs hm hi hj hl
    fun t bt _ => ?_
  rw [crcInput_p5, crcInput_p5, hcfg]
  exact crc16_ne_of_last_two (bytes_ne_of_ne hd.symm)

theorem reportsCrcError_p6 {x y : Inst (VarCfg 16) 8} {d : BitVec 16} (hs : s.Inv) (hm : Message s bs)
    (hi : s.slots[i]? = some (.p6 x)) (hj : s.slots[j]? = some (.p6 y)) (hd : d ≠ x.cfg.dataId)
    (hcfg : y.cfg = { x.cfg with dataId := d }) (hl : LenOk (.p6 x) s.len.toNat) :
    ReportsCrcError (.protectP6 i) (.checkP6 j) s := by
  refine (FrameOf.p6 x).reportsCrcError (.p6 y) (by rw [hcfg]; exact ⟨rfl, rfl, rfl, rfl, rfl⟩) hs hm hi hj hl
    fun t bt _ => ?_
  rw [crcInput_p6, crcInput_p6, hcfg]
  exact crc16_ne_of_last_two (bytes_ne_of_ne hd.symm)

theorem reportsCrcError_p11_both {x y : Inst P11Cfg 4} {d : BitVec 16} (hs : s.Inv) (hm : Message s bs)
    (hi : s.slots[i]? = some (.p11 x)) (hj : s.slots[j]? = some (.p11 y)) (hmode : x.cfg.mode = .both)
    (hd : d.toNat % 256 ≠ x.cfg.dataId.toNat % 256) (hcfg : y.cfg = { x.cfg with dataId := d })
    (hl : LenOk (.p11 x) s.len.toNat) : ReportsCrcError (.protectP11 i) (.checkP11 j) s := by
  have hmode' : y.cfg.mode = .both := by rw [hcfg, hmode]
  refine (FrameOf.p11 x).reportsCrcError (.p11 y) (by rw [hcfg]; exact ⟨rfl, rfl, rfl, rfl, rfl⟩) hs hm hi hj hl
    fun t bt _ => ?_
  rw [crcInput_both_p11 hmode, crcInput_both_p11 hmode', hcfg]
  exact crcOf_ne_of_first (engineOf_detects .p11) (mt lowByte_eq_iff.mp hd.symm) _

theorem reportsCrcError_p22 {x y : Inst P22Cfg 4} {l : Vector Byte 16} (hs : s.Inv) (hm : Message s bs)
    (hi : s.slots[i]? = some (.p22 x)) (hj : s.slots[j]? = some (.p22 y))
    (hd : l[x.tx.toNat]'(x.tx.isLt) ≠ x.cfg.idList[x.tx.toNat]'(x.tx.isLt))
    (hcfg : y.cfg = { x.cfg with idList := l }) (hl : LenOk (.p22 x) s.len.toNat) :
    ReportsCrcError (.protectP22 i) (.checkP22 j) s := by
  refine (FrameOf.p22 x).reportsCrcError (.p22 y) (by rw [hcfg]; exact ⟨rfl, rfl, rfl, rfl, rfl⟩) hs hm hi hj hl
    fun t bt harrived => ?_
  have hcounter : counterField (.p22 y) bt = x.tx.toNat := by
    rw [← harrived.counterField_eq, counterField, counterField, hcfg]
  rw [crcInput_p22, crcInput_p22, harrived.counterField_eq, hcounter, P22Cfg.idAt_toNat, P22Cfg.idAt_toNat, hcfg]
  exact crcOf_ne_of_first (engineOf_detects .p22) hd.symm _

/-- Two Data IDs of profile 11 in Nibble mode that differ in bits 11 to 0 give a message one CRC only where both the
low byte and the data-ID nibble differ (R353). -/
theorem bytes_ne_of_crc_eq_p11 {x y : Inst P11Cfg 4} {o : Word32} (hmode : x.cfg.mode = .nibble o)
    (hmode' : y.cfg.mode = .nibble o) (hcb : y.cfg.cb = x.cfg.cb)
    (hd : y.cfg.dataId.toNat % 4096 ≠ x.cfg.dataId.toNat % 4096) {bt : List Byte}
    (hcrc : crcOf (engineOf .p11).2 (crcInput (.p11 x) bt) = crcOf (engineOf .p11).2 (crcInput (.p11 y) bt)) :
    x.cfg.dataId.toNat % 256 ≠ y.cfg.dataId.toNat % 256 ∧
      x.cfg.dataId.toNat / 256 % 16 ≠ y.cfg.dataId.toNat / 256 % 16 := by
  rw [crcInput_nibble_p11 hmode, crcInput_nibble_p11 hmode', hcb] at hcrc
  rw [Ne, Ne, ← lowByte_eq_iff, ← idnByte_eq_iff]
  refine both_ne_of_crcOf_eq (engineOf_detects .p11) ?_ hcrc
  rw [Ne, Ne, lowByte_eq_iff, idnByte_eq_iff]
  omega

/-- Profile 11 in Nibble mode: CrcError, unless the two CRCs are the same nevertheless; then the data-ID nibble stored
is not the receiver's (R355). -/
theorem reportsIdOrCrcError_p11 {x y : Inst P11Cfg 4} {d : BitVec 16} {o : Word32} (hs : s.Inv) (hm : Message s bs)
    (hi : s.slots[i]? = some (.p11 x)) (hj : s.slots[j]? = some (.p11 y)) (hmode : x.cfg.mode = .nibble o)
    (hd : d.toNat % 4096 ≠ x.cfg.dataId.toNat % 4096) (hcfg : y.cfg = { x.cfg with dataId := d })
    (hl : LenOk (.p11 x) s.len.toNat) :
    ∃ t u, exec (.protectP11 i) s = .next t ∧ t.err = 0 ∧ exec (.checkP11 j) t = .next u ∧ u.err = 0 ∧
      (u.status = 4 ∨ (u.status = 5 ∧ d.toNat % 256 ≠ x.cfg.dataId.toNat % 256 ∧
        d.toNat / 256 % 16 ≠ x.cfg.dataId.toNat / 256 % 16)) := by
  have hmode' : y.cfg.mode = .nibble o := by rw [hcfg, hmode]
  have hcb : y.cfg.cb = x.cfg.cb := by rw [P11Cfg.cb, P11Cfg.cb, hcfg]
  obtain rfl : y.cfg.dataId = d := by rw [hcfg]
  have hne : Slot.p11 x ≠ .p11 y := fun h => hd (by rw [Slot.p11.inj h])
  obtain ⟨t, bt, u, ht, hterr, harrived, hu, huerr, hcrcError, hidError⟩ :=
    (FrameOf.p11 x).protect_check (.p11 y) (by rw [hcfg]; exact ⟨rfl, rfl, rfl, rfl, rfl⟩) hne hs hm hi hj hl
  refine ⟨t, u, ht, hterr, hu, huerr, ?_⟩
  by_cases hcrc : crcOf (engineOf .p11).2 (crcInput (.p11 x) bt) = crcOf (engineOf .p11).2 (crcInput (.p11 y) bt)
  · obtain ⟨hlow, hnibble⟩ := bytes_ne_of_crc_eq_p11 hmode hmode' hcb hd hcrc
    have hidn : x.cfg.idn.toNat ≠ y.cfg.idn.toNat := by rwa [idn_toNat, idn_toNat]
    exact .inr ⟨hidError hcrc (idAgrees_p11_of_other hmode hmode' hidn harrived.received.idAgrees), hlow.symm,
      hnibble.symm⟩
  · exact .inl (hcrcError hcrc)

end

/-- Settles O54: in each profile the CRC input has other Data ID bytes, and the CRC notices them. -/
theorem wrongDataIdBreaksCrc : Obligations.WrongDataIdBreaksCrc :=
  ⟨fun _ _ _ _ _ _ _ hs hm hi hj => reportsCrcError_p5 hs hm hi hj,
    fun _ _ _ _ _ _ _ hs hm hi hj => reportsCrcError_p6 hs hm hi hj,
    fun _ _ _ _ _ _ _ hs hm hi hj => reportsCrcError_p11_both hs hm hi hj,
    fun _ _ _ _ _ _ _ _ hs hm hi hj => reportsIdOrCrcError_p11 hs hm hi hj,
    fun _ _ _ _ _ _ _ hs hm hi hj => reportsCrcError_p22 hs hm hi hj⟩

end Sys2Proof.Machine
end

section
/-! What `PROTECT.<p>` and `CHECK.<p>` do on a message, said once for all nine profiles (R220, R221, R230, R232): their
words and their errors, a protect whose fields lie side by side, and a check with its findings in order. -/

namespace Sys2Proof.Machine

open Sys2Proof.Claims

/-! ### Words and errors -/

/-- The word of a format S command is its OPC and its slot index (R90). -/
theorem hasSlotWord_of_opc {c : Nat → Instr} {o : Nat} (hopc : ∀ k, opcOf (c k) = o)
    (hslot : ∀ k, (c k).slot? = some k) : HasSlotWord c o := by
  intro k hk
  rw [encode, hslot, Option.getD_some, commandWord_toNat (opcOf_lt _) hk, hopc]

/-- Every protect raises NotConstructed, then DataLengthError (R220, R221). -/
theorem protectErrors (p : Profile) : ProtectErrors p := by
  intro i s x hi
  refine ⟨(exec_protectOf p i s).of_other hi, fun hx hl => ?_⟩
  obtain ⟨C, w, fr, put, y, hfr, rfl⟩ := exists_frameOf hx
  rw [(exec_protectOf p i s).of_frame hfr hi]
  exact if_neg (mt hfr.lenOk_iff.mp hl)

/-- Every check raises NotConstructed (R220). -/
theorem checkErrors (p : Profile) : CheckErrors p := fun i s _ hi => (exec_checkOf p i s).of_other hi

/-! ### Fields that lie side by side -/

/-- Fields of the sizes and with the values of a list, one right behind the other from byte `a` on. -/
def adjacentFields : Nat → List (Nat × Nat) → FieldValues
  | _, [] => []
  | a, (n, v) :: l => (.bytes a n, v) :: adjacentFields (a + n) l

/-- The bytes of such fields, in ascending address order. -/
def adjacentBytes : List (Nat × Nat) → List Byte
  | [] => []
  | (n, v) :: l => beBytes n v ++ adjacentBytes l

theorem Stamped.mono {P blank blank' : Nat → Prop} {s t : State} {bs : List Byte} (h : Stamped P blank s bs t)
    (hb : ∀ y, blank y → blank' y) : Stamped P blank' s bs t := by
  obtain ⟨m, rfl, hm, hkept⟩ := h
  exact ⟨m, rfl, ⟨hm.length_eq, hm.fits, fun y hy hny => hm.byte_eq y hy (mt (hb y) hny)⟩, hkept⟩

/-- Adjacent fields set right behind what was stamped before: their bytes are stamped too and hold values. -/
theorem writeFields_adjacent {P blank' : Nat → Prop} {s : State} {bs : List Byte} {a : Nat}
    (hlen : bs.length = s.len.toNat) :
    ∀ {l : List (Nat × Nat)} {u : List Byte} {blank : Nat → Prop} {t : State} {a' : Nat},
    Stamped P blank s (patch bs a u) t → a' = a + u.length → a' + (adjacentBytes l).length ≤ s.len.toNat →
    (∀ y, a ≤ y → y < a' + (adjacentBytes l).length → P y) →
    (∀ y, blank y → blank' y ∨ (a' ≤ y ∧ y < a' + (adjacentBytes l).length)) →
    ∃ t', writeFields (adjacentFields a' l) t = .ok t' ∧ Stamped P blank' s (patch bs a (u ++ adjacentBytes l)) t'
  | [], u, blank, t, a', hs, _, _, _, hb => by
    refine ⟨t, rfl, ?_⟩
    rw [adjacentBytes, List.append_nil]
    refine hs.mono fun y hy => (hb y hy).resolve_right fun hin => ?_
    rw [adjacentBytes, List.length_nil] at hin
    omega
  | (n, v) :: l, u, blank, t, a', hs, ha, hin, hP, hb => by
    rw [adjacentBytes, List.length_append, beBytes_length] at hin hP hb
    obtain ⟨t1, hwrite, hs1⟩ := stamped_next (blank' := fun y => blank y ∧ ¬(a' ≤ y ∧ y < a' + n)) (n := n) v hs hlen
      ha (by omega) (fun y h1 h2 => hP y h1 (by omega)) fun y hy => or_iff_not_imp_right.mpr fun hout => ⟨hy, hout⟩
    obtain ⟨t', hrest, hs'⟩ := writeFields_adjacent hlen (l := l) (a' := a' + n) hs1
      (by rw [ha, List.length_append, beBytes_length]; omega) (by omega) (fun y h1 h2 => hP y h1 (by omega))
      fun y hy => (hb y hy.1).imp_right fun _ => by omega
    rw [List.append_assoc] at hs'
    refine ⟨t', ?_, hs'⟩
    rw [adjacentFields, writeFields, Place.write, hwrite, access_ok_bind, hrest]

/-! ### Protect -/

section Frames

variable {p : Profile} {C : Type} {w : Nat} {fr : Frame w} {put : Inst C w → Slot} {x : Inst C w} {s : State}
  {bs : List Byte} {i : Nat}

/-- The CRC of a message does not need the bytes of the CRC field (R224, R445). -/
theorem FrameOf.crc_messageBut (hfr : FrameOf p fr put x) (hok : (put x).Ok) {blank : Nat → Prop}
    (hm : MessageBut blank s bs) (hl : LenOk (put x) s.len.toNat)
    (hb : ∀ y, blank y → fr.crcAt ≤ y ∧ y < fr.crcAt + fr.crcBytes) :
    fr.crc s = .ok (crcOf (engineOf p).2 (crcInput (put x) bs)).toNat := by
  have hcover := coverBytes_messageBut hm (hfr.local hok (hfr.lenOk_iff.mpr hl)).crcField hb
  rw [hfr.crcInput_eq]
  cases hfr with
  | p4 | p4m | p7 | p7m | p8 =>
    simp only [frameP4, frameP4M, frameP7, frameP7M, frameP8, vseqP4, vseqP4M, vseqP7, vseqP7M, vseqP8,
      headerCover_eq] at hcover ⊢
    simp only [hcover, access_ok_bind, idBefore, idBehind, List.nil_append, List.append_nil]
    rfl
  | p5 | p6 =>
    simp only [frameP5, frameP6, vseqP5, vseqP6, Nat.add_zero] at hcover ⊢
    rw [hcover]
    rfl
  | p11 =>
    simp only [frameP11, vseqP11] at hcover ⊢
    simp only [hcover, access_ok_bind, idBehind, List.append_nil]
    rfl
  | p22 x =>
    have hinside := hok.inside
    simp only [headerBytes, LenOk] at hinside hl
    have hcounter := nibRead_messageBut hm (o := x.cfg.offset.toNat + 8) (by omega) fun hy => by
      have := hb _ hy
      simp only [frameP22, P22Cfg.ob] at this
      omega
    simp only [frameP22, vseqP22] at hcover ⊢
    simp only [hcounter, hcover, access_ok_bind, idBehind, List.append_nil]
    rfl

/-- A protect whose fields other than the CRC field lie side by side: they are set, and then the CRC field to the CRC of
the message they are in (R221, R224). No byte of the fields needs a value before. -/
theorem FrameOf.protect_stampsTo (hfr : FrameOf p fr put x) (hok : (put x).Ok)
    (hm : MessageBut (InFields (put x)) s bs) (hi : s.slots[i]? = some (put x)) (hl : LenOk (put x) s.len.toNat)
    {a : Nat} {l : List (Nat × Nat)} (hstamps : stampsOf s.len.toNat (put x) = adjacentFields a l)
    (hin : a + (adjacentBytes l).length ≤ s.len.toNat)
    (hfields : ∀ y, InFields (put x) y ↔
      (a ≤ y ∧ y < a + (adjacentBytes l).length) ∨ (fr.crcAt ≤ y ∧ y < fr.crcAt + fr.crcBytes)) :
    StampsTo (protectOf p i) i s (put { x with tx := x.tx + 1 })
      (patch (patch bs a (adjacentBytes l)) fr.crcAt (beBytes fr.crcBytes
        (crcOf (engineOf p).2 (crcInput (put x) (patch bs a (adjacentBytes l)))).toNat)) (InFields (put x)) := by
  have hlenOk := hfr.lenOk_iff.mpr hl
  obtain ⟨s1, hwrite, hs1⟩ := writeFields_adjacent (blank' := fun y => fr.crcAt ≤ y ∧ y < fr.crcAt + fr.crcBytes)
    hm.length_eq (stamped_nil (P := InFields (put x)) hm a) rfl hin (fun y h1 h2 => (hfields y).mpr (.inl ⟨h1, h2⟩))
    fun y hy => ((hfields y).mp hy).symm
  have hcrc := hfr.crc_messageBut hok hs1.message (hs1.len ▸ hl) fun _ => id
  obtain ⟨m, hexec, hm', hkept⟩ := protect_message (put := put) (i := i) hlenOk
    ((hfr.stamp_eq s).trans (hstamps ▸ hwrite)) hs1 hcrc (hfr.local hok hlenOk).crcField
    (fun y h1 h2 => (hfields y).mpr (.inr ⟨h1, h2⟩)) fun _ => id
  exact ⟨m, ((exec_protectOf p i s).of_frame hfr hi).trans hexec, hm', hkept⟩


/-- A protect whose CRC field is right behind its other fields `body`, and whose CRC input is the message alone. -/
theorem FrameOf.protect_stampsTo_crcBehind (hfr : FrameOf p fr put x) (hok : (put x).Ok)
    (hm : MessageBut (InFields (put x)) s bs) (hi : s.slots[i]? = some (put x)) (hl : LenOk (put x) s.len.toNat)
    {a : Nat} {l : List (Nat × Nat)} {body : List Byte} (hstamps : stampsOf s.len.toNat (put x) = adjacentFields a l)
    (hbody : adjacentBytes l = body) (hcrcAt : fr.crcAt = a + body.length)
    (hinput : ∀ b, crcInput (put x) b = coverOf b fr.crcAt fr.crcBytes)
    (hfields : ∀ y, InFields (put x) y ↔ a ≤ y ∧ y < fr.crcAt + fr.crcBytes) :
    StampsTo (protectOf p i) i s (put { x with tx := x.tx + 1 })
      (bs.take a ++ body ++ beBytes fr.crcBytes (crcOf (engineOf p).2
        (bs.take a ++ body ++ bs.drop (fr.crcAt + fr.crcBytes))).toNat ++ bs.drop (fr.crcAt + fr.crcBytes))
      (InFields (put x)) := by
  subst hbody
  have hcrcField := (hfr.local hok (hfr.lenOk_iff.mpr hl)).crcField
  have hin : a + (adjacentBytes l).length ≤ bs.length := by rw [hm.length_eq]; omega
  have h := hfr.protect_stampsTo hok hm hi hl hstamps (by omega) fun y => (hfields y).trans (by omega)
  rw [hinput, hcrcAt, coverOf_patch_right hin, patch_patch_right hin, patch] at h
  simpa only [hcrcAt, List.length_append, beBytes_length, ← List.append_assoc, ← Nat.add_assoc] using h

end Frames

/-! ### Fields of a check -/

theorem fieldIs_holds {s : State} {a n v : Nat} {bs : List Byte} (hbs : Holds s a bs) (hn : bs.length = n) :
    fieldIs a n v s = .ok (decide (beValue bs = v)) := by
  subst hn
  simp only [fieldIs, memRead, readBytes_holds hbs, access_ok_bind]

theorem fieldIs_message {s : State} {bs : List Byte} (hm : Message s bs) {a n v : Nat} (h : a + n ≤ s.len.toNat) :
    fieldIs a n v s = .ok (decide (field bs a n = v)) := by
  simp only [fieldIs, memRead_message hm h, access_ok_bind]

/-- A slot that is set to what it holds. -/
theorem setSlot_self {s : State} {i : Nat} {y : Slot} (h : s.slots[i]? = some y) : s.setSlot i y = s := by
  obtain ⟨hlt, rfl⟩ := List.getElem?_eq_some_iff.mp h
  rw [State.setSlot, List.set_getElem_self]

/-- The counter stage of a check, its outcomes written out (R193, R232): a counter that is not accepted leaves the
slot as it was. -/
theorem counterStage_eq_counted {C : Type} {w : Nat} {put : Inst C w → Slot} {x : Inst C w} {i : Nat} {s : State}
    (hi : s.slots[i]? = some (put x)) (delta r : Nat) :
    counterStage delta put x i r s = counted delta put x i r s := by
  cases hrx : x.rx with
  | none =>
    simp only [counterStage, counted, hrx]
    rfl
  | some q =>
    have hkept (code : BitVec 3) : (s.setStatus code).setSlot i (put { x with rx := some q }) = s.setStatus code := by
      rw [← hrx]
      exact setSlot_self hi
    have hq : BitVec.ofNat w q.toNat = q := by rw [BitVec.ofNat_toNat, BitVec.setWidth_eq]
    simp only [counterStage, counted, hrx, Option.map_some, cval, counterDelta]
    by_cases h0 : (r + 2 ^ w - q.toNat) % 2 ^ w = 0
    · simp only [h0, if_true, hq, hkept]
      rfl
    by_cases h1 : (r + 2 ^ w - q.toNat) % 2 ^ w = 1
    · simp only [h1, Nat.one_ne_zero, if_true, if_false]
      rfl
    by_cases hd : (r + 2 ^ w - q.toNat) % 2 ^ w ≤ delta
    · simp only [h0, h1, hd, if_true, if_false]
      rfl
    · simp only [h0, h1, hd, if_false, hq, hkept]
      rfl

section Frames

variable {p : Profile} {C : Type} {w : Nat} {fr : Frame w} {put : Inst C w → Slot} {x : Inst C w} {s : State}
  {bs : List Byte} {i : Nat}

/-- The test of the Length field needs its own bytes only (R230, R445). -/
theorem FrameOf.lengthAgrees_holds (hfr : FrameOf p fr put x) {a n : Nat} (hfield : lengthField (put x) = some (a, n))
    (hbs : Holds s a bs) (hn : bs.length = n) : fr.lengthAgrees s = .ok (decide (beValue bs = s.len.toNat)) := by
  cases hfr with
  | p4 | p4m | p6 | p7 | p7m | p8 =>
    cases hfield
    exact fieldIs_holds hbs hn
  | p5 | p11 | p22 => cases hfield

/-- A check on a message: the length test, the Length field, the CRC, the Data ID signature and the counter stage, in
this order of precedence (R230, R231). -/
theorem FrameOf.exec_check_message (hfr : FrameOf p fr put x) (hok : (put x).Ok) (hm : Message s bs)
    (hi : s.slots[i]? = some (put x)) {lengthGood idGood : Prop} [Decidable lengthGood] [Decidable idGood]
    (hlength : LenOk (put x) s.len.toNat → fr.lengthAgrees s = .ok (decide lengthGood))
    (hid : LenOk (put x) s.len.toNat → fr.idAgrees s = .ok (decide idGood)) :
    exec (checkOf p i) s = .next (
      if fr.lenOk s.len.toNat = false then concluded s 6
      else if ¬lengthGood then concluded s 6
      else if field bs fr.crcAt fr.crcBytes ≠ (crcOf (engineOf p).2 (crcInput (put x) bs)).toNat then concluded s 4
      else if ¬idGood then concluded s 5
      else counted fr.delta put x i (counterField (put x) bs) s) := by
  rw [(exec_checkOf p i s).of_frame hfr hi, check_message (fun hl => hlength (hfr.lenOk_iff.mp hl))
    (fun hl => memRead_message hm (hfr.local hok hl).crcField)
    (fun hl => hfr.crc_message hok hm (hfr.lenOk_iff.mp hl)) (fun hl => hid (hfr.lenOk_iff.mp hl))
    (fun hl => hfr.counter_message hok hm (hfr.lenOk_iff.mp hl)), counterStage_eq_counted hi]
  simp only [decide_eq_false_iff_not]
  rfl

end Frames

/-- Every check stops at the length test, or at the Length field, before it reads further (R230, R445). -/
theorem checkLengthFindings (p : Profile) : CheckLengthFindings p := by
  intro i s x hi hx
  obtain ⟨C, w, fr, put, y, hfr, rfl⟩ := exists_frameOf hx
  rw [(exec_checkOf p i s).of_frame hfr hi]
  refine ⟨fun hl => if_neg (mt hfr.lenOk_iff.mp hl), fun a n bs hfield hl hn hbs hne => ?_⟩
  rw [check, if_pos (hfr.lenOk_iff.mpr hl), hfr.lengthAgrees_holds hfield hbs hn, decide_eq_false hne]
  rfl

end Sys2Proof.Machine
end

section
/-! Profiles 4 and 4M: `PROTECT` and `CHECK` on a message, byte by byte (R251 to R255, R261 to R265). -/

namespace Sys2Proof.Machine

theorem crcInput_p4 (x : Inst (VarCfg 32) 16) (bs : List Byte) :
    crcInput (.p4 x) bs = coverOf bs (x.cfg.ob + 8) 4 := ((FrameOf.p4 x).crcInput_eq bs).trans (List.append_nil _)

theorem crcInput_p4m (x : Inst MetaCfg 16) (bs : List Byte) :
    crcInput (.p4m x) bs = coverOf bs (x.cfg.ob + 12) 4 := ((FrameOf.p4m x).crcInput_eq bs).trans (List.append_nil _)

/-- The length test of a variable-length profile, as the rules of its check print it (R218, R230). -/
theorem lenOkRange_eq_false_iff {mn mx : Word32} {len : Nat} :
    lenOkRange mn mx len = false ↔ len * 8 < mn.toNat ∨ mx.toNat < len * 8 := by
  rw [← Bool.not_eq_true, lenOkRange_iff]
  omega

/-- A field of the header of a validated configuration lies inside a message of a legal length (R219). -/
theorem fieldIs_header {d : Nat} {c : VarCfg d} {p : Profile} {s : State} {bs : List Byte} (hc : c.Ok p)
    (hm : Message s bs) (hl : c.minLen.toNat ≤ 8 * s.len.toNat ∧ 8 * s.len.toNat ≤ c.maxLen.toNat) {k n : Nat}
    (hk : k + n ≤ headerBytes p) (v : Nat) :
    fieldIs (c.ob + k) n v s = .ok (decide (field bs (c.ob + k) n = v)) := by
  have hinside := hc.inside
  exact fieldIs_message hm (by rw [VarCfg.ob]; omega)

/-- Settles O41: the fields lie side by side, and the CRC field is right behind them. -/
theorem protectP4AndP4MFollowRules : Obligations.ProtectP4AndP4MFollowRules := by
  refine ⟨hasSlotWord_of_opc (fun _ => rfl) fun _ => rfl, hasSlotWord_of_opc (fun _ => rfl) fun _ => rfl,
    protectErrors .p4, protectErrors .p4m, fun s bs i x hm hi hok hl => ?_, fun s bs i x hm hi hok hl => ?_⟩
  · exact (FrameOf.p4 x).protect_stampsTo_crcBehind hok hm hi hl
      (l := [(2, s.len.toNat), (2, x.tx.toNat), (4, x.cfg.dataId.toNat)]) rfl (by simp [adjacentBytes])
      (by simp [frameP4, VarCfg.ob]) (crcInput_p4 x) fun _ => Iff.rfl
  · exact (FrameOf.p4m x).protect_stampsTo_crcBehind hok hm hi hl
      (l := [(2, s.len.toNat), (2, x.tx.toNat), (4, x.cfg.dataId.toNat), (4, x.cfg.metaWord.toNat)]) rfl
      (by simp [adjacentBytes]) (by simp [frameP4M, VarCfg.ob]) (crcInput_p4m x) fun _ => Iff.rfl

/-- Settles O47: the findings of a check in order; the Data ID signature of profile 4M is two fields. -/
theorem checkP4AndP4MFollowRules : Obligations.CheckP4AndP4MFollowRules := by
  refine ⟨hasSlotWord_of_opc (fun _ => rfl) fun _ => rfl, hasSlotWord_of_opc (fun _ => rfl) fun _ => rfl,
    checkErrors .p4, checkErrors .p4m, checkLengthFindings .p4, checkLengthFindings .p4m,
    fun s bs i x hm hi hok => ?_, fun s bs i x hm hi hok => ?_⟩
  · refine ((FrameOf.p4 x).exec_check_message hok hm hi (fun hl => fieldIs_header hok hm hl (by decide) _)
      fun hl => fieldIs_header hok hm hl (by decide) _).trans ?_
    simp only [crcInput_p4, frameP4, lenOkRange_eq_false_iff]
    rfl
  · have hid (hl : LenOk (.p4m x) s.len.toNat) : (frameP4M x.cfg).idAgrees s =
        .ok (decide (field bs (x.cfg.ob + 4) 4 = x.cfg.dataId.toNat ∧
          field bs (x.cfg.ob + 8) 4 = x.cfg.metaWord.toNat)) := by
      simp only [frameP4M, fieldIs_header hok hm hl (show 4 + 4 ≤ headerBytes .p4m by decide),
        fieldIs_header hok hm hl (show 8 + 4 ≤ headerBytes .p4m by decide), access_ok_bind, Bool.decide_and]
    refine ((FrameOf.p4m x).exec_check_message hok hm hi (fun hl => fieldIs_header hok hm hl (by decide) _)
      hid).trans ?_
    simp only [crcInput_p4m, frameP4M, lenOkRange_eq_false_iff, ne_eq, ite_not, ite_and]
    rfl

end Sys2Proof.Machine
end

section
/-! A `PROTECT` whose CRC field is right before its other fields, as in profiles 5 to 8 (R112 to R116, R221, R224). -/

namespace Sys2Proof.Machine

open Sys2Proof.Claims

section Frames

variable {p : Profile} {C : Type} {w : Nat} {fr : Frame w} {put : Inst C w → Slot} {x : Inst C w} {s : State}
  {bs : List Byte} {i : Nat}

/-- A protect whose CRC field is right before its other fields `body`, and whose CRC input is the message and then
`behind`. -/
theorem FrameOf.protect_stampsTo_crcBefore (hfr : FrameOf p fr put x) (hok : (put x).Ok)
    (hm : MessageBut (InFields (put x)) s bs) (hi : s.slots[i]? = some (put x)) (hl : LenOk (put x) s.len.toNat)
    {l : List (Nat × Nat)} {body behind : List Byte}
    (hstamps : stampsOf s.len.toNat (put x) = adjacentFields (fr.crcAt + fr.crcBytes) l)
    (hbody : adjacentBytes l = body)
    (hinput : ∀ b, crcInput (put x) b = coverOf b fr.crcAt fr.crcBytes ++ behind)
    (hfields : ∀ y, InFields (put x) y ↔ fr.crcAt ≤ y ∧ y < fr.crcAt + fr.crcBytes + body.length) :
    StampsTo (protectOf p i) i s (put { x with tx := x.tx + 1 })
      (bs.take fr.crcAt ++ beBytes fr.crcBytes (crcOf (engineOf p).2
        (bs.take fr.crcAt ++ body ++ bs.drop (fr.crcAt + fr.crcBytes + body.length) ++ behind)).toNat ++ body ++
        bs.drop (fr.crcAt + fr.crcBytes + body.length)) (InFields (put x)) := by
  subst hbody
  have hcrcField := (hfr.local hok (hfr.lenOk_iff.mpr hl)).crcField
  have hin : fr.crcAt + fr.crcBytes + (adjacentBytes l).length ≤ s.len.toNat := by
    by_contra! hout
    exact lt_irrefl _ (inFields_lt_len hok hl ((hfields _).mpr ⟨by omega, hout⟩))
  rw [← hm.length_eq] at hcrcField
  have h := hfr.protect_stampsTo hok hm hi hl hstamps hin fun y => (hfields y).trans (by omega)
  have hside (v : Nat) := patch_patch_left (bs := bs) (a := fr.crcAt) (u := beBytes fr.crcBytes v)
    (v := adjacentBytes l) (by rwa [beBytes_length])
  simp only [beBytes_length] at hside
  rw [hinput, coverOf_patch_left hcrcField, hside, patch] at h
  simpa only [List.length_append, beBytes_length, ← List.append_assoc, ← Nat.add_assoc] using h

end Frames

end Sys2Proof.Machine
end

section
/-! Profiles 5 and 6: `PROTECT` and `CHECK` on a message, byte by byte (R281 to R285, R291 to R295). -/

namespace Sys2Proof.Machine

/-- The two bytes of a 16-bit Data ID, high first (R283, R293). -/
theorem beBytes_two_toNat (d : BitVec 16) : beBytes 2 d.toNat = [d.extractLsb' 8 8, d.extractLsb' 0 8] := by
  have hhigh : BitVec.ofNat 8 (d.toNat / 256 ^ 1) = d.extractLsb' 8 8 := by
    rw [BitVec.extractLsb', Nat.shiftRight_eq_div_pow]
    rfl
  have hlow : BitVec.ofNat 8 (d.toNat / 256 ^ 0) = d.extractLsb' 0 8 := by
    rw [BitVec.extractLsb', Nat.shiftRight_zero, pow_zero, Nat.div_one]
  rw [beBytes_succ, beBytes_succ, beBytes_zero, hhigh, hlow]

theorem crcInput_p5_beBytes (x : Inst FixCfg 8) (bs : List Byte) :
    crcInput (.p5 x) bs = coverOf bs x.cfg.ob 2 ++ beBytes 2 x.cfg.dataId.toNat := by
  rw [crcInput_p5, beBytes_two_toNat]

theorem crcInput_p6_beBytes (x : Inst (VarCfg 16) 8) (bs : List Byte) :
    crcInput (.p6 x) bs = coverOf bs x.cfg.ob 2 ++ beBytes 2 x.cfg.dataId.toNat := by
  rw [crcInput_p6, beBytes_two_toNat]

/-- The length test of a fixed-length profile, as the rules of its check print it (R218, R230). -/
theorem lenOkFixed_eq_false_iff {dl : Word32} {len : Nat} : lenOkFixed dl len = false ↔ len * 8 ≠ dl.toNat := by
  rw [← Bool.not_eq_true, lenOkFixed_iff, Nat.mul_comm]

/-- Settles O42: the CRC field is right before the other fields, and the Data ID bytes are the last of the CRC input. -/
theorem protectP5AndP6FollowRules : Obligations.ProtectP5AndP6FollowRules := by
  refine ⟨hasSlotWord_of_opc (fun _ => rfl) fun _ => rfl, hasSlotWord_of_opc (fun _ => rfl) fun _ => rfl,
    protectErrors .p5, protectErrors .p6, fun s bs i x hm hi hok hl => ?_, fun s bs i x hm hi hok hl => ?_⟩
  · exact (FrameOf.p5 x).protect_stampsTo_crcBefore hok hm hi hl (l := [(1, x.tx.toNat)]) rfl
      (List.append_nil _) (crcInput_p5_beBytes x) fun _ => Iff.rfl
  · exact (FrameOf.p6 x).protect_stampsTo_crcBefore hok hm hi hl (l := [(2, s.len.toNat), (1, x.tx.toNat)]) rfl
      (by simp [adjacentBytes]) (crcInput_p6_beBytes x) fun _ => Iff.rfl

/-- Settles O48: neither profile stores its Data ID, and profile 5 has no Length field, so those tests find nothing. -/
theorem checkP5AndP6FollowRules : Obligations.CheckP5AndP6FollowRules := by
  refine ⟨hasSlotWord_of_opc (fun _ => rfl) fun _ => rfl, hasSlotWord_of_opc (fun _ => rfl) fun _ => rfl,
    checkErrors .p5, checkErrors .p6, checkLengthFindings .p5, checkLengthFindings .p6,
    fun s bs i x hm hi hok => ?_, fun s bs i x hm hi hok => ?_⟩
  · refine ((FrameOf.p5 x).exec_check_message (lengthGood := True) (idGood := True) hok hm hi (fun _ => rfl)
      fun _ => rfl).trans ?_
    simp only [crcInput_p5_beBytes, frameP5, lenOkFixed_eq_false_iff, not_true, if_false]
    rfl
  · refine ((FrameOf.p6 x).exec_check_message (idGood := True) hok hm hi
      (fun hl => fieldIs_header hok hm hl (by decide) _) fun _ => rfl).trans ?_
    simp only [crcInput_p6_beBytes, frameP6, lenOkRange_eq_false_iff, not_true, if_false]
    rfl

end Sys2Proof.Machine
end

section
/-! Profiles 7, 7M and 8: `PROTECT` and `CHECK` on a message, byte by byte (R311 to R315, R321 to R325, R331 to R335). -/

namespace Sys2Proof.Machine

open Sys2Proof.Claims

/-! ### The CRC input is the message outside the CRC field (R313, R323, R333) -/

theorem crcInput_p7 (x : Inst (VarCfg 32) 32) (bs : List Byte) :
    crcInput (.p7 x) bs = coverOf bs x.cfg.ob 8 := ((FrameOf.p7 x).crcInput_eq bs).trans (List.append_nil _)

theorem crcInput_p7m (x : Inst MetaCfg 32) (bs : List Byte) :
    crcInput (.p7m x) bs = coverOf bs x.cfg.ob 8 := ((FrameOf.p7m x).crcInput_eq bs).trans (List.append_nil _)

theorem crcInput_p8 (x : Inst (VarCfg 32) 32) (bs : List Byte) :
    crcInput (.p8 x) bs = coverOf bs x.cfg.ob 4 := ((FrameOf.p8 x).crcInput_eq bs).trans (List.append_nil _)

/-! ### Protect -/

/-- A protect whose CRC field is right before its other fields `body`, and whose CRC input is the message alone. -/
theorem FrameOf.protect_stampsTo_crcFirst {p : Profile} {C : Type} {w : Nat} {fr : Frame w} {put : Inst C w → Slot}
    {x : Inst C w} {s : State} {bs : List Byte} {i : Nat} (hfr : FrameOf p fr put x) (hok : (put x).Ok)
    (hm : MessageBut (InFields (put x)) s bs) (hi : s.slots[i]? = some (put x)) (hl : LenOk (put x) s.len.toNat)
    {l : List (Nat × Nat)} {body : List Byte}
    (hstamps : stampsOf s.len.toNat (put x) = adjacentFields (fr.crcAt + fr.crcBytes) l)
    (hbody : adjacentBytes l = body) (hinput : ∀ b, crcInput (put x) b = coverOf b fr.crcAt fr.crcBytes)
    (hfields : ∀ y, InFields (put x) y ↔ fr.crcAt ≤ y ∧ y < fr.crcAt + fr.crcBytes + body.length) :
    StampsTo (protectOf p i) i s (put { x with tx := x.tx + 1 })
      (bs.take fr.crcAt ++ beBytes fr.crcBytes (crcOf (engineOf p).2
        (bs.take fr.crcAt ++ body ++ bs.drop (fr.crcAt + fr.crcBytes + body.length))).toNat ++ body ++
        bs.drop (fr.crcAt + fr.crcBytes + body.length)) (InFields (put x)) := by
  have h := hfr.protect_stampsTo_crcBefore hok hm hi hl hstamps hbody (behind := [])
    (fun b => (hinput b).trans (List.append_nil _).symm) hfields
  rwa [List.append_nil] at h

/-- Settles O43: the CRC field comes first, the other fields lie side by side behind it. -/
theorem protectP7AndP8FollowRules : Obligations.ProtectP7AndP8FollowRules := by
  refine ⟨hasSlotWord_of_opc (fun _ => rfl) fun _ => rfl, hasSlotWord_of_opc (fun _ => rfl) fun _ => rfl,
    protectErrors .p7, protectErrors .p8, fun s bs i x hm hi hok hl => ?_, fun s bs i x hm hi hok hl => ?_⟩
  · exact (FrameOf.p7 x).protect_stampsTo_crcFirst hok hm hi hl
      (l := [(4, s.len.toNat), (4, x.tx.toNat), (4, x.cfg.dataId.toNat)]) rfl (by simp [adjacentBytes])
      (crcInput_p7 x) fun _ => Iff.rfl
  · exact (FrameOf.p8 x).protect_stampsTo_crcFirst hok hm hi hl
      (l := [(4, s.len.toNat), (4, x.tx.toNat), (4, x.cfg.dataId.toNat)]) rfl (by simp [adjacentBytes])
      (crcInput_p8 x) fun _ => Iff.rfl

/-- Settles O44: as profile 7, with the Meta field as the last of those behind the CRC field. -/
theorem protectP7MFollowsRule : Obligations.ProtectP7MFollowsRule := by
  refine ⟨hasSlotWord_of_opc (fun _ => rfl) fun _ => rfl, protectErrors .p7m, fun s bs i x hm hi hok hl => ?_⟩
  exact (FrameOf.p7m x).protect_stampsTo_crcFirst hok hm hi hl
    (l := [(4, s.len.toNat), (4, x.tx.toNat), (4, x.cfg.dataId.toNat), (4, x.cfg.metaWord.toNat)]) rfl
    (by simp [adjacentBytes]) (crcInput_p7m x) fun _ => Iff.rfl

/-! ### Check -/

/-- The Data ID signature of profile 7M is two fields, the Data ID and Meta (R325, D20). -/
theorem idAgrees_p7m {x : Inst MetaCfg 32} {s : State} {bs : List Byte} (hok : x.cfg.toVarCfg.Ok .p7m)
    (hm : Message s bs) (hl : LenOk (.p7m x) s.len.toNat) :
    (frameP7M x.cfg).idAgrees s = .ok (decide (field bs (x.cfg.ob + 16) 4 = x.cfg.dataId.toNat ∧
      field bs (x.cfg.ob + 20) 4 = x.cfg.metaWord.toNat)) := by
  have hdataId := fieldIs_header hok hm hl (show 16 + 4 ≤ headerBytes .p7m by decide) x.cfg.dataId.toNat
  have hmeta := fieldIs_header hok hm hl (show 20 + 4 ≤ headerBytes .p7m by decide) x.cfg.metaWord.toNat
  simp only [frameP7M, hdataId, hmeta, access_ok_bind, Bool.decide_and]

/-- Settles O49: the findings of a check in order; the three profiles store their Data ID, and the signature of profile
7M is two fields. -/
theorem checkP7FamilyFollowsRules : Obligations.CheckP7FamilyFollowsRules := by
  refine ⟨hasSlotWord_of_opc (fun _ => rfl) fun _ => rfl, hasSlotWord_of_opc (fun _ => rfl) fun _ => rfl,
    hasSlotWord_of_opc (fun _ => rfl) fun _ => rfl, checkErrors .p7, checkErrors .p7m, checkErrors .p8,
    checkLengthFindings .p7, checkLengthFindings .p7m, checkLengthFindings .p8, fun s bs i x hm hi hok => ?_,
    fun s bs i x hm hi hok => ?_, fun s bs i x hm hi hok => ?_⟩
  · refine ((FrameOf.p7 x).exec_check_message hok hm hi (fun hl => fieldIs_header hok hm hl (by decide) _)
      fun hl => fieldIs_header hok hm hl (by decide) _).trans ?_
    simp only [crcInput_p7, frameP7, lenOkRange_eq_false_iff]
    rfl
  · refine ((FrameOf.p7m x).exec_check_message hok hm hi (fun hl => fieldIs_header hok hm hl (by decide) _)
      (idAgrees_p7m hok hm)).trans ?_
    simp only [crcInput_p7m, frameP7M, lenOkRange_eq_false_iff, ne_eq, ite_not, ite_and]
    rfl
  · refine ((FrameOf.p8 x).exec_check_message hok hm hi (fun hl => fieldIs_header hok hm hl (by decide) _)
      fun hl => fieldIs_header hok hm hl (by decide) _).trans ?_
    simp only [crcInput_p8, frameP8, lenOkRange_eq_false_iff]
    rfl

end Sys2Proof.Machine
end

section
/-! An error of a command is a write of ERR (R404), read off the inversion lemma `exec_effect`. -/

namespace Sys2Proof.Machine

/-- Of the effects of a command only an error leaves ERR with another code than NoError. -/
theorem Effect.eq_setErr_of_err_ne {s t : State} {i : Instr} (he : Effect s i t) (hne : t.err ≠ 0) :
    t = s.setErr t.err := by
  cases he with
  | error i k hc => rfl
  | result | store | validate | construct | protect | finding | counted => exact absurd rfl hne

/-- Settles O14, by `Effect.eq_setErr_of_err_ne`. -/
theorem errorsChangeOnlyErr : Obligations.ErrorsChangeOnlyErr :=
  fun _ _ _ h hne => (exec_effect h).eq_setErr_of_err_ne hne

end Sys2Proof.Machine
end

section
/-! A `PROTECT` whose fields other than the CRC byte are nibbles, as in profiles 11 and 22 (R117, R118, R221, R224):
each nibble is set in a byte whose other four bits stay, so that byte must hold a value before (R66). -/

namespace Sys2Proof.Machine

open Sys2Proof.Claims

/-! ### Nibbles of a message -/

/-- Nibble fields at the bit offsets and with the values of a list. -/
def nibbleFields (l : List (Nat × Nat)) : FieldValues := l.map fun f => (.nibble f.1, f.2)

/-- A message with the nibbles of a list replaced, the first one first. -/
def putNibbles (bs : List Byte) (l : List (Nat × Nat)) : List Byte := l.foldl (fun b f => putNibble b f.1 f.2) bs

theorem putNibble_eq (bs : List Byte) (o v : Nat) :
    putNibble bs o v = bs.set (o / 8) (withNibble o (byteOf bs (o / 8)) v) := rfl

@[simp] theorem putNibble_length (bs : List Byte) (o v : Nat) : (putNibble bs o v).length = bs.length :=
  List.length_set ..

/-- The nibble of a message that was set last is read back (R162). -/
theorem getNibble_putNibble {bs : List Byte} {o v : Nat} (ho : o / 8 < bs.length) (hv : v < 16) :
    getNibble (putNibble bs o v) o = v := by
  rw [getNibble_eq, putNibble_eq, byteOf_set _ _ _ _ ho, if_pos rfl, nibbleOf_withNibble o _ hv]

/-- Nibble fields set inside a message, in bytes that hold values: the message has these nibbles. -/
theorem writeFields_nibbles {P blank : Nat → Prop} : ∀ {l : List (Nat × Nat)} {s : State} {bs : List Byte},
    MessageBut blank s bs → (∀ f ∈ l, f.1 / 8 < s.len.toNat ∧ P (f.1 / 8) ∧ ¬blank (f.1 / 8)) →
    ∃ t, writeFields (nibbleFields l) s = .ok t ∧ Stamped P blank s (putNibbles bs l) t
  | [], s, bs, hm, _ => ⟨s, rfl, s.buf, rfl, hm, fun _ _ => rfl⟩
  | (o, v) :: l, s, bs, hm, hl => by
    obtain ⟨⟨hlt, hP, hb⟩, hrest⟩ := List.forall_mem_cons.mp hl
    obtain ⟨s1, hwrite, hs1⟩ := nibWrite_stamped hm v hlt hP hb
    obtain ⟨t, ht, hst⟩ := writeFields_nibbles (l := l) hs1.message (by rwa [hs1.len])
    refine ⟨t, ?_, hs1.trans hst⟩
    rw [nibbleFields, List.map_cons, writeFields, Place.write, hwrite, access_ok_bind]
    exact ht

/-! ### Protect -/

theorem beBytes_one_toNat (b : Byte) : beBytes 1 b.toNat = [b] := by
  rw [beBytes_succ, beBytes_zero, pow_zero, Nat.div_one, BitVec.ofNat_toNat, BitVec.setWidth_eq]

section Frames

variable {p : Profile} {C : Type} {w : Nat} {fr : Frame w} {put : Inst C w → Slot} {x : Inst C w} {s : State}
  {bs : List Byte} {i : Nat}

/-- A protect whose fields other than the CRC byte are the nibbles of `l`: they are set, and then the CRC byte to the
CRC `v` of the message they are in (R221, R224). The CRC byte needs no value before. -/
theorem FrameOf.protect_stampsTo_nibbles (hfr : FrameOf p fr put x) (hok : (put x).Ok)
    (hm : MessageBut (· = fr.crcAt) s bs) (hi : s.slots[i]? = some (put x)) (hl : LenOk (put x) s.len.toNat)
    {l : List (Nat × Nat)} {v : Byte} (hcrcBytes : fr.crcBytes = 1)
    (hstamps : stampsOf s.len.toNat (put x) = nibbleFields l)
    (hfields : InFields (put x) fr.crcAt ∧ ∀ f ∈ l, InFields (put x) (f.1 / 8))
    (hv : (crcOf (engineOf p).2 (crcInput (put x) (putNibbles bs l))).toNat = v.toNat) :
    StampsTo (protectOf p i) i s (put { x with tx := x.tx + 1 }) ((putNibbles bs l).set fr.crcAt v)
      (InFields (put x)) := by
  obtain ⟨hcrcAt, hnibbles⟩ := hfields
  have hlenOk := hfr.lenOk_iff.mpr hl
  have hcrcField (y : Nat) : y = fr.crcAt ↔ fr.crcAt ≤ y ∧ y < fr.crcAt + fr.crcBytes := by omega
  have hapart : ∀ f ∈ l, f.1 / 8 ≠ fr.crcAt := fun f hf heq => by
    have hplaces := hfr.crcField_apart hok s.len.toNat (.nibble f.1, f.2) (hstamps ▸ List.mem_map_of_mem hf)
    simp only [Place.Apart] at hplaces
    omega
  obtain ⟨s1, hwrite, hs1⟩ := writeFields_nibbles (P := InFields (put x)) (l := l) hm fun f hf =>
    ⟨inFields_lt_len hok hl (hnibbles f hf), hnibbles f hf, hapart f hf⟩
  have hcrc := hfr.crc_messageBut hok hs1.message (hs1.len ▸ hl) fun y => (hcrcField y).mp
  obtain ⟨m, hexec, hm', hkept⟩ := protect_message (put := put) (i := i) hlenOk
    ((hfr.stamp_eq s).trans (hstamps ▸ hwrite)) hs1 hcrc (hfr.local hok hlenOk).crcField
    (fun y h1 h2 => (hcrcField y).mpr ⟨h1, h2⟩ ▸ hcrcAt) fun y => (hcrcField y).mp
  have hinside : fr.crcAt < (putNibbles bs l).length := by
    rw [hs1.message.length_eq, hs1.len]
    exact inFields_lt_len hok hl hcrcAt
  rw [hv, hcrcBytes, beBytes_one_toNat, patch_singleton hinside] at hm'
  exact ⟨m, ((exec_protectOf p i s).of_frame hfr hi).trans hexec, hm', hkept⟩

end Frames

end Sys2Proof.Machine
end

section
/-! Profile 11: `PROTECT` and `CHECK` on a message, byte by byte (R351 to R355). -/

namespace Sys2Proof.Machine

open Sys2Proof.Claims

/-- The number the second Data ID byte of the CRC input is: 0, or the data-ID nibble (R353). -/
def P11Cfg.secondIdByte (c : P11Cfg) : Nat :=
  match c.mode with
  | .both => 0
  | .nibble _ => c.dataId.toNat / 256 % 16

theorem P11Cfg.idBytes_eq (c : P11Cfg) :
    c.idBytes = [BitVec.ofNat 8 (c.dataId.toNat % 256), BitVec.ofNat 8 c.secondIdByte] := by
  have hlow : c.dataId.extractLsb' 0 8 = BitVec.ofNat 8 (c.dataId.toNat % 256) := by
    rw [← BitVec.toNat_inj, BitVec.extractLsb'_toNat, BitVec.toNat_ofNat, Nat.shiftRight_zero, Nat.mod_mod]
  have hidn : c.idn.setWidth 8 = BitVec.ofNat 8 (c.dataId.toNat / 256 % 16) := by
    rw [← BitVec.toNat_inj, BitVec.toNat_setWidth, BitVec.toNat_ofNat, idn_toNat]
  cases hmode : c.mode with
  | both => simp only [P11Cfg.idBytes, P11Cfg.secondIdByte, hmode, hlow, BitVec.ofNat_eq_ofNat]
  | nibble o => simp only [P11Cfg.idBytes, P11Cfg.secondIdByte, hmode, hlow, hidn]

theorem crcInput_p11_ofNat (x : Inst P11Cfg 4) (bs : List Byte) :
    crcInput (.p11 x) bs = BitVec.ofNat 8 (x.cfg.dataId.toNat % 256) :: BitVec.ofNat 8 x.cfg.secondIdByte ::
      coverOf bs x.cfg.cb 1 := by
  rw [crcInput_p11, P11Cfg.idBytes_eq]
  rfl

/-- Settles O45: the fields are the counter nibble and, in Nibble mode, the data-ID nibble. -/
theorem protectP11FollowsRule : Obligations.ProtectP11FollowsRule := by
  refine ⟨hasSlotWord_of_opc (fun _ => rfl) fun _ => rfl, protectErrors .p11, fun s bs i x hm hi hok hl => ?_⟩
  have hstampsTo (l : List (Nat × Nat)) (hstamps : stampsOf s.len.toNat (.p11 x) = nibbleFields l)
      (hnibbles : ∀ f ∈ l, InFields (.p11 x) (f.1 / 8)) := (FrameOf.p11 x).protect_stampsTo_nibbles hok hm hi hl rfl
    hstamps ⟨.inl rfl, hnibbles⟩ (congrArg (fun b => (crcOf crc8h2f b).toNat) (crcInput_p11_ofNat x _))
  have hcounter : InFields (.p11 x) (x.cfg.counterOffset.toNat / 8) := .inr (.inl rfl)
  cases hmode : x.cfg.mode with
  | both =>
    have h := hstampsTo [(x.cfg.counterOffset.toNat, x.tx.toNat)] (by rw [stampsOf, hmode]; rfl)
      (by simpa using hcounter)
    rw [P11Cfg.secondIdByte, hmode] at h
    exact h
  | nibble o =>
    have hnibble : InFields (.p11 x) (o.toNat / 8) := .inr (.inr ⟨o, hmode, rfl⟩)
    have h := hstampsTo [(x.cfg.counterOffset.toNat, x.tx.toNat), (o.toNat, x.cfg.dataId.toNat / 256 % 16)]
      (by rw [stampsOf, hmode, idn_toNat]; rfl) (by simpa using ⟨hcounter, hnibble⟩)
    rw [P11Cfg.secondIdByte, hmode] at h
    exact h

/-- The Data ID signature of profile 11 is the data-ID nibble, in Nibble mode (R355). -/
theorem idAgrees_p11 {x : Inst P11Cfg 4} {s : State} {bs : List Byte} (hok : x.cfg.Ok) (hm : Message s bs)
    (hl : LenOk (.p11 x) s.len.toNat) : (frameP11 x.cfg).idAgrees s = .ok (decide
      ¬∃ o, x.cfg.mode = .nibble o ∧ getNibble bs o.toNat ≠ x.cfg.dataId.toNat / 256 % 16) := by
  cases hmode : x.cfg.mode with
  | both => simp [frameP11, hmode]
  | nibble o =>
    have hread : nibRead s o.toNat = .ok (getNibble bs o.toNat) :=
      nibRead_message hm (inFields_lt_len (x := .p11 x) hok hl (.inr (.inr ⟨o, hmode, rfl⟩)))
    simp [frameP11, hmode, hread, idn_toNat]

/-- Settles O50: profile 11 has no Length field, so that test finds nothing. -/
theorem checkP11FollowsRule : Obligations.CheckP11FollowsRule := by
  refine ⟨hasSlotWord_of_opc (fun _ => rfl) fun _ => rfl, checkErrors .p11, checkLengthFindings .p11,
    fun s bs i x hm hi hok => ?_⟩
  refine ((FrameOf.p11 x).exec_check_message (lengthGood := True) hok hm hi (fun _ => rfl)
    (idAgrees_p11 hok hm)).trans ?_
  simp only [crcInput_p11_ofNat, frameP11, lenOkFixed_eq_false_iff, not_true, if_false, not_not]
  rfl

end Sys2Proof.Machine
end

section
/-! Profile 22: `PROTECT` and `CHECK` on a message, byte by byte (R371 to R375). -/

namespace Sys2Proof.Machine

open Sys2Proof.Claims

/-- The counter nibble is the low nibble of the second header byte (R371). -/
theorem P22Cfg.Ok.counterOffset_eq {c : P22Cfg} (hc : c.Ok) : c.offset.toNat + 8 = 8 * (c.offset.toNat / 8 + 1) := by
  have haligned := hc.aligned
  omega

/-- Settles O46: the one nibble set is the counter, and it selects the list entry at the front of the CRC input. -/
theorem protectP22FollowsRule : Obligations.ProtectP22FollowsRule := by
  refine ⟨hasSlotWord_of_opc (fun _ => rfl) fun _ => rfl, protectErrors .p22, fun s bs i x hm hi hok hl => ?_⟩
  have hcounter : InFields (.p22 x) ((x.cfg.offset.toNat + 8) / 8) := by
    simp only [InFields]
    omega
  have hinside : (x.cfg.offset.toNat + 8) / 8 < bs.length := by
    rw [hm.length_eq]
    exact inFields_lt_len (x := .p22 x) hok hl hcounter
  have hinput : crcInput (.p22 x) (putNibble bs (x.cfg.offset.toNat + 8) x.tx.toNat) =
      x.cfg.idList[x.tx.toNat]'(x.tx.isLt) ::
        coverOf (putNibble bs (x.cfg.offset.toNat + 8) x.tx.toNat) x.cfg.ob 1 := by
    rw [crcInput_p22, counterField, getNibble_putNibble hinside x.tx.isLt, P22Cfg.idAt_toNat]
  have h := (FrameOf.p22 x).protect_stampsTo_nibbles hok hm hi hl (l := [(x.cfg.offset.toNat + 8, x.tx.toNat)]) rfl
    rfl ⟨⟨le_rfl, by simp [frameP22, P22Cfg.ob]⟩, by simpa using hcounter⟩
    (congrArg (fun b => (crcOf crc8j b).toNat) hinput)
  rw [hok.counterOffset_eq] at h
  exact h

/-- Settles O51: the received counter selects the list entry; profile 22 stores no Data ID and has no Length field. -/
theorem checkP22FollowsRule : Obligations.CheckP22FollowsRule := by
  refine ⟨hasSlotWord_of_opc (fun _ => rfl) fun _ => rfl, checkErrors .p22, checkLengthFindings .p22,
    fun s bs i x hm hi hok => ?_⟩
  refine ((FrameOf.p22 x).exec_check_message (lengthGood := True) (idGood := True) hok hm hi (fun _ => rfl)
    fun _ => rfl).trans ?_
  simp only [crcInput_p22, counterField, hok.counterOffset_eq, frameP22, lenOkFixed_eq_false_iff, not_true, if_false]
  rfl

end Sys2Proof.Machine
end
